-- ==== Sys2Proof/Word.lean ====
section
/-! DEFINITION. The value types of rule R11 and the fixed constants of rule R6. -/
namespace Sys2Proof

/-- A byte of page-table memory in a byte-level view (R58). -/
abbrev Byte := BitVec 8
/-- A raw page-table entry, memory word or byte address: 64 bits (R11, R51). -/
abbrev Word := BitVec 64
/-- A frame number: every 52-bit value is legal, 0 included (R11, D7). -/
abbrev Frame := BitVec 52
/-- A virtual page number after the range check (R11). -/
abbrev Vpn := BitVec 45
/-- A level index, 0 to 511 (R11). -/
abbrev Idx := BitVec 9
/-- The level counter's values; 0 to 4 are used (R11, R22). -/
abbrev Level := BitVec 3
/-- The packed command bundle of rule R84. -/
abbrev Bundle := BitVec 170
/-- The packed response bundle of rule R88. -/
abbrev RspBundle := BitVec 55

/-- `PAGE_BYTES` of R6. -/
def pageBytes : Nat := 4096
/-- `PTE_BYTES` of R6. -/
def pteBytes : Nat := 8
/-- `ENTRIES` of R6, derived from the page and entry sizes as the source asks. -/
def entries : Nat := pageBytes / pteBytes
/-- `IDX_BITS` of R6. -/
def idxBits : Nat := 9
/-- `LEVELS` of R6. -/
def levels : Nat := 5
/-- `VPN_BITS` of R6. -/
def vpnBits : Nat := levels * idxBits
/-- `OFFSET_BITS` of R6. -/
def offsetBits : Nat := 12
/-- `VA_BITS` of R6. -/
def vaBits : Nat := 64
/-- `PTE_BITS` of R6. -/
def pteBits : Nat := 8 * pteBytes
/-- `FRAME_BITS` of R6. -/
def frameBits : Nat := pteBits - offsetBits
/-- `INTERMEDIATE_LEVELS` of R6. -/
def intermediateLevels : Nat := levels - 1
/-- `CMD_VPN_BITS` of R8: wider than `VPN_BITS`, so that an out-of-range value can be seen (D6). -/
def cmdVpnBits : Nat := 64

end Sys2Proof
end

