-- ==== Sys2Proof/Config.lean ====
section
/-! DEFINITION. What is fixed when the block is built (rules R8 and R31), and the free values: the draws
the spec leaves to the allocator (R60) and to memory at a reset (R222). -/
namespace Sys2Proof

/-- `ROOT_CHECK : Frame → Bool` of R8 as plain data. The frame numbers are finitely many, so a list says any
predicate; `Sys2Proof.Machine.rootAccepts` gives its meaning. Log entry 7. -/
inductive RootCheck where
  /-- The default of R8, `fun _ => true`: detection is left to the caller (D12). -/
  | acceptAll
  /-- True of exactly the frames listed. -/
  | onlyFrames (frames : List Frame)
deriving DecidableEq, Repr, Inhabited

/-- `BYTE_ORDER` of R8: which byte of a word lies lowest in a byte-level view of memory (R58, D9). -/
inductive ByteOrder where
  | little
  | big
deriving DecidableEq, Repr, Inhabited

/-- The static configuration of R31: fixed when the block is built, no command changes it. -/
structure Platform where
  rootCheck : RootCheck
  byteOrder : ByteOrder
deriving DecidableEq, Repr, Inhabited

/-- The defaults of R8. -/
def Config.defaultPlatform : Platform := ⟨.acceptAll, .little⟩

/-- The allocator's answer to one request (R60): a frame, or exhausted. -/
inductive AllocAnswer where
  | ok (f : Frame)
  | exhausted
deriving DecidableEq, Repr, Inhabited

/-- What became of a request in flight when `rst` abandoned it (R222): not yet transferred, transferred and not
performed, or transferred and performed. -/
inductive RequestFate where
  | notIssued
  | unperformed
  | performed
deriving DecidableEq, Repr, Inhabited

/-- FREE VALUE: the answer to the `n`-th allocator request that no scripted answer covers (`AllocOracle`, R8, R60).
It has no body: nothing can be proved of it. Log entry 6. -/
opaque Config.allocOracle : Nat → AllocAnswer

/-- FREE VALUE: the fate of the request the `n`-th reset abandons, where no script covers it (the draw of R222).
It has no body. Log entry 8. -/
opaque Config.requestFate : Nat → RequestFate

end Sys2Proof
end

