-- ==== Sys2Proof/Syntax.lean ====
section
/-! DEFINITION. The commands (R3, R86), one constructor per row of spec/opcode_table.json, with every field of the
170-bit bundle, those a command ignores included (R87: they are latched). Beside them the command port's signals
(R84) and the textual and source forms of R94. -/
namespace Sys2Proof

/-- A command of the block. `root` is `cmd_root`, `vpn` is the 64-bit `cmd_vpn`, `ppn` is `cmd_ppn`. -/
inductive Instr where
  /-- `QUERY root, vpn` (R140); `ppnPresent` and `ppn` are ignored (R87). -/
  | query (ppnPresent : Bool) (root : Frame) (vpn : Word) (ppn : Frame)
  /-- `UNMAP root, vpn` (R167); `ppn` is ignored (R87). -/
  | unmap (root : Frame) (vpn : Word) (ppn : Frame)
  /-- `MAP root, vpn, ppn` (R160). -/
  | map (root : Frame) (vpn : Word) (ppn : Frame)
deriving DecidableEq, Repr, Inhabited

/-- The fields of the command port (R84): `op` is `cmd_ctl[0]` (1 = update), `ppnPresent` is `cmd_ctl[1]`. -/
structure Command where
  op : Bool
  ppnPresent : Bool
  root : Frame
  vpn : Word
  ppn : Frame
deriving DecidableEq, Repr, Inhabited

/-- The textual commands of R94, with the numbers as the text gives them (of any size). -/
inductive CommandText where
  | query (root vpn : Nat)
  | map (root vpn ppn : Nat)
  | unmap (root vpn : Nat)
deriving DecidableEq, Repr, Inhabited

/-- The source's calls (R94): `none` is `NO_MAPPING` (R85). -/
inductive SourceCall where
  | query (root vpn : Nat)
  | update (root vpn : Nat) (ppn : Option Nat)
deriving DecidableEq, Repr, Inhabited

end Sys2Proof
end

