-- ==== Sys2Proof/WellFormed.lean ====
section
/-! DEFINITION. What is well formed before decoding. Every bundle is a legal command (R86, R92), and `Instr` holds
exactly the fields of a bundle, so no term of `Instr` is ill formed. What can be ill formed is a textual command
(R94): a number that its field of R84 cannot hold. An out-of-range VPN that fits the 64-bit field is no ill-formed
command: it is a legal one with an error result (R92). -/
namespace Sys2Proof

/-- A number fits a frame field (52 bits, R84). -/
def fitsFrame (n : Nat) : Bool := n < 2 ^ 52

/-- A number fits the command's VPN field (`CMD_VPN_BITS` = 64, R84). -/
def fitsCmdVpn (n : Nat) : Bool := n < 2 ^ 64

/-- Every number of the textual command fits its field. -/
def CommandText.wellFormed : CommandText → Bool
  | .query root vpn => fitsFrame root && fitsCmdVpn vpn
  | .map root vpn ppn => fitsFrame root && fitsCmdVpn vpn && fitsFrame ppn
  | .unmap root vpn => fitsFrame root && fitsCmdVpn vpn

end Sys2Proof
end

