-- ==== Sys2Proof/Decode.lean ====
section
/-! DEFINITION. Packing and unpacking the 170-bit command bundle (R84), the decoder (R86, total: every pattern selects
exactly one command), the encoder, and the assembler of the textual form (R94). -/
namespace Sys2Proof

/-- Why a number or a text is no command. No 170-bit bundle is ever rejected (R86, R92). -/
inductive DecodeError where
  /-- The number has a bit above bit 169: it is no bundle (R93: one fixed length). -/
  | tooWide
  /-- A number of a textual command does not fit its field (R84). -/
  | fieldTooWide
deriving DecidableEq, Repr

/-- The places of the fields in the bundle (R84): 0, 1, 53:2, 117:54, 169:118. -/
def unpackCommand (b : Bundle) : Command where
  op := b.getLsbD 0
  ppnPresent := b.getLsbD 1
  root := b.extractLsb' 2 52
  vpn := b.extractLsb' 54 64
  ppn := b.extractLsb' 118 52

/-- The bundle of the fields (R84). -/
def packCommand (c : Command) : Bundle :=
  c.ppn ++ c.vpn ++ c.root ++ BitVec.ofBool c.ppnPresent ++ BitVec.ofBool c.op

/-- The command the two control bits select (R86). -/
def Command.instr (c : Command) : Instr :=
  match c.op, c.ppnPresent with
  | false, p => .query p c.root c.vpn c.ppn
  | true, false => .unmap c.root c.vpn c.ppn
  | true, true => .map c.root c.vpn c.ppn

/-- The port fields that present a command (R86). -/
def Instr.command : Instr → Command
  | .query p root vpn ppn => ⟨false, p, root, vpn, ppn⟩
  | .unmap root vpn ppn => ⟨true, false, root, vpn, ppn⟩
  | .map root vpn ppn => ⟨true, true, root, vpn, ppn⟩

/-- The decoder: every bundle is exactly one command (R86). -/
def decode (b : Bundle) : Instr := (unpackCommand b).instr

/-- The encoder: the bundle of a command (R84, R86). -/
def encode (i : Instr) : Bundle := packCommand i.command

/-- The command a number stands for, bit 0 least significant (R84); a number of more than 170 bits is rejected. -/
def decodeNat (w : Nat) : Except DecodeError Instr :=
  if w < 2 ^ 170 then .ok (decode (BitVec.ofNat 170 w)) else .error .tooWide

/-- The number that `nbits` given bits `w` stand for, every bit above them 0. -/
def tableWord (nbits w : Nat) : Nat := w % 2 ^ nbits

/-- The command the decoder reads from the bits `w`, numbered as spec/opcode_table.json numbers them (bit 0 of the
bundle is bit 0); every bit of the bundle above `nbits` is 0. Log entry 20. -/
def decodeTableWord (nbits w : Nat) : Option Instr :=
  match decodeNat (tableWord nbits w) with
  | .ok i => some i
  | .error _ => none

/-- The assembler of R94: a field the text does not give is 0; a number too wide for its field is rejected. -/
def CommandText.assemble (t : CommandText) : Except DecodeError Instr :=
  if t.wellFormed then
    match t with
    | .query root vpn => .ok (.query false (BitVec.ofNat 52 root) (BitVec.ofNat 64 vpn) 0)
    | .map root vpn ppn => .ok (.map (BitVec.ofNat 52 root) (BitVec.ofNat 64 vpn) (BitVec.ofNat 52 ppn))
    | .unmap root vpn => .ok (.unmap (BitVec.ofNat 52 root) (BitVec.ofNat 64 vpn) 0)
  else .error .fieldTooWide

/-- The expansion of the source's calls (R94). -/
def SourceCall.expand : SourceCall → CommandText
  | .query root vpn => .query root vpn
  | .update root vpn (some ppn) => .map root vpn ppn
  | .update root vpn none => .unmap root vpn

end Sys2Proof
end

