-- ==== Sys2Proof/Machine/State.lean ====
section
/-! DEFINITION. The state: the registers of rules R21 to R27, the collaborators and pins the rules read, and the
model's own observation. All of it plain data. Beside it the reasons a step can stop, and the state after reset. -/
namespace Sys2Proof.Machine

/-- The control states of R21, in the order of their codes 0 to 6, and the code 7, which is never entered. -/
inductive FsmState where
  | idle
  | walkRd
  | walkAlloc
  | walkLink
  | leafRd
  | leafWr
  | resp
  /-- The unused code 7 (R21, R230). -/
  | code7
deriving DecidableEq, Repr, Inhabited

/-- The status names of R90, in the order of their codes 0 to 3. -/
inductive Status where
  | ok
  | outOfRangeAddress
  | allocatorExhausted
  | invalidRoot
deriving DecidableEq, Repr, Inhabited

/-- What the walker step makes of one entry (R117). -/
inductive EntryView where
  | absent
  | child (f : Frame)
  | mapped (f : Frame)
deriving DecidableEq, Repr, Inhabited

/-- The source the frame_multiplexer selects the next `cur_frame` from (R119). -/
inductive FrameSelect where
  | cmdRoot (f : Frame)
  | child (f : Frame)
  | newFrame
  | hold
deriving DecidableEq, Repr, Inhabited

/-- A request on the memory port (R51) or the allocator port (R60). -/
inductive PortRequest where
  | read (addr : Word)
  | write (addr data : Word)
  | alloc
deriving DecidableEq, Repr, Inhabited

/-- One event of the observation (R13). A transaction that a reset abandoned (R222) has no answer: `none`,
or `acked` false. -/
inductive PortEvent where
  | memRead (addr : Word) (data : Option Word)
  | memWrite (addr data : Word) (acked : Bool)
  | alloc (answer : Option AllocAnswer)
  | response (status : Status) (hit : Bool) (ppn : Frame)
deriving DecidableEq, Repr, Inhabited

/-- Page-table memory as bytes: addresses strictly rising, no entry equal to what an unlisted address reads as. -/
abbrev Memory := List Host.Cell

/-- The machine. The first eleven fields are the block's registers (R20 to R27); `mem`, `allocSupply` and `plat` are
its collaborators and configuration; then the input pins; the last three fields are the model's own. -/
structure State where
  /-- `st` (R21). -/
  st : FsmState
  /-- `lvl` (R22). -/
  lvl : Level
  /-- `op_reg` (R23): true is an update. -/
  opReg : Bool
  /-- `map_reg` (R23): for an update, true is `MAP`. -/
  mapReg : Bool
  /-- `vpn_reg` (R24). -/
  vpnReg : Vpn
  /-- `cur_frame` (R25). -/
  curFrame : Frame
  /-- `ppn_reg` (R26). -/
  ppnReg : Frame
  /-- `new_frame` (R26). -/
  newFrame : Frame
  /-- `rsp_status` (R27). -/
  rspStatus : Status
  /-- `rsp_hit` (R27). -/
  rspHit : Bool
  /-- `rsp_ppn` (R27). -/
  rspPpn : Frame
  /-- Page-table memory (R50), external to the block. -/
  mem : Memory
  /-- The allocator's coming answers (R60); where none is left the answer is the free value `Config.allocOracle`. -/
  allocSupply : List AllocAnswer
  /-- The static configuration (R31). -/
  plat : Platform
  /-- The bundles the caller presents, the head first (R84, R225); `cmd_valid` is 1 while there is one. -/
  cmdPort : List Bundle
  /-- `rsp_ready` (R88). -/
  rspReady : Bool
  /-- `rst` (R220). -/
  rst : Bool
  /-- Memory accepts and answers a request (R51); false is the memory of R207 that never does. -/
  memAnswers : Bool
  /-- The allocator accepts and answers a request (R60); false is the allocator of R207 that never does. -/
  allocAnswers : Bool
  /-- The model's own: the fates of the requests that coming resets abandon (R222); where none is left the fate is the
  free value `Config.requestFate`. -/
  resetFates : List RequestFate
  /-- The model's own: how many free values have been drawn. -/
  draws : Nat
  /-- The model's own: the observation of R13, newest event first. -/
  trace : List PortEvent
deriving DecidableEq, Repr

/-- Why the machine has no next step. -/
inductive Fault where
  /-- Raised by `codeFault`: `st = 7` or `lvl` in 5..7, which R230 says must be a fault with no step.
  Safe: the machine stops where the spec gives no step. -/
  | unreachableCode
  /-- Raised by `levelFault`: the level lies outside the range R22 gives the control state, so that no rule applies.
  Safe: the machine stops in a state that no run reaches. Log entry 10. -/
  | levelOutOfState
  /-- Raised by `memRead` and `memWrite`: memory never accepts or never answers the request, so the block is stuck
  (R207). Safe: the spec gives no step. -/
  | memoryNeverAnswers
  /-- Raised by `alloc`: the allocator never accepts or never answers the request, so the block is stuck (R207).
  Safe: the spec gives no step. -/
  | allocatorNeverAnswers
  /-- Raised by `memRead` and `memWrite`: an address that is no multiple of 8, which R57 says a byte-addressed model
  must reject and which never arises. Safe: no command issues one. -/
  | misalignedAccess
deriving DecidableEq, Repr

/-- Why an instruction has no meaning here. -/
inductive Refusal where
  /-- Raised by an arm of `exec` whose instruction has no meaning yet; no arm does. Safe: nothing is claimed. -/
  | notModelled (mnemonic : String)
  /-- Raised by a meaning asked to step a command while the registers hold another one in flight (R225: a command
  presented then is held). `step` never asks that. Safe: nothing happens. Log entry 12. -/
  | notInFlight
deriving DecidableEq, Repr

/-- The outcome of one step. -/
abbrev Result := Host.Outcome State Fault Refusal

/-- The state right after reset: the registers as R220 gives them, the configuration at the defaults of R8; the other
fields are DESIGN CHOICE (log entries 3, 4, 6, 8, 13, 14, 16): nothing listed in memory, no command presented, the
collaborators answering, `rst` released. -/
def State.reset : State where
  st := .idle
  lvl := 0
  opReg := false
  mapReg := false
  vpnReg := 0
  curFrame := 0
  ppnReg := 0
  newFrame := 0
  rspStatus := .ok
  rspHit := false
  rspPpn := 0
  mem := []
  allocSupply := []
  plat := Config.defaultPlatform
  cmdPort := []
  rspReady := true
  rst := false
  memAnswers := true
  allocAnswers := true
  resetFates := []
  draws := 0
  trace := []

end Sys2Proof.Machine
end

