-- ==== Sys2Proof/Machine/Operands.lean ====
section
/-! DEFINITION. The combinational sub-blocks: vpn_decoder (R110, R111), pte_encoder_decoder (R113, R114), the walker
step (R117), the frame_multiplexer's selection, address and write-data paths (R52, R119 to R121), and the caller's
virtual address (R80). Every value is unsigned (R9): fields are bit extractions, concatenations and zero extensions, and
no definition of the model does signed arithmetic or extends a sign. -/
namespace Sys2Proof.Machine

/-- `idx(v, i)` of R110: bits `44 - 9i : 36 - 9i` of the VPN. -/
def idx (v : Vpn) (i : Level) : Idx := v.extractLsb' (36 - 9 * i.toNat) 9

/-- `in_range(cmd_vpn)` of R111: bits 63:45 are 0. -/
def inRange (vpn : Word) : Bool := vpn.extractLsb' 45 19 == 0

/-- The 45 bits latched into `vpn_reg` (R91). -/
def vpnOf (vpn : Word) : Vpn := vpn.extractLsb' 0 45

/-- `pte_enc(valid, frame)` of R113: frame at 63:12, reserved bits 0, valid at 0. -/
def pteEnc (valid : Bool) (frame : Frame) : Word := frame ++ (0#11) ++ BitVec.ofBool valid

/-- `pte_dec(w)` of R114: bit 0 and bits 63:12; bits 11:1 are not examined (D14). -/
def pteDec (w : Word) : Bool × Frame := (w.getLsbD 0, w.extractLsb' 12 52)

/-- `walk_step(w, is_leaf)` of R117. -/
def walkStep (w : Word) (isLeaf : Bool) : EntryView :=
  match pteDec w with
  | (false, _) => .absent
  | (true, f) => if isLeaf then .mapped f else .child f

/-- The frame of an entry that is present, and nothing of one that is absent (R116). -/
def EntryView.frame? : EntryView → Option Frame
  | .absent => none
  | .child f => some f
  | .mapped f => some f

/-- The slot address `PA(f, i)` of R52: the frame at bit 12, the index at bit 3. -/
def slotPA (f : Frame) (i : Idx) : Word := f ++ i ++ (0#3)

/-- The address of every memory request: `PA(cur_frame, idx(vpn_reg, lvl))` (R120). -/
def slotAddr (s : State) : Word := slotPA s.curFrame (idx s.vpnReg s.lvl)

/-- The next value of `cur_frame` (R119). -/
def frameMux (sel : FrameSelect) (s : State) : Frame :=
  match sel with
  | .cmdRoot f => f
  | .child f => f
  | .newFrame => s.newFrame
  | .hold => s.curFrame

/-- The write-data multiplexer of R121: the link, the leaf of `MAP`, the cleared leaf of `UNMAP`, 0 where nothing is
written. -/
def writeData (s : State) : Word :=
  match s.st with
  | .walkLink => pteEnc true s.newFrame
  | .leafWr => if s.mapReg then pteEnc true s.ppnReg else pteEnc false 0
  | .idle | .walkRd | .walkAlloc | .leafRd | .resp | .code7 => 0

/-- `ROOT_CHECK` applied to a root (R8, R192). -/
def rootAccepts (rc : RootCheck) (root : Frame) : Bool :=
  match rc with
  | .acceptAll => true
  | .onlyFrames fs => fs.contains root

/-- The VPN of a virtual address, `VA[56:12]` (R80); the caller forms it, the block takes none (D26). -/
def vaVpn (va : Word) : Vpn := va.extractLsb' 12 45

/-- The in-page offset of a virtual address, `VA[11:0]` (R80). -/
def vaOffset (va : Word) : BitVec 12 := va.extractLsb' 0 12

/-- The canonical form of R80, which the caller owes and the block does not check: bits 63:57 repeat bit 56. -/
def vaCanonical (va : Word) : Bool := va.extractLsb' 57 7 == (if va.getLsbD 56 then 0x7F else 0)

end Sys2Proof.Machine
end

