-- ==== Sys2Proof/Machine/Flags.lean ====
section
/-! DEFINITION. The flags `rsp_status` and `rsp_hit` with `rsp_ppn` (R27, R30), the codes of R21 and R90, and the output
signals that follow from the registers (R84, R88, R220). -/
namespace Sys2Proof.Machine

/-- The status codes of R90. -/
def statusCode : Status → BitVec 2
  | .ok => 0
  | .outOfRangeAddress => 1
  | .allocatorExhausted => 2
  | .invalidRoot => 3

/-- The control-state codes of R21. -/
def fsmCode : FsmState → BitVec 3
  | .idle => 0
  | .walkRd => 1
  | .walkAlloc => 2
  | .walkLink => 3
  | .leafRd => 4
  | .leafWr => 5
  | .resp => 6
  | .code7 => 7

/-- `respond(status, hit, ppn)` of R27: the one writer of the flags; it enters `RESP`. -/
def respond (status : Status) (hit : Bool) (ppn : Frame) (s : State) : State :=
  { s with rspStatus := status, rspHit := hit, rspPpn := ppn, st := .resp }

/-- `cmd_ready` (R84). -/
def cmdReady (s : State) : Bool := s.st == .idle

/-- `rsp_valid` (R88). -/
def rspValid (s : State) : Bool := s.st == .resp

/-- The packed response bundle (R88): status at 1:0, hit at 2, PPN at 54:3. -/
def rspBundle (s : State) : RspBundle := s.rspPpn ++ BitVec.ofBool s.rspHit ++ statusCode s.rspStatus

end Sys2Proof.Machine
end

