-- ==== Sys2Proof/Machine/Ops.lean ====
section
/-! DEFINITION. The operations every command shares: page-table memory as bytes and as words, the memory and allocator
transactions (R54, R55, R60), descending the walk (R119), the errors (R196) and the return from them (R123, R198),
accept (R122), reset (R220 to R222), the guards on control codes (R22, R230), and which command the next step runs. -/
namespace Sys2Proof.Machine

/-! Memory as bytes -/

/-- What a byte that nothing has written reads as. DESIGN CHOICE, log entry 4. -/
def Memory.unlisted : Byte := 0

/-- The byte at an address. -/
def Memory.read : Memory → Nat → Byte
  | [], _ => Memory.unlisted
  | (k, v) :: rest, a => if k = a then v else Memory.read rest a

/-- A byte written, in canonical form: rising addresses, no listed byte equal to an unlisted one. -/
def Memory.write : Memory → Nat → Byte → Memory
  | [], a, v => if v = Memory.unlisted then [] else [(a, v)]
  | (k, w) :: rest, a, v =>
    if a < k then (if v = Memory.unlisted then (k, w) :: rest else (a, v) :: (k, w) :: rest)
    else if a = k then (if v = Memory.unlisted then rest else (a, v) :: rest)
    else (k, w) :: Memory.write rest a v

/-- Every address listed is at least `low` and rising, lies in the 64-bit space, and no byte is the unlisted one. -/
def Memory.wfFrom : Nat → Memory → Bool
  | _, [] => true
  | low, (k, v) :: rest =>
    decide (low ≤ k) && decide (k < 2 ^ 64) && decide (v ≠ Memory.unlisted) && Memory.wfFrom (k + 1) rest

/-- The canonical form of memory. -/
def Memory.wf (m : Memory) : Bool := Memory.wfFrom 0 m

/-! Memory as words (R58) -/

/-- The address of the byte that holds bits `8k+7 : 8k` of the word at `pa` (R58). -/
def laneAddr (o : ByteOrder) (pa k : Nat) : Nat :=
  match o with
  | .little => pa + k
  | .big => pa + (7 - k)

/-- The word at `pa`: its eight bytes, the most significant first. -/
def readWord (o : ByteOrder) (m : Memory) (pa : Nat) : Word :=
  m.read (laneAddr o pa 7) ++ m.read (laneAddr o pa 6) ++ m.read (laneAddr o pa 5) ++ m.read (laneAddr o pa 4) ++
  m.read (laneAddr o pa 3) ++ m.read (laneAddr o pa 2) ++ m.read (laneAddr o pa 1) ++ m.read (laneAddr o pa 0)

/-- Byte `k` of a word: bits `8k+7 : 8k`. -/
def wordByte (w : Word) (k : Nat) : Byte := w.extractLsb' (8 * k) 8

/-- The lanes `ks` of the word `w` written at `pa`. -/
def writeLanes (o : ByteOrder) (pa : Nat) (w : Word) : List Nat → Memory → Memory
  | [], m => m
  | k :: ks, m => writeLanes o pa w ks (m.write (laneAddr o pa k) (wordByte w k))

/-- All 64 bits of the word written at `pa` (R55). -/
def writeWord (o : ByteOrder) (m : Memory) (pa : Nat) (w : Word) : Memory :=
  writeLanes o pa w [0, 1, 2, 3, 4, 5, 6, 7] m

/-- `M(f, i)` of R50: the entry `i` of frame `f` of a memory. -/
def entryOf (o : ByteOrder) (m : Memory) (f : Frame) (i : Idx) : Word := readWord o m (slotPA f i).toNat

/-- `M(f, i)` of R50 in the memory of a state. -/
def entryAt (s : State) (f : Frame) (i : Idx) : Word := entryOf s.plat.byteOrder s.mem f i

/-! Transactions -/

/-- An event added to the observation (R13). -/
def logEvent (e : PortEvent) (s : State) : State := { s with trace := e :: s.trace }

/-- `MemRead(pa, 8)` of R54: the word as the completed writes left it; no side effect (R59). -/
def memRead (pa : Word) (s : State) : Except Fault (Word × State) :=
  if pa.toNat % 8 ≠ 0 then .error .misalignedAccess
  else if s.memAnswers then
    let w := readWord s.plat.byteOrder s.mem pa.toNat
    .ok (w, logEvent (.memRead pa (some w)) s)
  else .error .memoryNeverAnswers

/-- `MemWrite(pa, 8, v)` of R55. -/
def memWrite (pa v : Word) (s : State) : Except Fault State :=
  if pa.toNat % 8 ≠ 0 then .error .misalignedAccess
  else if s.memAnswers then
    .ok (logEvent (.memWrite pa v true) { s with mem := writeWord s.plat.byteOrder s.mem pa.toNat v })
  else .error .memoryNeverAnswers

/-- The allocator's next answer: the scripted one, or a free value (R60). Log entry 6. -/
def nextAnswer (s : State) : AllocAnswer × State :=
  match s.allocSupply with
  | a :: rest => (a, { s with allocSupply := rest })
  | [] => (Config.allocOracle s.draws, { s with draws := s.draws + 1 })

/-- `Alloc()` of R60: one request, one answer. -/
def alloc (s : State) : Except Fault (AllocAnswer × State) :=
  if s.allocAnswers then
    .ok ((nextAnswer s).1, logEvent (.alloc (some (nextAnswer s).1)) (nextAnswer s).2)
  else .error .allocatorNeverAnswers

/-! Errors and the return from them -/

/-- `raise E` of R196: `respond(E, 0, 0)` and nothing else; the one way an error is taken. -/
def raiseError (e : Status) (s : State) : State := respond e false 0 s

/-- The response step of R123, which is also the only return from an error (R198). While `rsp_ready` is 0 the response
is held (R225). -/
def deliver (s : State) : State :=
  if s.rspReady then
    { logEvent (.response s.rspStatus s.rspHit s.rspPpn) s with st := .idle }
  else s

/-! Accept and descend -/

/-- The registers that accept latches before its checks (R122). -/
def latch (c : Command) (s : State) : State :=
  { s with
    opReg := c.op
    mapReg := c.ppnPresent
    vpnReg := vpnOf c.vpn
    curFrame := frameMux (.cmdRoot c.root) s
    ppnReg := c.ppn
    lvl := 0 }

/-- Accept (R122): latch, then the range check, then the root check, in the order of R195. -/
def accept (c : Command) (s : State) : State :=
  if !inRange c.vpn then raiseError .outOfRangeAddress (latch c s)
  else if !rootAccepts s.plat.rootCheck c.root then raiseError .invalidRoot (latch c s)
  else { latch c s with st := .walkRd }

/-- One level down: `cur_frame` from the multiplexer, and `lvl` to the next level; from level 3 to the leaf state
(R141, R161, R163, R168). -/
def descend (sel : FrameSelect) (leaf : FsmState) (s : State) : State :=
  { s with
    curFrame := frameMux sel s
    lvl := if s.lvl = 3 then 4 else s.lvl + 1
    st := if s.lvl = 3 then leaf else .walkRd }

/-! Guards on the control codes -/

/-- The codes that R230 says must be a fault with no step: `st = 7`, `lvl` in 5..7. -/
def codeFault (s : State) : Option Fault :=
  if s.st = .code7 ∨ 4 < s.lvl.toNat then some .unreachableCode else none

/-- The level lies in the range that R22 gives the control state. -/
def levelFits (s : State) : Bool :=
  match s.st with
  | .walkRd | .walkAlloc | .walkLink => s.lvl.toNat ≤ 3
  | .leafRd | .leafWr => s.lvl == 4
  | .idle | .resp => true
  | .code7 => false

/-- The step `next` where the control codes allow one (R230, R22). Log entry 10. -/
def guarded (s : State) (next : Result) : Result :=
  match codeFault s with
  | some f => .fault f
  | none => if levelFits s then next else .fault .levelOutOfState

/-! Reset (R220 to R222) -/

/-- The request the block presents in its control state (R21, R51, R60); none in `IDLE` and `RESP`. -/
def portRequest (s : State) : Option PortRequest :=
  if levelFits s then
    match s.st with
    | .walkRd | .leafRd => some (.read (slotAddr s))
    | .walkLink | .leafWr => some (.write (slotAddr s) (writeData s))
    | .walkAlloc => some .alloc
    | .idle | .resp | .code7 => none
  else none

/-- `mem_req_valid` (R51, R220). -/
def memReqValid (s : State) : Bool :=
  match portRequest s with
  | some (.read _) | some (.write _ _) => true
  | some .alloc | none => false

/-- `alloc_req_valid` (R60, R220). -/
def allocReqValid (s : State) : Bool :=
  match portRequest s with
  | some .alloc => true
  | some (.read _) | some (.write _ _) | none => false

/-- `mem_req_we` of a presented memory request (R51). -/
def PortRequest.we : PortRequest → Bool
  | .write _ _ => true
  | .read _ | .alloc => false

/-- `mem_req_wdata` of a presented memory request: 0 on a read (R51, R121). -/
def PortRequest.wdata : PortRequest → Word
  | .write _ d => d
  | .read _ | .alloc => 0

/-- The registers at their reset values (R220); nothing outside the block changes (R221). -/
def resetRegs (s : State) : State :=
  { s with
    st := .idle
    lvl := 0
    opReg := false
    mapReg := false
    vpnReg := 0
    curFrame := 0
    ppnReg := 0
    newFrame := 0
    rspStatus := .ok
    rspHit := false
    rspPpn := 0 }

/-- The fate of the request a reset abandons: the scripted one, or a free value (R222). Log entry 8. -/
def nextFate (s : State) : RequestFate × State :=
  match s.resetFates with
  | r :: rest => (r, { s with resetFates := rest })
  | [] => (Config.requestFate s.draws, { s with draws := s.draws + 1 })

/-- What an abandoned request leaves behind (R222): a write is performed or not, a frame is allocated and never linked
or not. -/
def abandon (r : PortRequest) (fate : RequestFate) (s : State) : State :=
  match fate, r with
  | .notIssued, _ => s
  | .unperformed, .read a => logEvent (.memRead a none) s
  | .performed, .read a => logEvent (.memRead a none) s
  | .unperformed, .write a d => logEvent (.memWrite a d false) s
  | .performed, .write a d =>
    logEvent (.memWrite a d false) { s with mem := writeWord s.plat.byteOrder s.mem a.toNat d }
  | .unperformed, .alloc => logEvent (.alloc none) s
  | .performed, .alloc => logEvent (.alloc none) (nextAnswer s).2

/-- A command presented while `cmd_ready` is 1 is transferred (R84): it leaves the port. -/
def takeCommand (s : State) : State := if cmdReady s then { s with cmdPort := s.cmdPort.tail } else s

/-- One step with `rst` at 1: the command in flight, or the one transferred in this step (R84), is abandoned without a
response (R222), the registers take their reset values (R220). Log entry 18. -/
def resetStep (s : State) : State :=
  match portRequest s with
  | none => resetRegs (takeCommand s)
  | some r => resetRegs (abandon r (nextFate s).1 (nextFate s).2)

/-! Which command the next step runs -/

/-- The command in flight, read off the registers (R124, and the conditions of R141, R142, R161 to R164, R168, R169).
Its operands are those the registers still hold; no rule reads a command's operands after accept. Log entry 11. -/
def inFlight (s : State) : Instr :=
  let query := Instr.query s.mapReg s.curFrame (s.vpnReg.setWidth 64) s.ppnReg
  let map := Instr.map s.curFrame (s.vpnReg.setWidth 64) s.ppnReg
  let unmap := Instr.unmap s.curFrame (s.vpnReg.setWidth 64) s.ppnReg
  match s.st with
  | .leafRd => query
  | .walkAlloc | .walkLink => map
  | .leafWr => if s.mapReg then map else unmap
  | .walkRd | .resp | .idle | .code7 => if !s.opReg then query else if s.mapReg then map else unmap

/-- The command the next step runs and the state it runs in: in `IDLE` the bundle presented, which leaves the port
(R122); else the command in flight. None in `IDLE` with no command presented. -/
def fetch (s : State) : Option (Instr × State) :=
  match s.st with
  | .idle =>
    match s.cmdPort with
    | [] => none
    | b :: rest => some (decode b, { s with cmdPort := rest })
  | .walkRd | .walkAlloc | .walkLink | .leafRd | .leafWr | .resp | .code7 => some (inFlight s, s)

end Sys2Proof.Machine
end

