-- ==== Sys2Proof/Machine/Query.lean ====
section
/-! DEFINITION. page_table_query_fsm: the meaning of `QUERY` (R140), one FSM step at a time (R231). -/
namespace Sys2Proof.Machine

/-- `QUERY` in `WALK_RD` (R141). -/
def queryWalkRd (s : State) : Result :=
  match memRead (slotAddr s) s with
  | .error f => .fault f
  | .ok (w, t) =>
    match (walkStep w false).frame? with
    | none => .next (respond .ok false 0 t)
    | some f => .next (descend (.child f) .leafRd t)

/-- `QUERY` in `LEAF_RD` (R142). -/
def queryLeafRd (s : State) : Result :=
  match memRead (slotAddr s) s with
  | .error f => .fault f
  | .ok (w, t) =>
    match (walkStep w true).frame? with
    | none => .next (respond .ok false 0 t)
    | some p => .next (respond .ok true p t)

/-- `QUERY root, vpn` (R140): accept in `IDLE`, then its own FSM steps, then the response. -/
def execQuery (ppnPresent : Bool) (root : Frame) (vpn : Word) (ppn : Frame) (s : State) : Result :=
  guarded s <|
    match s.st with
    | .idle => .next (accept (Instr.query ppnPresent root vpn ppn).command s)
    | .walkRd => if s.opReg then .refused .notInFlight else queryWalkRd s
    | .leafRd => queryLeafRd s
    | .resp => .next (deliver s)
    | .walkAlloc | .walkLink | .leafWr | .code7 => .refused .notInFlight

end Sys2Proof.Machine
end

