-- ==== Sys2Proof/Machine/Update.lean ====
section
/-! DEFINITION. page_table_update_fsm: the meanings of `MAP` (R160) and `UNMAP` (R167), one FSM step at a time (R231). -/
namespace Sys2Proof.Machine

/-- `MAP` in `WALK_RD` (R161). -/
def mapWalkRd (s : State) : Result :=
  match memRead (slotAddr s) s with
  | .error f => .fault f
  | .ok (w, t) =>
    match (walkStep w false).frame? with
    | none => .next { t with st := .walkAlloc }
    | some f => .next (descend (.child f) .leafWr t)

/-- `MAP` in `WALK_ALLOC` (R162). -/
def mapWalkAlloc (s : State) : Result :=
  match alloc s with
  | .error f => .fault f
  | .ok (.ok f, t) => .next { t with newFrame := f, st := .walkLink }
  | .ok (.exhausted, t) => .next (raiseError .allocatorExhausted t)

/-- `MAP` in `WALK_LINK` (R163). -/
def mapWalkLink (s : State) : Result :=
  match memWrite (slotAddr s) (writeData s) s with
  | .error f => .fault f
  | .ok t => .next (descend .newFrame .leafWr t)

/-- `MAP` in `LEAF_WR` (R164); the old leaf is not read (R165). -/
def mapLeafWr (s : State) : Result :=
  match memWrite (slotAddr s) (writeData s) s with
  | .error f => .fault f
  | .ok t => .next (respond .ok false 0 t)

/-- `MAP root, vpn, ppn` (R160): accept in `IDLE`, then its own FSM steps, then the response. -/
def execMap (root : Frame) (vpn : Word) (ppn : Frame) (s : State) : Result :=
  guarded s <|
    match s.st with
    | .idle => .next (accept (Instr.map root vpn ppn).command s)
    | .walkRd => if s.opReg && s.mapReg then mapWalkRd s else .refused .notInFlight
    | .walkAlloc => mapWalkAlloc s
    | .walkLink => mapWalkLink s
    | .leafWr => if s.mapReg then mapLeafWr s else .refused .notInFlight
    | .resp => .next (deliver s)
    | .leafRd | .code7 => .refused .notInFlight

/-- `UNMAP` in `WALK_RD` (R168). -/
def unmapWalkRd (s : State) : Result :=
  match memRead (slotAddr s) s with
  | .error f => .fault f
  | .ok (w, t) =>
    match (walkStep w false).frame? with
    | none => .next (respond .ok false 0 t)
    | some f => .next (descend (.child f) .leafWr t)

/-- `UNMAP` in `LEAF_WR` (R169): the entry becomes the word 0. -/
def unmapLeafWr (s : State) : Result :=
  match memWrite (slotAddr s) (writeData s) s with
  | .error f => .fault f
  | .ok t => .next (respond .ok false 0 t)

/-- `UNMAP root, vpn` (R167): accept in `IDLE`, then its own FSM steps, then the response. -/
def execUnmap (root : Frame) (vpn : Word) (ppn : Frame) (s : State) : Result :=
  guarded s <|
    match s.st with
    | .idle => .next (accept (Instr.unmap root vpn ppn).command s)
    | .walkRd => if s.opReg && !s.mapReg then unmapWalkRd s else .refused .notInFlight
    | .leafWr => if s.mapReg then .refused .notInFlight else unmapLeafWr s
    | .resp => .next (deliver s)
    | .walkAlloc | .walkLink | .leafRd | .code7 => .refused .notInFlight

end Sys2Proof.Machine
end

