-- ==== Sys2Proof/Machine/Dispatch.lean ====
section
/-! DEFINITION. `exec`: one step of a command (R231), one arm per constructor of `Instr`. -/
namespace Sys2Proof.Machine

def exec (i : Instr) (s : State) : Host.Outcome State Fault Refusal :=
  match i with
  | .query ppnPresent root vpn ppn => Sys2Proof.Machine.execQuery ppnPresent root vpn ppn s
  | .unmap root vpn ppn => Sys2Proof.Machine.execUnmap root vpn ppn s
  | .map root vpn ppn => Sys2Proof.Machine.execMap root vpn ppn s

end Sys2Proof.Machine
end

