-- ==== Sys2Proof/Machine/Step.lean ====
section
/-! DEFINITION. One step of the machine (R231): a fault on the codes of R230, the reset step while `rst` is 1 (R220),
else one step of the command presented or in flight; with neither, the block waits (R206). -/
namespace Sys2Proof.Machine

/-- One step. -/
def step (s : State) : Host.Outcome State Fault Refusal :=
  match codeFault s with
  | some f => .fault f
  | none =>
    if s.rst then .next (resetStep s)
    else
      match fetch s with
      | none => .next s
      | some (i, t) => exec i t

/-- `s` with the bits `w` (every bit above `nbits` 0) presented as the next command, so that the next step accepts it:
the block idle at a legal level, `rst` released. Log entries 2 and 20. -/
def State.withFetchWord (s : State) (nbits w : Nat) : State :=
  { s with
    st := .idle
    lvl := if s.lvl.toNat ≤ 4 then s.lvl else 0
    rst := false
    cmdPort := BitVec.ofNat 170 (tableWord nbits w) :: s.cmdPort }

end Sys2Proof.Machine
end

