-- ==== Sys2Proof/Machine/Observe.lean ====
section
/-! DEFINITION. The observation of rule R13: the three sequences of a run, read off the trace, oldest first, and their
counts (R144, R171). -/
namespace Sys2Proof.Machine

/-- A response event (R13). -/
def PortEvent.response? : PortEvent → Option (Status × Bool × Frame)
  | .response st h p => some (st, h, p)
  | .memRead _ _ | .memWrite _ _ _ | .alloc _ => none

/-- A memory request event: address, and the data of a write (R13). -/
def PortEvent.memRequest? : PortEvent → Option (Word × Option Word)
  | .memRead a _ => some (a, none)
  | .memWrite a d _ => some (a, some d)
  | .alloc _ | .response _ _ _ => none

/-- An event is a read request. -/
def PortEvent.isRead : PortEvent → Bool
  | .memRead _ _ => true
  | .memWrite _ _ _ | .alloc _ | .response _ _ _ => false

/-- An event is a write request. -/
def PortEvent.isWrite : PortEvent → Bool
  | .memWrite _ _ _ => true
  | .memRead _ _ | .alloc _ | .response _ _ _ => false

/-- An event is an allocator request. -/
def PortEvent.isAlloc : PortEvent → Bool
  | .alloc _ => true
  | .memRead _ _ | .memWrite _ _ _ | .response _ _ _ => false

/-- The responses returned (R13). -/
def responses (s : State) : List (Status × Bool × Frame) := s.trace.reverse.filterMap PortEvent.response?

/-- The memory requests issued, with address and data (R13). -/
def memRequests (s : State) : List (Word × Option Word) := s.trace.reverse.filterMap PortEvent.memRequest?

/-- The number of reads issued (R144, R171). -/
def readCount (s : State) : Nat := s.trace.countP PortEvent.isRead

/-- The number of writes issued (R171). -/
def writeCount (s : State) : Nat := s.trace.countP PortEvent.isWrite

/-- The number of allocator requests issued (R13, R171). -/
def allocCount (s : State) : Nat := s.trace.countP PortEvent.isAlloc

end Sys2Proof.Machine
end

