-- ==== Sys2Proof/Machine/Translate.lean ====
section
/-! DEFINITION. The mapping that the page table in a memory holds (R70), and the nodes on a VPN's path (R12). -/
namespace Sys2Proof.Machine

/-- The four intermediate levels, from the root (R12, R70). -/
def intermediate : List Level := [0, 1, 2, 3]

/-- The frame a valid entry of the memory gives: `(v, f) := pte_dec(M(f, i))`, nothing where `v = 0` (R70, R116). -/
def entryFrame (o : ByteOrder) (m : Memory) (f : Frame) (i : Idx) : Option Frame :=
  match pteDec (entryOf o m f i) with
  | (false, _) => none
  | (true, g) => some g

/-- The frame reached from `cur` through the entries at the VPN's indices of the levels given, while they are valid. -/
def walkFrom (o : ByteOrder) (m : Memory) (vpn : Vpn) : List Level → Frame → Option Frame
  | [], cur => some cur
  | i :: is, cur =>
    match entryFrame o m cur (idx vpn i) with
    | none => none
    | some f => walkFrom o m vpn is f

/-- The level-`n` node on the VPN's path (R12); `n = 0` is the root. -/
def nodeOn (o : ByteOrder) (m : Memory) (root : Frame) (vpn : Vpn) (n : Nat) : Option Frame :=
  walkFrom o m vpn (intermediate.take n) root

/-- `Translate(M, root, vpn)` of R70; `none` is `NO_MAPPING`. -/
def translate (o : ByteOrder) (m : Memory) (root : Frame) (vpn : Vpn) : Option Frame :=
  match walkFrom o m vpn intermediate root with
  | none => none
  | some leaf => entryFrame o m leaf (idx vpn 4)

/-- `Translate` over the memory of a state. -/
def translateIn (s : State) (root : Frame) (vpn : Vpn) : Option Frame := translate s.plat.byteOrder s.mem root vpn

end Sys2Proof.Machine
end

