-- ==== Sys2Proof/Safety.lean ====
section
/-! DEFINITION. What claims are stated in: the invariant of the registers and of memory (R22, R27, R33), running a
command to its response (R232), and the premises the spec's properties carry (R61, R65, R174). -/
namespace Sys2Proof.Machine

/-! The entry a step touches -/

/-- The entry `idx[lvl]` of node `cur_frame`: what a read in the current control state returns (R54, R120). -/
def slotEntry (s : State) : Word := entryAt s s.curFrame (idx s.vpnReg s.lvl)

/-! The invariant -/

/-- The relations of R33 between the control state and the registers that select the command. -/
def registersFit (s : State) : Bool :=
  match s.st with
  | .idle | .resp | .walkRd => true
  | .walkAlloc | .walkLink => s.opReg && s.mapReg
  | .leafRd => !s.opReg
  | .leafWr => s.opReg
  | .code7 => false

/-- The contents R27 allows the response registers, and in `RESP` the responses R89 allows the command. -/
def responseFits (s : State) : Bool :=
  (!s.rspHit || s.rspStatus == .ok) && (s.rspHit || s.rspPpn == 0) &&
  (!(s.st == .resp) ||
    ((!s.rspHit || !s.opReg) && (!(s.rspStatus == .allocatorExhausted) || (s.opReg && s.mapReg))))

/-- What every run keeps: reachable control codes (R230), a level in its range (R22), registers in relation (R33),
legal response registers (R27, R89), and memory in canonical form. -/
structure Inv (s : State) : Prop where
  codes : codeFault s = none
  level : levelFits s = true
  registers : registersFit s = true
  response : responseFits s = true
  memory : Memory.wf s.mem = true

/-! Running a command -/

/-- Steps until the block is in `RESP`, at most `n` of them. -/
def runToResponse : Nat → State → Result
  | 0, s => .next s
  | n + 1, s =>
    if s.st = .resp then .next s
    else
      match step s with
      | .next t => runToResponse n t
      | .fault f => .fault f
      | .refused r => .refused r

/-- The command `i` is presented to the idle block, and the collaborators answer (the fairness assumption of R232,
`rst` released). -/
structure Presents (i : Instr) (rest : List Bundle) (s : State) : Prop where
  idle : s.st = .idle
  level : s.lvl.toNat ≤ 4
  port : s.cmdPort = encode i :: rest
  released : s.rst = false
  memory : s.memAnswers = true
  allocator : s.allocAnswers = true

/-- The command passes both accept checks (R122). -/
structure Accepted (root : Frame) (vpn : Word) (s : State) : Prop where
  range : inRange vpn = true
  root : rootAccepts s.plat.rootCheck root = true

/-- The number of leading valid intermediate entries from `cur` over the levels given. -/
def leadingValid (o : ByteOrder) (m : Memory) (vpn : Vpn) : List Level → Frame → Nat
  | [], _ => 0
  | i :: is, cur =>
    match entryFrame o m cur (idx vpn i) with
    | none => 0
    | some f => 1 + leadingValid o m vpn is f

/-- `k` of R144: the number of leading valid intermediate entries on the VPN's path, 0 to 4. -/
def pathDepth (s : State) (root : Frame) (vpn : Vpn) : Nat :=
  leadingValid s.plat.byteOrder s.mem vpn intermediate root

/-! Premises -/

/-- The node reached from `cur` through the valid entries at the indices given. -/
def followPath (o : ByteOrder) (m : Memory) : List Idx → Frame → Option Frame
  | [], cur => some cur
  | i :: is, cur =>
    match entryFrame o m cur i with
    | none => none
    | some f => followPath o m is f

/-- `f` is a node of the table rooted at `root`: reached through valid intermediate entries (R12). -/
def IsNode (s : State) (root f : Frame) : Prop :=
  ∃ path : List Idx, path.length ≤ 4 ∧ followPath s.plat.byteOrder s.mem path root = some f

/-- The tree premise of R174: each node is reached by exactly one path, and none returns to the root. -/
def TreePremise (s : State) (root : Frame) : Prop :=
  ∀ (p q : List Idx) (f : Frame), p.length ≤ 4 → q.length ≤ 4 →
    followPath s.plat.byteOrder s.mem p root = some f →
    followPath s.plat.byteOrder s.mem q root = some f → p = q

/-- Every entry of the frame is 0 (R61). -/
def ZeroFrame (s : State) (f : Frame) : Prop := ∀ i : Idx, entryAt s f i = 0

/-- The `k`-th coming answer of the allocator: scripted, then the free values. -/
def answerAt (s : State) (k : Nat) : AllocAnswer :=
  match s.allocSupply[k]? with
  | some a => a
  | none => Config.allocOracle (s.draws + (k - s.allocSupply.length))

/-- The premises of R61 on the next `n` answers: each frame is zero-filled, no node of the table, and not one of the
earlier answers. -/
def AllocPremise (s : State) (root : Frame) (n : Nat) : Prop :=
  ∀ k < n, ∀ f, answerAt s k = .ok f →
    ZeroFrame s f ∧ ¬ IsNode s root f ∧ ∀ j < k, answerAt s j ≠ .ok f

end Sys2Proof.Machine
end

