-- ==== Sys2Proof/Certificates/Slice0/Obligations.lean ====
section
/-! DEFINITION. The statements for the provers, from the spec's numbered rules: encoding, the combinational sub-blocks,
memory, reset, the machine's step, each command's steps, the frames, and whole commands. -/

open Sys2Proof Sys2Proof.Machine

/-! Encoding -/

/-- R95: the worked encodings of the source's scenario commands decode to those commands, written as the packed bundles
(fields at the places of R84; the first as R95 packs it, the others as `ppn << 118 | vpn << 54 | root << 2 | ctl`). -/
def Obligations.WorkedEncodingsDecode : Prop :=
  decode ((0x20#170 <<< 118) ||| (0xC#170 <<< 54) ||| (0xA#170 <<< 2) ||| 0b11#170) = .map 0xA 0xC 0x20 ∧
  decode ((0xC#170 <<< 54) ||| (0xA#170 <<< 2)) = .query false 0xA 0xC 0 ∧
  decode ((0xD#170 <<< 54) ||| (0xA#170 <<< 2)) = .query false 0xA 0xD 0 ∧
  decode ((0xC#170 <<< 54) ||| (0xA#170 <<< 2) ||| 0b01#170) = .unmap 0xA 0xC 0

/-- R84, R86: no bit of a command is lost by packing it into the 170-bit bundle. -/
def Obligations.DecodeOfEncodeIsTheCommand : Prop :=
  ∀ i : Instr, decode (encode i) = i

/-- R86, R93: every bundle is the bundle of exactly the command it decodes to. -/
def Obligations.EncodeOfDecodeIsTheBundle : Prop :=
  ∀ b : Bundle, encode (decode b) = b

/-- R86: the two control bits select the command, and every pattern selects exactly one; the operands stand at the places
of R84. -/
def Obligations.ControlBitsSelectTheCommand : Prop :=
  ∀ b : Bundle,
    (b.getLsbD 0 = false →
      decode b = .query (b.getLsbD 1) (b.extractLsb' 2 52) (b.extractLsb' 54 64) (b.extractLsb' 118 52)) ∧
    (b.getLsbD 0 = true → b.getLsbD 1 = false →
      decode b = .unmap (b.extractLsb' 2 52) (b.extractLsb' 54 64) (b.extractLsb' 118 52)) ∧
    (b.getLsbD 0 = true → b.getLsbD 1 = true →
      decode b = .map (b.extractLsb' 2 52) (b.extractLsb' 54 64) (b.extractLsb' 118 52))

/-! Combinational sub-blocks -/

/-- R110: the level indices: the shift-and-mask formula, the corner cases, the example, and that changing one bit of the
VPN changes exactly one index. -/
def Obligations.LevelIndexFormula : Prop :=
  (∀ (v : Vpn) (i : Level), i.toNat ≤ 4 →
    idx v i = ((v >>> (36 - 9 * i.toNat)) &&& 0x1FF).setWidth 9 ∧
    idx v i = v.extractLsb' (36 - 9 * i.toNat) 9) ∧
  (∀ i : Level, i.toNat ≤ 4 → idx 0 i = 0 ∧ idx (BitVec.allOnes 45) i = 511) ∧
  [idx 0x200 0, idx 0x200 1, idx 0x200 2, idx 0x200 3, idx 0x200 4] = [0, 0, 0, 1, 0] ∧
  (∀ (v : Vpn) (j : Nat), j < 45 →
    ∃ i : Level, i.toNat ≤ 4 ∧ idx (v ^^^ (1#45 <<< j)) i ≠ idx v i ∧
      ∀ k : Level, k.toNat ≤ 4 → k ≠ i → idx (v ^^^ (1#45 <<< j)) k = idx v k)

/-- R111, R9: the range check is exactly `vpn < 2^45`; and every operand is the unsigned number of its bits, no sign
extended: the latched VPN, the level indices, an entry's frame, an entry's word, the slot address. -/
def Obligations.RangeCheckIsBelowTwoPow45 : Prop :=
  (∀ vpn : Word, inRange vpn = true ↔ vpn.toNat < 2 ^ 45) ∧
  (∀ vpn : Word, (vpnOf vpn).toNat = vpn.toNat % 2 ^ 45) ∧
  (∀ (v : Vpn) (i : Level), i.toNat ≤ 4 → (idx v i).toNat = v.toNat / 2 ^ (36 - 9 * i.toNat) % 512) ∧
  (∀ w : Word, (pteDec w).2.toNat = w.toNat / 4096) ∧
  (∀ (v : Bool) (f : Frame), (pteEnc v f).toNat = f.toNat * 4096 + v.toNat) ∧
  (∀ (f : Frame) (i : Idx), (slotPA f i).toNat = f.toNat * 4096 + i.toNat * 8)

/-- R115: the laws of the entry encoder and decoder. -/
def Obligations.PteCodecLaws : Prop :=
  (∀ (v : Bool) (f : Frame), pteDec (pteEnc v f) = (v, f)) ∧
  (∀ w : Word, pteEnc (pteDec w).1 (pteDec w).2 = w ↔ w.extractLsb' 1 11 = 0)

/-- R53: the slot address is aligned, lies in its frame, is injective and never wraps. -/
def Obligations.SlotAddressProperties : Prop :=
  (∀ (f : Frame) (i : Idx), (slotPA f i).toNat % 8 = 0 ∧
    f.toNat * 4096 ≤ (slotPA f i).toNat ∧ (slotPA f i).toNat ≤ f.toNat * 4096 + 4088) ∧
  (∀ (f g : Frame) (i j : Idx), slotPA f i = slotPA g j → f = g ∧ i = j) ∧
  slotPA (BitVec.allOnes 52) 511 = 0xFFFFFFFFFFFFFFF8 ∧
  (∀ (f : Frame) (i : Idx), (slotPA f i).toNat ≤ 0xFFFFFFFFFFFFFFF8)

/-- R117: the walker step: an entry whose bit 0 is 0 is absent; a valid one is a child above the leaf and the mapped
PPN at the leaf, frame 0 included. -/
def Obligations.WalkerStepClassifiesEntries : Prop :=
  (∀ (w : Word) (leaf : Bool), walkStep w leaf =
    if w.getLsbD 0 = false then .absent
    else if leaf = false then .child (w.extractLsb' 12 52) else .mapped (w.extractLsb' 12 52)) ∧
  walkStep 0x1 true = .mapped 0 ∧ walkStep 0xE001 false = .child 14

/-- R8, log entry 7: the data `RootCheck` can say every predicate on frames, so a statement over all states is a
statement over all `ROOT_CHECK`. -/
def Obligations.RootCheckDataSaysEveryPredicate : Prop :=
  ∀ p : Frame → Bool, ∃ rc : RootCheck, ∀ f : Frame, rootAccepts rc f = p f

/-- R88, R90: the packed response bundle holds the status code at 1:0, the hit at 2 and the PPN at 54:3. -/
def Obligations.ResponseBundlePacksTheRegisters : Prop :=
  (∀ s : State, (rspBundle s).extractLsb' 0 2 = statusCode s.rspStatus ∧ (rspBundle s).getLsbD 2 = s.rspHit ∧
    (rspBundle s).extractLsb' 3 52 = s.rspPpn) ∧
  statusCode .ok = 0 ∧ statusCode .outOfRangeAddress = 1 ∧ statusCode .allocatorExhausted = 2 ∧
  statusCode .invalidRoot = 3

/-! Memory and its transactions -/

/-- R55: a write completes, issues the request with its address and data, writes all 64 bits of its slot and changes no
other slot. -/
def Obligations.WriteChangesOneSlot : Prop :=
  ∀ (s : State) (f : Frame) (i : Idx) (v : Word), Memory.wf s.mem = true → s.memAnswers = true →
    ∃ t : State, memWrite (slotPA f i) v s = .ok t ∧
      t = { s with mem := t.mem, trace := .memWrite (slotPA f i) v true :: s.trace } ∧
      entryAt t f i = v ∧
      (∀ (g : Frame) (j : Idx), (g, j) ≠ (f, i) → entryAt t g j = entryAt s g j) ∧
      Memory.wf t.mem = true

/-- R54, R59: a read issues the request, returns the slot's word and changes nothing; after a write to the slot it returns
the word written. -/
def Obligations.ReadReturnsTheLatestWrite : Prop :=
  ∀ (s : State) (f : Frame) (i : Idx) (v : Word), Memory.wf s.mem = true → s.memAnswers = true →
    memRead (slotPA f i) s =
      .ok (entryAt s f i, { s with trace := .memRead (slotPA f i) (some (entryAt s f i)) :: s.trace }) ∧
    ∀ t : State, memWrite (slotPA f i) v s = .ok t → ∃ u : State, memRead (slotPA f i) t = .ok (v, u)

/-! Reset -/

/-- R220: the registers after reset and in every step with `rst` at 1, and the outputs that follow. -/
def Obligations.ResetLeavesTheRegistersOfTheSpec : Prop :=
  let atReset (t : State) : Prop :=
    t.st = .idle ∧ t.lvl = 0 ∧ t.opReg = false ∧ t.mapReg = false ∧ t.vpnReg = 0 ∧ t.curFrame = 0 ∧ t.ppnReg = 0 ∧
    t.newFrame = 0 ∧ t.rspStatus = .ok ∧ t.rspHit = false ∧ t.rspPpn = 0 ∧
    cmdReady t = true ∧ rspValid t = false ∧ memReqValid t = false ∧ allocReqValid t = false
  atReset State.reset ∧
  ∀ s : State, codeFault s = none → s.rst = true → ∃ t : State, step s = .next t ∧ atReset t

/-- R221, R222: a reset gives no response and leaves memory as it was, but for a write in flight, which is performed or
not as the draw says; the static configuration stays. The model's choices: that the draw is a scripted list (log
entry 8, DESIGN CHOICE), and what becomes of a command presented while `rst` is 1 (log entry 18, DEDUCED from R84 and R220):
in `IDLE`, where `cmd_ready` is 1, it is transferred, and otherwise it is held. -/
def Obligations.ResetTouchesMemoryOnlyByTheWriteInFlight : Prop :=
  ∀ s : State, codeFault s = none → s.rst = true → ∃ t : State, step s = .next t ∧
    t.plat = s.plat ∧ t.cmdPort = (if s.st = .idle then s.cmdPort.tail else s.cmdPort) ∧ responses t = responses s ∧
    (t.mem = s.mem ∨
      ((s.st = .walkLink ∨ s.st = .leafWr) ∧
        t.mem = writeWord s.plat.byteOrder s.mem (slotAddr s).toNat (writeData s))) ∧
    (∀ fates, s.resetFates = .unperformed :: fates → t.mem = s.mem) ∧
    (∀ fates, s.resetFates = .performed :: fates → levelFits s = true → s.st = .walkLink ∨ s.st = .leafWr →
      t.mem = writeWord s.plat.byteOrder s.mem (slotAddr s).toNat (writeData s)) ∧
    (s.st ≠ .walkAlloc → t.allocSupply = s.allocSupply)

/-! The machine's step -/

/-- The invariant holds at reset. -/
def Obligations.InvariantHoldsAtReset : Prop := Inv State.reset

/-- R22, R27, R33, R89, R230: every step keeps the invariant: the control codes stay in use, the level stays in its range,
the command registers stay in relation, the response registers stay legal, and memory keeps its canonical form. -/
def Obligations.StepKeepsTheInvariant : Prop :=
  ∀ s t : State, Inv s → step s = .next t → Inv t

/-- R162, R172: in `WALK_ALLOC` and `WALK_LINK` the entry to be linked is absent, and every step keeps that. -/
def Obligations.StepKeepsTheLinkedEntryAbsent : Prop :=
  ∀ s t : State,
    (s.st = .walkAlloc ∨ s.st = .walkLink → (slotEntry s).getLsbD 0 = false) → step s = .next t →
    (t.st = .walkAlloc ∨ t.st = .walkLink → (slotEntry t).getLsbD 0 = false)

/-- R207: from a state of the invariant the machine stops only where memory or the allocator never answers a request the
block presents. That the stuck block is one of the two named faults is the model's choice (log entry 13, DESIGN CHOICE);
R207 says stuck, not faulted. -/
def Obligations.OnlyAnUnansweredRequestStopsTheBlock : Prop :=
  ∀ s : State, Inv s →
    (∃ t : State, step s = .next t) ∨
    (step s = .fault .memoryNeverAnswers ∧ s.rst = false ∧ s.memAnswers = false ∧ memReqValid s = true) ∨
    (step s = .fault .allocatorNeverAnswers ∧ s.rst = false ∧ s.allocAnswers = false ∧ allocReqValid s = true)

/-- R207: a request that memory or the allocator never answers leaves the block without a step. That the stuck block is
one of two named faults is the model's choice (log entry 13, DESIGN CHOICE); R207 says stuck, not faulted. -/
def Obligations.UnansweredRequestLeavesTheBlockStuck : Prop :=
  ∀ s : State, codeFault s = none → s.rst = false →
    (memReqValid s = true → s.memAnswers = false → step s = .fault .memoryNeverAnswers) ∧
    (allocReqValid s = true → s.allocAnswers = false → step s = .fault .allocatorNeverAnswers)

/-- No step of the machine is refused: the command the step runs is always the one in flight (log entry 12). -/
def Obligations.StepIsNeverRefused : Prop :=
  ∀ (s : State) (r : Refusal), step s ≠ .refused r

/-- R230: a state with `st = 7` or `lvl` in 5..7 has no step, and no command a next state there; the invariant rules such
states out. -/
def Obligations.UnusedCodesHaveNoStep : Prop :=
  (∀ s : State, s.st = .code7 ∨ s.lvl = 5 ∨ s.lvl = 6 ∨ s.lvl = 7 →
    step s = .fault .unreachableCode ∧ ∀ i : Instr, exec i s = .fault .unreachableCode) ∧
  (∀ s : State, Inv s → ¬ (s.st = .code7 ∨ s.lvl = 5 ∨ s.lvl = 6 ∨ s.lvl = 7))

/-- The model's choice (log entry 10), on R22: in a control state whose level is outside its range no command has a next
state. -/
def Obligations.LevelOutsideItsRangeStops : Prop :=
  ∀ (i : Instr) (s : State), s.lvl.toNat ≤ 4 →
    (s.st = .walkRd ∨ s.st = .walkAlloc ∨ s.st = .walkLink → s.lvl = 4 → exec i s = .fault .levelOutOfState) ∧
    (s.st = .leafRd ∨ s.st = .leafWr → s.lvl ≠ 4 → exec i s = .fault .levelOutOfState)

/-- The model's choice (log entry 12), on R124 and R225: a command that is not the one in flight does not step. -/
def Obligations.CommandNotInFlightIsRefused : Prop :=
  ∀ (s : State) (p : Bool) (r : Frame) (v : Word) (q : Frame), codeFault s = none → levelFits s = true →
    (s.st = .walkRd →
      (s.opReg = true → exec (.query p r v q) s = .refused .notInFlight) ∧
      (¬ (s.opReg = true ∧ s.mapReg = true) → exec (.map r v q) s = .refused .notInFlight) ∧
      (¬ (s.opReg = true ∧ s.mapReg = false) → exec (.unmap r v q) s = .refused .notInFlight)) ∧
    (s.st = .walkAlloc ∨ s.st = .walkLink →
      exec (.query p r v q) s = .refused .notInFlight ∧ exec (.unmap r v q) s = .refused .notInFlight) ∧
    (s.st = .leafRd →
      exec (.map r v q) s = .refused .notInFlight ∧ exec (.unmap r v q) s = .refused .notInFlight) ∧
    (s.st = .leafWr →
      exec (.query p r v q) s = .refused .notInFlight ∧
      (s.mapReg = false → exec (.map r v q) s = .refused .notInFlight) ∧
      (s.mapReg = true → exec (.unmap r v q) s = .refused .notInFlight))

/-- R231, R124: a step runs the command it decodes: in `IDLE` the bundle presented, which leaves the port; otherwise the
command in flight (its operands as log entry 11, DEDUCED, names them); with nothing presented the block waits. The last
clause is the model's own and no rule's: a word placed by `withFetchWord`, which stands for the load of a program (log
entry 2, DEDUCED), is the next command run, its bits numbered as log entry 20 (DESIGN CHOICE) says. -/
def Obligations.StepRunsTheDecodedCommand : Prop :=
  (∀ s : State, codeFault s = none → s.rst = false →
    (∀ b rest, s.st = .idle → s.cmdPort = b :: rest → step s = exec (decode b) { s with cmdPort := rest }) ∧
    (s.st ≠ .idle → step s = exec (inFlight s) s) ∧
    (s.st = .idle → s.cmdPort = [] → step s = .next s)) ∧
  (∀ (s : State) (nbits w : Nat),
    step (s.withFetchWord nbits w) =
      exec (decode (BitVec.ofNat 170 (tableWord nbits w))) { s.withFetchWord nbits w with cmdPort := s.cmdPort })

/-- R124: the command registers choose which transition rules apply in `WALK_RD`; the other states name their command.
The operands in these equations (`cur_frame`, the 45-bit VPN widened, `ppn_reg`, and `map_reg` as a `QUERY`'s `ppn_present`)
are the model's choice and no rule's (log entry 11, DEDUCED): after accept no rule reads a command's operands. -/
def Obligations.CommandRegistersChooseTheFsm : Prop :=
  ∀ s : State, s.st ≠ .idle →
    let query := Instr.query s.mapReg s.curFrame (s.vpnReg.setWidth 64) s.ppnReg
    let map := Instr.map s.curFrame (s.vpnReg.setWidth 64) s.ppnReg
    let unmap := Instr.unmap s.curFrame (s.vpnReg.setWidth 64) s.ppnReg
    (s.st = .walkRd → s.opReg = false → inFlight s = query) ∧
    (s.st = .walkRd → s.opReg = true → s.mapReg = true → inFlight s = map) ∧
    (s.st = .walkRd → s.opReg = true → s.mapReg = false → inFlight s = unmap) ∧
    (s.st = .leafRd → inFlight s = query) ∧
    (s.st = .walkAlloc ∨ s.st = .walkLink → inFlight s = map) ∧
    (s.st = .leafWr → s.mapReg = true → inFlight s = map) ∧
    (s.st = .leafWr → s.mapReg = false → inFlight s = unmap)

/-- R225: the block holds one command at a time: it is ready only in `IDLE`, a command presented meanwhile is held, and
`RESP` is left only when the caller takes the response. -/
def Obligations.OneCommandAtATime : Prop :=
  ∀ s : State,
    (cmdReady s = true ↔ s.st = .idle) ∧
    (∀ t : State, s.rst = false → s.st ≠ .idle → step s = .next t → t.cmdPort = s.cmdPort) ∧
    (∀ t : State, s.rst = false → s.st = .resp → step s = .next t →
      (s.rspReady = true ∧ t.st = .idle ∧ t.trace = .response s.rspStatus s.rspHit s.rspPpn :: s.trace) ∨
      (s.rspReady = false ∧ t = s))

/-- R112, R24: the command registers, and so every level index, hold from accept until the next accept or reset. -/
def Obligations.CommandRegistersHoldDuringACommand : Prop :=
  ∀ s t : State, s.rst = false → s.st ≠ .idle → step s = .next t →
    t.opReg = s.opReg ∧ t.mapReg = s.mapReg ∧ t.vpnReg = s.vpnReg ∧ t.ppnReg = s.ppnReg ∧
    ∀ i : Level, idx t.vpnReg i = idx s.vpnReg i

/-- R31: no step changes the static configuration. That none drives `rsp_ready` and `rst` rests on their being inputs
(R88, R220) and on the model's holding them, and whether memory and the allocator answer, as pins in State (log entries
8, 13 and 14, DESIGN CHOICE). -/
def Obligations.ConfigurationAndPinsAreNeverChanged : Prop :=
  ∀ s t : State, step s = .next t →
    t.plat = s.plat ∧ t.rst = s.rst ∧ t.rspReady = s.rspReady ∧ t.memAnswers = s.memAnswers ∧
    t.allocAnswers = s.allocAnswers

/-- R120, R64, R57: a step issues at most one transaction, and every memory request is at the aligned address
`PA(cur_frame, idx(vpn_reg, lvl))`. -/
def Obligations.EveryMemoryRequestIsAtTheSlotAddress : Prop :=
  ∀ s t : State, step s = .next t →
    t.trace = s.trace ∨
    ∃ e : PortEvent, t.trace = e :: s.trace ∧
      ∀ a d, e.memRequest? = some (a, d) → a = slotPA s.curFrame (idx s.vpnReg s.lvl) ∧ a.toNat % 8 = 0

/-- R172: the entries change only so: absent to valid by `MAP`, at the linked entry with the new frame or at the leaf with
the caller's PPN; valid to valid by `MAP` at a leaf; valid to absent by `UNMAP` at a leaf. The premises are the
invariants stated above, and no reset in the step. -/
def Obligations.EntriesChangeOnlyByTheirCommands : Prop :=
  ∀ (s t : State) (f : Frame) (i : Idx), Inv s →
    (s.st = .walkAlloc ∨ s.st = .walkLink → (slotEntry s).getLsbD 0 = false) →
    s.rst = false → step s = .next t → entryAt t f i ≠ entryAt s f i →
    (f, i) = (s.curFrame, idx s.vpnReg s.lvl) ∧
    ((s.st = .walkLink ∧ s.opReg = true ∧ s.mapReg = true ∧ s.lvl.toNat ≤ 3 ∧
        (entryAt s f i).getLsbD 0 = false ∧ entryAt t f i = pteEnc true s.newFrame) ∨
     (s.st = .leafWr ∧ s.opReg = true ∧ s.mapReg = true ∧ s.lvl = 4 ∧ entryAt t f i = pteEnc true s.ppnReg) ∨
     (s.st = .leafWr ∧ s.opReg = true ∧ s.mapReg = false ∧ s.lvl = 4 ∧ entryAt t f i = 0))

/-! Accept and response, every command -/

/-- R122: accept latches the command's fields, then the range check, then the root check; the step consumes the command. -/
def Obligations.AcceptLatchesAndChecks : Prop :=
  ∀ (i : Instr) (s : State), s.st = .idle → s.lvl.toNat ≤ 4 →
    let c := i.command
    let t : State := { s with
      opReg := c.op, mapReg := c.ppnPresent, vpnReg := c.vpn.extractLsb' 0 45, curFrame := c.root, ppnReg := c.ppn,
      lvl := 0 }
    let result : State :=
      if c.vpn.extractLsb' 45 19 ≠ 0 then
        { t with rspStatus := .outOfRangeAddress, rspHit := false, rspPpn := 0, st := .resp }
      else if rootAccepts s.plat.rootCheck c.root = false then
        { t with rspStatus := .invalidRoot, rspHit := false, rspPpn := 0, st := .resp }
      else { t with st := .walkRd }
    exec i s = .next result ∧
    (s.rst = false → ∀ rest, s.cmdPort = encode i :: rest → step s = .next { result with cmdPort := rest })

/-- R191, R192, R195: for every command, an out-of-range VPN is `OUT_OF_RANGE_ADDRESS` whatever the root, a root the check
rejects is `INVALID_ROOT`, neither issues any request or changes memory, and with the default check no root is rejected. -/
def Obligations.RejectedCommandsHaveNoEffect : Prop :=
  ∀ (i : Instr) (s : State), s.st = .idle → s.lvl.toNat ≤ 4 →
    (2 ^ 45 ≤ i.command.vpn.toNat ∨ rootAccepts s.plat.rootCheck i.command.root = false →
      ∃ t : State, exec i s = .next t ∧ t.st = .resp ∧ t.rspHit = false ∧ t.rspPpn = 0 ∧
        t.rspStatus = (if 2 ^ 45 ≤ i.command.vpn.toNat then .outOfRangeAddress else .invalidRoot) ∧
        t.mem = s.mem ∧ t.allocSupply = s.allocSupply ∧ t.draws = s.draws ∧ t.trace = s.trace) ∧
    (s.plat.rootCheck = .acceptAll → i.command.vpn.toNat < 2 ^ 45 → ∃ t : State, exec i s = .next t ∧ t.st = .walkRd)

/-- R123: the response step delivers the response registers and returns to `IDLE`; no other register changes. -/
def Obligations.ResponseStepDeliversAndReturnsToIdle : Prop :=
  ∀ (i : Instr) (s : State), s.st = .resp → s.lvl.toNat ≤ 4 → s.rspReady = true →
    exec i s = .next { s with st := .idle, trace := .response s.rspStatus s.rspHit s.rspPpn :: s.trace }

/-! QUERY -/

/-- R141: `QUERY` in `WALK_RD`. -/
def Obligations.QueryReadsAnIntermediateEntry : Prop :=
  ∀ (p : Bool) (r : Frame) (v : Word) (q : Frame) (s : State),
    s.st = .walkRd → s.opReg = false → s.lvl.toNat ≤ 3 → s.memAnswers = true →
    let w := entryAt s s.curFrame (idx s.vpnReg s.lvl)
    let t : State := { s with trace := .memRead (slotPA s.curFrame (idx s.vpnReg s.lvl)) (some w) :: s.trace }
    exec (.query p r v q) s = .next (
      if w.getLsbD 0 = false then { t with rspStatus := .ok, rspHit := false, rspPpn := 0, st := .resp }
      else if s.lvl = 3 then { t with curFrame := w.extractLsb' 12 52, lvl := 4, st := .leafRd }
      else { t with curFrame := w.extractLsb' 12 52, lvl := s.lvl + 1 })

/-- R142: `QUERY` in `LEAF_RD`, where it completes. -/
def Obligations.QueryReadsTheLeafAndResponds : Prop :=
  ∀ (p : Bool) (r : Frame) (v : Word) (q : Frame) (s : State),
    s.st = .leafRd → s.lvl = 4 → s.memAnswers = true →
    let w := entryAt s s.curFrame (idx s.vpnReg 4)
    let t : State := { s with trace := .memRead (slotPA s.curFrame (idx s.vpnReg 4)) (some w) :: s.trace }
    exec (.query p r v q) s = .next (
      if w.getLsbD 0 = false then { t with rspStatus := .ok, rspHit := false, rspPpn := 0, st := .resp }
      else { t with rspStatus := .ok, rspHit := true, rspPpn := w.extractLsb' 12 52, st := .resp })

/-- R143: `QUERY` never writes memory and never requests a frame; what else one of its steps leaves alone. -/
def Obligations.QueryOnlyReads : Prop :=
  ∀ (p : Bool) (r : Frame) (v : Word) (q : Frame) (s t : State), exec (.query p r v q) s = .next t →
    (∀ a : Nat, t.mem.read a = s.mem.read a) ∧ t.mem = s.mem ∧
    t.allocSupply = s.allocSupply ∧ t.draws = s.draws ∧ t.newFrame = s.newFrame ∧
    (t.trace = s.trace ∨ ∃ e : PortEvent, t.trace = e :: s.trace ∧ e.isWrite = false ∧ e.isAlloc = false) ∧
    t.plat = s.plat ∧ t.cmdPort = s.cmdPort ∧ t.rspReady = s.rspReady ∧ t.rst = s.rst ∧
    t.memAnswers = s.memAnswers ∧ t.allocAnswers = s.allocAnswers ∧ t.resetFates = s.resetFates ∧
    (s.st ≠ .idle → t.opReg = s.opReg ∧ t.mapReg = s.mapReg ∧ t.vpnReg = s.vpnReg ∧ t.ppnReg = s.ppnReg) ∧
    (s.st ≠ .idle → s.st ≠ .walkRd → t.curFrame = s.curFrame ∧ t.lvl = s.lvl) ∧
    (t.st ≠ .resp ∨ s.st = .resp → t.rspStatus = s.rspStatus ∧ t.rspHit = s.rspHit ∧ t.rspPpn = s.rspPpn)

/-! MAP -/

/-- R161: `MAP` in `WALK_RD`. -/
def Obligations.MapReadsAnIntermediateEntry : Prop :=
  ∀ (r : Frame) (v : Word) (q : Frame) (s : State),
    s.st = .walkRd → s.opReg = true → s.mapReg = true → s.lvl.toNat ≤ 3 → s.memAnswers = true →
    let w := entryAt s s.curFrame (idx s.vpnReg s.lvl)
    let t : State := { s with trace := .memRead (slotPA s.curFrame (idx s.vpnReg s.lvl)) (some w) :: s.trace }
    exec (.map r v q) s = .next (
      if w.getLsbD 0 = false then { t with st := .walkAlloc }
      else if s.lvl = 3 then { t with curFrame := w.extractLsb' 12 52, lvl := 4, st := .leafWr }
      else { t with curFrame := w.extractLsb' 12 52, lvl := s.lvl + 1 })

/-- R162: `MAP` in `WALK_ALLOC`: an answer `Ok F` latches the frame, `Exhausted` ends the command with nothing written; the
answer is the next one the allocator gives, and only the allocator's own data moves besides. -/
def Obligations.MapAsksTheAllocator : Prop :=
  ∀ (r : Frame) (v : Word) (q : Frame) (s : State), s.st = .walkAlloc → s.lvl.toNat ≤ 3 → s.allocAnswers = true →
    ∃ supply draws,
      let t : State := { s with
        allocSupply := supply, draws := draws, trace := .alloc (some (answerAt s 0)) :: s.trace }
      exec (.map r v q) s = .next (
        match answerAt s 0 with
        | .ok f => { t with newFrame := f, st := .walkLink }
        | .exhausted => { t with rspStatus := .allocatorExhausted, rspHit := false, rspPpn := 0, st := .resp }) ∧
      (∀ k, answerAt t k = answerAt s (k + 1))

/-- R163: `MAP` in `WALK_LINK`: the new frame is linked at the absent entry and the walk goes on into it. -/
def Obligations.MapLinksTheNewFrame : Prop :=
  ∀ (r : Frame) (v : Word) (q : Frame) (s : State), s.st = .walkLink → s.lvl.toNat ≤ 3 → s.memAnswers = true →
    let pa := slotPA s.curFrame (idx s.vpnReg s.lvl)
    let t : State := { s with
      mem := writeWord s.plat.byteOrder s.mem pa.toNat (pteEnc true s.newFrame),
      trace := .memWrite pa (pteEnc true s.newFrame) true :: s.trace,
      curFrame := s.newFrame }
    exec (.map r v q) s = .next (
      if s.lvl = 3 then { t with lvl := 4, st := .leafWr } else { t with lvl := s.lvl + 1, st := .walkRd })

/-- R164: `MAP` in `LEAF_WR`, where it completes: the leaf is written whatever it held. -/
def Obligations.MapWritesTheLeafAndResponds : Prop :=
  ∀ (r : Frame) (v : Word) (q : Frame) (s : State),
    s.st = .leafWr → s.mapReg = true → s.lvl = 4 → s.memAnswers = true →
    let pa := slotPA s.curFrame (idx s.vpnReg 4)
    exec (.map r v q) s = .next { s with
      mem := writeWord s.plat.byteOrder s.mem pa.toNat (pteEnc true s.ppnReg),
      trace := .memWrite pa (pteEnc true s.ppnReg) true :: s.trace,
      rspStatus := .ok, rspHit := false, rspPpn := 0, st := .resp }

/-- What a step of `MAP` leaves alone: every byte but the eight of the slot it writes, in `WALK_LINK` and `LEAF_WR`; the
allocator's data and `new_frame` but in `WALK_ALLOC`; the command registers but at accept. -/
def Obligations.MapFrame : Prop :=
  ∀ (r : Frame) (v : Word) (q : Frame) (s t : State), exec (.map r v q) s = .next t →
    (∀ a : Nat,
      ((s.st = .walkLink ∨ s.st = .leafWr) → a < (slotAddr s).toNat ∨ (slotAddr s).toNat + 8 ≤ a) →
      t.mem.read a = s.mem.read a) ∧
    (s.st ≠ .walkAlloc → t.newFrame = s.newFrame ∧ t.allocSupply = s.allocSupply ∧ t.draws = s.draws) ∧
    t.plat = s.plat ∧ t.cmdPort = s.cmdPort ∧ t.rspReady = s.rspReady ∧ t.rst = s.rst ∧
    t.memAnswers = s.memAnswers ∧ t.allocAnswers = s.allocAnswers ∧ t.resetFates = s.resetFates ∧
    (s.st ≠ .idle → t.opReg = s.opReg ∧ t.mapReg = s.mapReg ∧ t.vpnReg = s.vpnReg ∧ t.ppnReg = s.ppnReg) ∧
    (s.st ≠ .idle → s.st ≠ .walkRd → s.st ≠ .walkLink → t.curFrame = s.curFrame ∧ t.lvl = s.lvl) ∧
    (t.st ≠ .resp ∨ s.st = .resp → t.rspStatus = s.rspStatus ∧ t.rspHit = s.rspHit ∧ t.rspPpn = s.rspPpn)

/-! UNMAP -/

/-- R168: `UNMAP` in `WALK_RD`. -/
def Obligations.UnmapReadsAnIntermediateEntry : Prop :=
  ∀ (r : Frame) (v : Word) (q : Frame) (s : State),
    s.st = .walkRd → s.opReg = true → s.mapReg = false → s.lvl.toNat ≤ 3 → s.memAnswers = true →
    let w := entryAt s s.curFrame (idx s.vpnReg s.lvl)
    let t : State := { s with trace := .memRead (slotPA s.curFrame (idx s.vpnReg s.lvl)) (some w) :: s.trace }
    exec (.unmap r v q) s = .next (
      if w.getLsbD 0 = false then { t with rspStatus := .ok, rspHit := false, rspPpn := 0, st := .resp }
      else if s.lvl = 3 then { t with curFrame := w.extractLsb' 12 52, lvl := 4, st := .leafWr }
      else { t with curFrame := w.extractLsb' 12 52, lvl := s.lvl + 1 })

/-- R169: `UNMAP` in `LEAF_WR`, where it completes: the leaf becomes the word 0. -/
def Obligations.UnmapClearsTheLeafAndResponds : Prop :=
  ∀ (r : Frame) (v : Word) (q : Frame) (s : State),
    s.st = .leafWr → s.mapReg = false → s.lvl = 4 → s.memAnswers = true →
    let pa := slotPA s.curFrame (idx s.vpnReg 4)
    exec (.unmap r v q) s = .next { s with
      mem := writeWord s.plat.byteOrder s.mem pa.toNat 0,
      trace := .memWrite pa 0 true :: s.trace,
      rspStatus := .ok, rspHit := false, rspPpn := 0, st := .resp }

/-- R170, and what else a step of `UNMAP` leaves alone: it never requests a frame, writes only in `LEAF_WR` and there only
the eight bytes of the leaf entry, at level 4. -/
def Obligations.UnmapNeverAllocatesAndWritesOnlyTheLeaf : Prop :=
  ∀ (r : Frame) (v : Word) (q : Frame) (s t : State), exec (.unmap r v q) s = .next t →
    (s.st ≠ .leafWr → t.mem = s.mem) ∧
    (s.st = .leafWr → s.lvl = 4) ∧
    (∀ a : Nat,
      (s.st = .leafWr → a < (slotPA s.curFrame (idx s.vpnReg 4)).toNat ∨
        (slotPA s.curFrame (idx s.vpnReg 4)).toNat + 8 ≤ a) →
      t.mem.read a = s.mem.read a) ∧
    t.allocSupply = s.allocSupply ∧ t.draws = s.draws ∧ t.newFrame = s.newFrame ∧
    (t.trace = s.trace ∨ ∃ e : PortEvent, t.trace = e :: s.trace ∧ e.isAlloc = false) ∧
    t.plat = s.plat ∧ t.cmdPort = s.cmdPort ∧ t.rspReady = s.rspReady ∧ t.rst = s.rst ∧
    t.memAnswers = s.memAnswers ∧ t.allocAnswers = s.allocAnswers ∧ t.resetFates = s.resetFates ∧
    (s.st ≠ .idle → t.opReg = s.opReg ∧ t.mapReg = s.mapReg ∧ t.vpnReg = s.vpnReg ∧ t.ppnReg = s.ppnReg) ∧
    (s.st ≠ .idle → s.st ≠ .walkRd → t.curFrame = s.curFrame ∧ t.lvl = s.lvl) ∧
    (t.st ≠ .resp ∨ s.st = .resp → t.rspStatus = s.rspStatus ∧ t.rspHit = s.rspHit ∧ t.rspPpn = s.rspPpn) ∧
    (t.st = .resp → s.st ≠ .resp → t.rspStatus ≠ .allocatorExhausted)

/-! What a command may not see -/

/-- R116: the frame field (and the reserved bits) of an absent entry are never used: two states that differ only in memory,
with the entry to be read absent in both, step alike but for that memory and the word observed at the port. -/
def Obligations.AbsentEntryFrameIsNeverUsed : Prop :=
  ∀ (i : Instr) (s t : State) (m : Memory), (s.st = .walkRd ∨ s.st = .leafRd) →
    (slotEntry s).getLsbD 0 = false → (slotEntry { s with mem := m }).getLsbD 0 = false →
    exec i s = .next t →
    exec i { s with mem := m } = .next { t with
      mem := m, trace := .memRead (slotAddr s) (some (slotEntry { s with mem := m })) :: s.trace }

/-- R87: the fields a command ignores change nothing of its run but the registers that latch them: `ppn_present` and `ppn`
of a `QUERY`, `ppn` of an `UNMAP`. That holds while `rst` is 1 too, where the command is transferred and abandoned, which is
the model's reading (log entry 18, DEDUCED). -/
def Obligations.IgnoredFieldsDoNotChangeTheRun : Prop :=
  ∀ (i j : Instr) (rest : List Bundle) (s t : State) (n : Nat),
    ((∃ p p' r v q q', i = .query p r v q ∧ j = .query p' r v q') ∨
     (∃ r v q q', i = .unmap r v q ∧ j = .unmap r v q')) →
    s.st = .idle → s.cmdPort = encode i :: rest → runToResponse (n + 1) s = .next t →
    ∃ mapReg ppnReg,
      runToResponse (n + 1) { s with cmdPort := encode j :: rest } =
        .next { t with mapReg := mapReg, ppnReg := ppnReg }

/-! Whole commands -/

/-- R33: during the walk of a command accepted without an error, `cur_frame` is the node of the command's path at level
`lvl`: the root at level 0, and below it the frame of the valid entry read or written one level above. First the walk
through the entries valid at accept, with its states; then every state before the response, over the memory of that state,
so that the frames a `MAP` has linked are on the path too. -/
def Obligations.WalkStaysOnThePath : Prop :=
  ∀ (i : Instr) (rest : List Bundle) (s : State), Presents i rest s → Accepted i.command.root i.command.vpn s →
    (∀ k ≤ pathDepth s i.command.root (vpnOf i.command.vpn),
      ∃ t : State, runToResponse (k + 1) s = .next t ∧ t.lvl.toNat = k ∧
        nodeOn s.plat.byteOrder s.mem i.command.root (vpnOf i.command.vpn) k = some t.curFrame ∧
        t.mem = s.mem ∧ (k < 4 → t.st = .walkRd) ∧ (k = 4 → t.st = .leafRd ∨ t.st = .leafWr)) ∧
    (Memory.wf s.mem = true → ∀ (n : Nat) (t : State), runToResponse (n + 1) s = .next t → t.st ≠ .resp →
      t.vpnReg = vpnOf i.command.vpn ∧ t.lvl.toNat ≤ 4 ∧
      nodeOn t.plat.byteOrder t.mem i.command.root (vpnOf i.command.vpn) t.lvl.toNat = some t.curFrame)

/-- R232, R233: every command ends: its response is up within 6 steps for `QUERY` and `UNMAP` and 14 for `MAP`, accept
included, and the next step takes it; the command has left the port. -/
def Obligations.CommandsEndWithinTheirStepBounds : Prop :=
  ∀ (i : Instr) (rest : List Bundle) (s : State), Presents i rest s →
    ∃ t : State,
      runToResponse (match i with | .query _ _ _ _ => 6 | .unmap _ _ _ => 6 | .map _ _ _ => 14) s = .next t ∧
      t.st = .resp ∧ t.cmdPort = rest ∧
      (s.rspReady = true → ∃ u : State, step t = .next u ∧ u.st = .idle)

/-- R232, with R141, R161, R163 and R168: `lvl` is never lowered within a command. It rises by one at each descent, which
is a step of `WALK_LINK` or a step of `WALK_RD` that reads a valid entry, and every other step leaves it. -/
def Obligations.LevelNeverFallsWithinACommand : Prop :=
  ∀ s t : State, s.rst = false → s.st ≠ .idle → step s = .next t →
    let descends := s.st = .walkLink ∨ (s.st = .walkRd ∧ (slotEntry s).getLsbD 0 = true)
    (descends → t.lvl.toNat = s.lvl.toNat + 1) ∧ (¬ descends → t.lvl = s.lvl)

/-- R89: the only responses each command can give. -/
def Obligations.CommandsGiveOnlyTheirResponses : Prop :=
  ∀ (i : Instr) (rest : List Bundle) (s t : State), Presents i rest s →
    runToResponse 14 s = .next t →
    (t.rspStatus = .outOfRangeAddress ↔ 2 ^ 45 ≤ i.command.vpn.toNat) ∧
    (t.rspStatus = .invalidRoot ↔
      i.command.vpn.toNat < 2 ^ 45 ∧ rootAccepts s.plat.rootCheck i.command.root = false) ∧
    (t.rspStatus = .allocatorExhausted → ∃ r v q, i = .map r v q) ∧
    (t.rspHit = true → t.rspStatus = .ok ∧ ∃ p r v q, i = .query p r v q) ∧
    (t.rspHit = false → t.rspPpn = 0)

/-- R145: a `QUERY` accepted without error responds with the translation that memory at accept holds, and leaves memory as
it was. -/
def Obligations.QueryAnswersTheTranslation : Prop :=
  ∀ (p : Bool) (r : Frame) (v : Word) (q : Frame) (rest : List Bundle) (s : State),
    Presents (.query p r v q) rest s → Accepted r v s →
    ∃ t : State, runToResponse 6 s = .next t ∧ t.st = .resp ∧ t.rspStatus = .ok ∧ t.mem = s.mem ∧
      (∀ f, (t.rspHit = true ∧ t.rspPpn = f) ↔ translateIn s r (vpnOf v) = some f) ∧
      ((t.rspHit = false ∧ t.rspPpn = 0) ↔ translateIn s r (vpnOf v) = none)

/-- R144: the reads of a `QUERY`: with `k` leading valid intermediate entries, `k + 1` reads, a miss if `k < 4`; no write
and no allocation; none of all these if it is rejected. -/
def Obligations.QueryReadCounts : Prop :=
  ∀ (p : Bool) (r : Frame) (v : Word) (q : Frame) (rest : List Bundle) (s t : State),
    Presents (.query p r v q) rest s → runToResponse 6 s = .next t →
    (Accepted r v s →
      pathDepth s r (vpnOf v) ≤ 4 ∧ readCount t = readCount s + pathDepth s r (vpnOf v) + 1 ∧
      (pathDepth s r (vpnOf v) < 4 → t.rspHit = false)) ∧
    (¬ Accepted r v s → readCount t = readCount s) ∧
    writeCount t = writeCount s ∧ allocCount t = allocCount s

/-- R171: the transactions of an update accepted without error. The allocations of a `MAP` lie in the levels below the
leading valid entries: none exactly where the path is complete, and, under the premises of R61, one at each of them. -/
def Obligations.UpdateTransactionCounts : Prop :=
  (∀ (r : Frame) (v : Word) (q : Frame) (rest : List Bundle) (s t : State),
    Presents (.map r v q) rest s → Accepted r v s → runToResponse 14 s = .next t →
    pathDepth s r (vpnOf v) ≤ 4 ∧
    ((t.rspStatus = .ok ∧ ∃ a, a ≤ 4 - pathDepth s r (vpnOf v) ∧ (a = 0 ↔ pathDepth s r (vpnOf v) = 4) ∧
        (AllocPremise s r (4 - pathDepth s r (vpnOf v)) → a = 4 - pathDepth s r (vpnOf v)) ∧
        readCount t = readCount s + 4 ∧ allocCount t = allocCount s + a ∧ writeCount t = writeCount s + a + 1) ∨
     (t.rspStatus = .allocatorExhausted ∧ ∃ j, 1 ≤ j ∧ j ≤ 4 - pathDepth s r (vpnOf v) ∧
        readCount s + pathDepth s r (vpnOf v) + j ≤ readCount t ∧ readCount t ≤ readCount s + 4 ∧
        allocCount t = allocCount s + j ∧ writeCount t + 1 = writeCount s + j))) ∧
  (∀ (r : Frame) (v : Word) (q : Frame) (rest : List Bundle) (s t : State),
    Presents (.unmap r v q) rest s → Accepted r v s → runToResponse 6 s = .next t →
    allocCount t = allocCount s ∧
    (pathDepth s r (vpnOf v) = 4 → readCount t = readCount s + 4 ∧ writeCount t = writeCount s + 1) ∧
    (pathDepth s r (vpnOf v) < 4 →
      readCount t = readCount s + pathDepth s r (vpnOf v) + 1 ∧ writeCount t = writeCount s))

/-- R193, R60: an accepted `MAP` ends with `ALLOCATOR_EXHAUSTED` exactly where the allocator answers `Exhausted` to one of
its requests, which is then its last; else it returns `OK`. -/
def Obligations.MapFailsOnlyWhenTheAllocatorIsExhausted : Prop :=
  ∀ (r : Frame) (v : Word) (q : Frame) (rest : List Bundle) (s : State),
    Presents (.map r v q) rest s → Accepted r v s →
    ∃ (t : State) (a : Nat), runToResponse 14 s = .next t ∧ t.st = .resp ∧ allocCount t = allocCount s + a ∧
      (∀ k, k + 1 < a → answerAt s k ≠ .exhausted) ∧
      (t.rspStatus = .allocatorExhausted ↔ 0 < a ∧ answerAt s (a - 1) = .exhausted) ∧
      (t.rspStatus ≠ .allocatorExhausted → t.rspStatus = .ok)

/-- R174: a zero-filled root frame is a table that meets the tree premise: the base from which the three statements below
keep it. -/
def Obligations.ZeroFilledRootMeetsTheTreePremise : Prop :=
  ∀ (s : State) (r : Frame), ZeroFrame s r → TreePremise s r ∧ ∀ v : Vpn, translateIn s r v = none

/-- R174: a `MAP` that returns `OK` installs its mapping and changes no other, and its table stays a tree: under the tree
premise, and the premises of R61 on the answers it can ask for. -/
def Obligations.MapInstallsItsMappingAndNoOther : Prop :=
  ∀ (r : Frame) (v : Word) (q : Frame) (rest : List Bundle) (s t : State),
    Presents (.map r v q) rest s → Accepted r v s → Memory.wf s.mem = true →
    TreePremise s r → AllocPremise s r (4 - pathDepth s r (vpnOf v)) →
    runToResponse 14 s = .next t → t.rspStatus = .ok →
    translateIn t r (vpnOf v) = some q ∧
    (∀ v2 : Vpn, v2 ≠ vpnOf v → translateIn t r v2 = translateIn s r v2) ∧
    TreePremise t r

/-- R175: an `UNMAP` removes its mapping and changes no other, under the tree premise, which it keeps; it always returns
`OK`. -/
def Obligations.UnmapRemovesItsMappingAndNoOther : Prop :=
  ∀ (r : Frame) (v : Word) (q : Frame) (rest : List Bundle) (s : State),
    Presents (.unmap r v q) rest s → Accepted r v s → Memory.wf s.mem = true → TreePremise s r →
    ∃ t : State, runToResponse 6 s = .next t ∧ t.st = .resp ∧ t.rspStatus = .ok ∧
      translateIn t r (vpnOf v) = none ∧
      (∀ v2 : Vpn, v2 ≠ vpnOf v → translateIn t r v2 = translateIn s r v2) ∧
      TreePremise t r

/-- R176: a `MAP` that ends with `ALLOCATOR_EXHAUSTED` changes no mapping, its own VPN's included, which was and stays
unmapped; the table stays a tree; under the premises of R174. -/
def Obligations.ExhaustedMapChangesNoMapping : Prop :=
  ∀ (r : Frame) (v : Word) (q : Frame) (rest : List Bundle) (s t : State),
    Presents (.map r v q) rest s → Accepted r v s → Memory.wf s.mem = true →
    TreePremise s r → AllocPremise s r (4 - pathDepth s r (vpnOf v)) →
    runToResponse 14 s = .next t → t.rspStatus = .allocatorExhausted →
    translateIn s r (vpnOf v) = none ∧ (∀ v2 : Vpn, translateIn t r v2 = translateIn s r v2) ∧ TreePremise t r

/-- R173: a second `UNMAP` of the same VPN leaves memory with the same contents as the first and returns `OK`; between them
and after, the VPN is unmapped. No premise on the table's shape. -/
def Obligations.UnmapIsIdempotent : Prop :=
  ∀ (r : Frame) (v : Word) (q q' : Frame) (rest rest' : List Bundle) (s t s' : State),
    Presents (.unmap r v q) rest s → Accepted r v s → Memory.wf s.mem = true →
    runToResponse 6 s = .next t →
    Presents (.unmap r v q') rest' s' → s'.mem = t.mem → s'.plat = s.plat →
    translateIn t r (vpnOf v) = none ∧
    ∃ t' : State, runToResponse 6 s' = .next t' ∧ t'.st = .resp ∧ t'.rspStatus = .ok ∧ t'.mem = t.mem
end

