-- ==== Sys2Proof/Laws/Memory.lean ====
section
/-! SUPPORT. The laws of page-table memory: a byte and a word read after a write, what a write leaves alone, the
canonical form, and the slot address as a number. -/
namespace Sys2Proof.Machine

/-! Bytes -/

theorem Memory.read_nil (a : Nat) : Memory.read [] a = Memory.unlisted := rfl

theorem Memory.wfFrom_cons {low k : Nat} {v : Byte} {rest : Memory} :
    Memory.wfFrom low ((k, v) :: rest) = true ↔
      low ≤ k ∧ k < 2 ^ 64 ∧ v ≠ Memory.unlisted ∧ Memory.wfFrom (k + 1) rest = true := by
  simp only [Memory.wfFrom, Bool.and_eq_true, decide_eq_true_eq, and_assoc]

theorem Memory.wfFrom_mono {low low' : Nat} (h : low' ≤ low) :
    ∀ {m : Memory}, Memory.wfFrom low m = true → Memory.wfFrom low' m = true
  | [], _ => rfl
  | (k, v) :: rest, hm => by
    rw [Memory.wfFrom_cons] at hm ⊢
    exact ⟨le_trans h hm.1, hm.2⟩

/-- Below the first listed address every byte is the unlisted one. -/
theorem Memory.read_below {low a : Nat} (h : a < low) :
    ∀ {m : Memory}, Memory.wfFrom low m = true → m.read a = Memory.unlisted
  | [], _ => rfl
  | (k, v) :: rest, hm => by
    rw [Memory.wfFrom_cons] at hm
    have hk : k ≠ a := by omega
    simp only [Memory.read, hk, if_false]
    exact Memory.read_below (low := k + 1) (by omega) hm.2.2.2

/-- A write keeps the canonical form. -/
theorem Memory.wfFrom_write {a : Nat} {v : Byte} (ha : a < 2 ^ 64) :
    ∀ {m : Memory} {low : Nat}, Memory.wfFrom low m = true → low ≤ a → Memory.wfFrom low (m.write a v) = true
  | [], low, _, hl => by
    by_cases hv : v = Memory.unlisted
    · simp [Memory.write, hv, Memory.wfFrom]
    · simpa [Memory.write, hv, Memory.wfFrom_cons, Memory.wfFrom, hl] using ha
  | (k, w) :: rest, low, hm, hl => by
    have hc := Memory.wfFrom_cons.1 hm
    simp only [Memory.write]
    split_ifs with h1 h2 h3 h4
    · exact hm
    · exact Memory.wfFrom_cons.2 ⟨hl, ha, h2, Memory.wfFrom_cons.2 ⟨h1, hc.2⟩⟩
    · exact Memory.wfFrom_mono (by omega) hc.2.2.2
    · exact Memory.wfFrom_cons.2 ⟨hl, ha, h4, Memory.wfFrom_mono (by omega) hc.2.2.2⟩
    · exact Memory.wfFrom_cons.2 ⟨hc.1, hc.2.1, hc.2.2.1,
        Memory.wfFrom_write ha hc.2.2.2 (by omega)⟩

theorem Memory.wf_write {m : Memory} {a : Nat} {v : Byte} (hm : m.wf = true) (ha : a < 2 ^ 64) :
    (m.write a v).wf = true :=
  Memory.wfFrom_write ha hm (Nat.zero_le a)

/-- A byte read after a write to it is the byte written. -/
theorem Memory.read_write_same {a : Nat} {v : Byte} :
    ∀ {m : Memory} {low : Nat}, Memory.wfFrom low m = true → (m.write a v).read a = v
  | [], _, _ => by
    by_cases hv : v = Memory.unlisted <;> simp [Memory.write, Memory.read, hv]
  | (k, w) :: rest, low, hm => by
    have hc := Memory.wfFrom_cons.1 hm
    simp only [Memory.write]
    split_ifs with h1 h2 h3 h4
    · exact h2 ▸ Memory.read_below h1 (Memory.wfFrom_cons.2 ⟨le_refl k, hc.2⟩)
    · simp [Memory.read]
    · exact h4 ▸ Memory.read_below (low := k + 1) (by omega) hc.2.2.2
    · simp [Memory.read]
    · have hk : k ≠ a := fun h => h3 h.symm
      simp only [Memory.read, hk, if_false]
      exact Memory.read_write_same hc.2.2.2

/-- A write leaves every other byte alone. -/
theorem Memory.read_write_other {a b : Nat} {v : Byte} (hab : b ≠ a) :
    ∀ {m : Memory}, (m.write a v).read b = m.read b
  | [] => by
    by_cases hv : v = Memory.unlisted <;> simp [Memory.write, Memory.read, hv, hab.symm]
  | (k, w) :: rest => by
    simp only [Memory.write]
    split_ifs with h1 h2 h3 h4
    · rfl
    · simp [Memory.read, hab.symm]
    · have hk : k ≠ b := fun h => hab (h.symm.trans h3.symm)
      simp [Memory.read, hk]
    · have hk : k ≠ b := fun h => hab (h.symm.trans h3.symm)
      simp [Memory.read, hk, hab.symm]
    · by_cases hk : k = b
      · simp [Memory.read, hk]
      · simp [Memory.read, hk, Memory.read_write_other hab (m := rest)]

/-- Writing what a byte already reads as changes nothing. -/
theorem Memory.write_read_self {a : Nat} :
    ∀ {m : Memory} {low : Nat}, Memory.wfFrom low m = true → m.write a (m.read a) = m
  | [], _, _ => by simp [Memory.write, Memory.read]
  | (k, w) :: rest, low, hm => by
    have hc := Memory.wfFrom_cons.1 hm
    rcases lt_trichotomy a k with h | h | h
    · have hb : Memory.read ((k, w) :: rest) a = Memory.unlisted :=
        Memory.read_below h (Memory.wfFrom_cons.2 ⟨le_refl k, hc.2⟩)
      simp [Memory.write, h, hb]
    · subst h
      simp [Memory.write, Memory.read, hc.2.2.1]
    · have h1 : ¬ a < k := by omega
      have h2 : ¬ a = k := by omega
      have h3 : ¬ k = a := by omega
      simp [Memory.write, Memory.read, h1, h2, h3, Memory.write_read_self hc.2.2.2]

/-! Words -/

theorem laneAddr_bounds {o : ByteOrder} {pa k : Nat} (hk : k < 8) :
    pa ≤ laneAddr o pa k ∧ laneAddr o pa k < pa + 8 := by
  cases o <;> simp only [laneAddr] <;> omega

theorem laneAddr_inj {o : ByteOrder} {pa j k : Nat} (hj : j < 8) (hk : k < 8)
    (h : laneAddr o pa j = laneAddr o pa k) : j = k := by
  cases o <;> simp only [laneAddr] at h <;> omega

/-- A byte outside the lanes written is left alone. -/
theorem read_writeLanes_other {o : ByteOrder} {pa b : Nat} {w : Word} :
    ∀ {ks : List Nat} {m : Memory}, (∀ k ∈ ks, b ≠ laneAddr o pa k) →
      (writeLanes o pa w ks m).read b = m.read b
  | [], _, _ => rfl
  | k :: ks, m, h => by
    simp only [writeLanes]
    rw [read_writeLanes_other (fun j hj => h j (List.mem_cons_of_mem k hj)),
      Memory.read_write_other (h k List.mem_cons_self)]

theorem writeLanes_wf {o : ByteOrder} {pa : Nat} {w : Word} (hpa : pa + 8 ≤ 2 ^ 64) :
    ∀ {ks : List Nat} {m : Memory}, (∀ k ∈ ks, k < 8) → m.wf = true → (writeLanes o pa w ks m).wf = true
  | [], _, _, hm => hm
  | k :: ks, m, hk, hm => by
    have hb := laneAddr_bounds (o := o) (pa := pa) (hk k List.mem_cons_self)
    exact writeLanes_wf (ks := ks) hpa (fun j hj => hk j (List.mem_cons_of_mem k hj))
      (Memory.wf_write hm (by omega))

/-- A word write keeps the canonical form. -/
theorem writeWord_wf {o : ByteOrder} {m : Memory} {pa : Nat} {w : Word} (hpa : pa + 8 ≤ 2 ^ 64)
    (hm : m.wf = true) : (writeWord o m pa w).wf = true :=
  writeLanes_wf hpa (by decide) hm

/-- A lane written reads as its byte of the word. -/
theorem read_writeLanes_lane {o : ByteOrder} {pa j : Nat} {w : Word} (hpa : pa + 8 ≤ 2 ^ 64) :
    ∀ {ks : List Nat} {m : Memory}, (∀ k ∈ ks, k < 8) → ks.Nodup → j ∈ ks → m.wf = true →
      (writeLanes o pa w ks m).read (laneAddr o pa j) = wordByte w j
  | k :: ks, m, hk, hn, hj, hm => by
    have hk8 : k < 8 := hk k List.mem_cons_self
    have hb := laneAddr_bounds (o := o) (pa := pa) hk8
    have hm' : (m.write (laneAddr o pa k) (wordByte w k)).wf = true := Memory.wf_write hm (by omega)
    have hks : ∀ i ∈ ks, i < 8 := fun i hi => hk i (List.mem_cons_of_mem k hi)
    rcases List.mem_cons.1 hj with rfl | hj'
    · simp only [writeLanes]
      rw [read_writeLanes_other, Memory.read_write_same hm]
      intro i hi h
      exact (List.nodup_cons.1 hn).1 (laneAddr_inj hk8 (hks i hi) h ▸ hi)
    · exact read_writeLanes_lane (ks := ks) hpa hks (List.nodup_cons.1 hn).2 hj' hm'

/-- The eight bytes of a word, most significant first, are the word. -/
theorem wordByte_append (w : Word) :
    wordByte w 7 ++ wordByte w 6 ++ wordByte w 5 ++ wordByte w 4 ++ wordByte w 3 ++ wordByte w 2 ++ wordByte w 1 ++
      wordByte w 0 = w := by
  apply BitVec.eq_of_getLsbD_eq
  intro i hi
  simp only [wordByte, BitVec.getLsbD_append, BitVec.getLsbD_extractLsb']
  interval_cases i <;> simp

/-- A word read after a write to it is the word written (R54, R55). -/
theorem readWord_writeWord_same {o : ByteOrder} {m : Memory} {pa : Nat} {w : Word} (hpa : pa + 8 ≤ 2 ^ 64)
    (hm : m.wf = true) : readWord o (writeWord o m pa w) pa = w := by
  have lane : ∀ j, j ∈ [0, 1, 2, 3, 4, 5, 6, 7] →
      (writeWord o m pa w).read (laneAddr o pa j) = wordByte w j := fun j hj =>
    read_writeLanes_lane hpa (by decide) (by decide) hj hm
  simp only [readWord, lane 0 (by decide), lane 1 (by decide), lane 2 (by decide), lane 3 (by decide),
    lane 4 (by decide), lane 5 (by decide), lane 6 (by decide), lane 7 (by decide)]
  exact wordByte_append w

/-- A word write leaves every byte outside its eight alone (R55). -/
theorem read_writeWord_outside {o : ByteOrder} {m : Memory} {pa b : Nat} {w : Word} (h : b < pa ∨ pa + 8 ≤ b) :
    (writeWord o m pa w).read b = m.read b := by
  apply read_writeLanes_other
  intro k hk
  have hk8 : k < 8 := by
    have : ∀ k ∈ [0, 1, 2, 3, 4, 5, 6, 7], k < 8 := by decide
    exact this k hk
  have := laneAddr_bounds (o := o) (pa := pa) hk8
  omega

/-- Two memories that agree on the eight bytes at `pa` agree on the word there. -/
theorem readWord_congr {o : ByteOrder} {m m' : Memory} {pa : Nat}
    (h : ∀ b, pa ≤ b → b < pa + 8 → m'.read b = m.read b) : readWord o m' pa = readWord o m pa := by
  have lane : ∀ j, j < 8 → m'.read (laneAddr o pa j) = m.read (laneAddr o pa j) := fun j hj =>
    have hb := laneAddr_bounds (o := o) (pa := pa) hj
    h _ hb.1 hb.2
  simp only [readWord, lane 0 (by decide), lane 1 (by decide), lane 2 (by decide), lane 3 (by decide),
    lane 4 (by decide), lane 5 (by decide), lane 6 (by decide), lane 7 (by decide)]

/-- A word write leaves every word that shares no byte with it alone (R55). -/
theorem readWord_writeWord_other {o : ByteOrder} {m : Memory} {pa pb : Nat} {w : Word}
    (h : pb + 8 ≤ pa ∨ pa + 8 ≤ pb) : readWord o (writeWord o m pa w) pb = readWord o m pb :=
  readWord_congr fun _ _ _ => read_writeWord_outside (by omega)

/-! The slot address as a number (R52) -/

theorem slotPA_toNat (f : Frame) (i : Idx) : (slotPA f i).toNat = f.toNat * 4096 + i.toNat * 8 := by
  have hi := i.isLt
  simp only [slotPA, BitVec.toNat_append, BitVec.toNat_ofNat, Nat.shiftLeft_eq]
  have h1 : f.toNat * 2 ^ 9 ||| i.toNat = f.toNat * 2 ^ 9 + i.toNat := by
    rw [Nat.mul_comm]; exact (Nat.two_pow_add_eq_or_of_lt hi f.toNat).symm
  rw [h1]
  simp
  omega

theorem slotPA_aligned (f : Frame) (i : Idx) : (slotPA f i).toNat % 8 = 0 := by
  rw [slotPA_toNat]; omega

theorem slotPA_bound (f : Frame) (i : Idx) : (slotPA f i).toNat + 8 ≤ 2 ^ 64 := by
  have hf := f.isLt
  have hi := i.isLt
  rw [slotPA_toNat]; omega

theorem slotPA_ne {f g : Frame} {i j : Idx} (h : (f, i) ≠ (g, j)) :
    (slotPA g j).toNat + 8 ≤ (slotPA f i).toNat ∨ (slotPA f i).toNat + 8 ≤ (slotPA g j).toNat := by
  have hi := i.isLt
  have hj := j.isLt
  rw [slotPA_toNat, slotPA_toNat]
  by_contra hc
  have hf : f.toNat = g.toNat := by omega
  have hij : i.toNat = j.toNat := by omega
  exact h (by rw [BitVec.eq_of_toNat_eq hf, BitVec.eq_of_toNat_eq hij])

/-! Entries -/

/-- The entry written at a slot is the entry read there (R54, R55). -/
theorem entryOf_writeWord_same {o : ByteOrder} {m : Memory} {f : Frame} {i : Idx} {w : Word} (hm : m.wf = true) :
    entryOf o (writeWord o m (slotPA f i).toNat w) f i = w :=
  readWord_writeWord_same (slotPA_bound f i) hm

/-- A write to one slot leaves every other slot alone (R55). -/
theorem entryOf_writeWord_other {o : ByteOrder} {m : Memory} {f g : Frame} {i j : Idx} {w : Word}
    (h : (f, i) ≠ (g, j)) : entryOf o (writeWord o m (slotPA f i).toNat w) g j = entryOf o m g j :=
  readWord_writeWord_other (slotPA_ne h)

end Sys2Proof.Machine
end

