-- ==== Sys2Proof/Laws/State.lean ====
section
/-! SUPPORT. One lemma per field per update of the state: what the shared updates write and what they leave alone, and
the helpers of a state's observation. -/
namespace Sys2Proof.Machine

/-! `respond` (R27) writes the response registers and `st`. -/

@[simp] theorem respond_st (e : Status) (h : Bool) (p : Frame) (s : State) : (respond e h p s).st = .resp := rfl
@[simp] theorem respond_lvl (e : Status) (h : Bool) (p : Frame) (s : State) : (respond e h p s).lvl = s.lvl := rfl
@[simp] theorem respond_opReg (e : Status) (h : Bool) (p : Frame) (s : State) :
    (respond e h p s).opReg = s.opReg := rfl
@[simp] theorem respond_mapReg (e : Status) (h : Bool) (p : Frame) (s : State) :
    (respond e h p s).mapReg = s.mapReg := rfl
@[simp] theorem respond_vpnReg (e : Status) (h : Bool) (p : Frame) (s : State) :
    (respond e h p s).vpnReg = s.vpnReg := rfl
@[simp] theorem respond_curFrame (e : Status) (h : Bool) (p : Frame) (s : State) :
    (respond e h p s).curFrame = s.curFrame := rfl
@[simp] theorem respond_ppnReg (e : Status) (h : Bool) (p : Frame) (s : State) :
    (respond e h p s).ppnReg = s.ppnReg := rfl
@[simp] theorem respond_newFrame (e : Status) (h : Bool) (p : Frame) (s : State) :
    (respond e h p s).newFrame = s.newFrame := rfl
@[simp] theorem respond_rspStatus (e : Status) (h : Bool) (p : Frame) (s : State) :
    (respond e h p s).rspStatus = e := rfl
@[simp] theorem respond_rspHit (e : Status) (h : Bool) (p : Frame) (s : State) : (respond e h p s).rspHit = h := rfl
@[simp] theorem respond_rspPpn (e : Status) (h : Bool) (p : Frame) (s : State) : (respond e h p s).rspPpn = p := rfl
@[simp] theorem respond_mem (e : Status) (h : Bool) (p : Frame) (s : State) : (respond e h p s).mem = s.mem := rfl
@[simp] theorem respond_allocSupply (e : Status) (h : Bool) (p : Frame) (s : State) :
    (respond e h p s).allocSupply = s.allocSupply := rfl
@[simp] theorem respond_plat (e : Status) (h : Bool) (p : Frame) (s : State) : (respond e h p s).plat = s.plat := rfl
@[simp] theorem respond_cmdPort (e : Status) (h : Bool) (p : Frame) (s : State) :
    (respond e h p s).cmdPort = s.cmdPort := rfl
@[simp] theorem respond_rspReady (e : Status) (h : Bool) (p : Frame) (s : State) :
    (respond e h p s).rspReady = s.rspReady := rfl
@[simp] theorem respond_rst (e : Status) (h : Bool) (p : Frame) (s : State) : (respond e h p s).rst = s.rst := rfl
@[simp] theorem respond_memAnswers (e : Status) (h : Bool) (p : Frame) (s : State) :
    (respond e h p s).memAnswers = s.memAnswers := rfl
@[simp] theorem respond_allocAnswers (e : Status) (h : Bool) (p : Frame) (s : State) :
    (respond e h p s).allocAnswers = s.allocAnswers := rfl
@[simp] theorem respond_resetFates (e : Status) (h : Bool) (p : Frame) (s : State) :
    (respond e h p s).resetFates = s.resetFates := rfl
@[simp] theorem respond_draws (e : Status) (h : Bool) (p : Frame) (s : State) :
    (respond e h p s).draws = s.draws := rfl
@[simp] theorem respond_trace (e : Status) (h : Bool) (p : Frame) (s : State) :
    (respond e h p s).trace = s.trace := rfl

/-! `logEvent` writes the observation (R13). -/

@[simp] theorem logEvent_st (e : PortEvent) (s : State) : (logEvent e s).st = s.st := rfl
@[simp] theorem logEvent_lvl (e : PortEvent) (s : State) : (logEvent e s).lvl = s.lvl := rfl
@[simp] theorem logEvent_opReg (e : PortEvent) (s : State) : (logEvent e s).opReg = s.opReg := rfl
@[simp] theorem logEvent_mapReg (e : PortEvent) (s : State) : (logEvent e s).mapReg = s.mapReg := rfl
@[simp] theorem logEvent_vpnReg (e : PortEvent) (s : State) : (logEvent e s).vpnReg = s.vpnReg := rfl
@[simp] theorem logEvent_curFrame (e : PortEvent) (s : State) : (logEvent e s).curFrame = s.curFrame := rfl
@[simp] theorem logEvent_ppnReg (e : PortEvent) (s : State) : (logEvent e s).ppnReg = s.ppnReg := rfl
@[simp] theorem logEvent_newFrame (e : PortEvent) (s : State) : (logEvent e s).newFrame = s.newFrame := rfl
@[simp] theorem logEvent_rspStatus (e : PortEvent) (s : State) : (logEvent e s).rspStatus = s.rspStatus := rfl
@[simp] theorem logEvent_rspHit (e : PortEvent) (s : State) : (logEvent e s).rspHit = s.rspHit := rfl
@[simp] theorem logEvent_rspPpn (e : PortEvent) (s : State) : (logEvent e s).rspPpn = s.rspPpn := rfl
@[simp] theorem logEvent_mem (e : PortEvent) (s : State) : (logEvent e s).mem = s.mem := rfl
@[simp] theorem logEvent_allocSupply (e : PortEvent) (s : State) : (logEvent e s).allocSupply = s.allocSupply := rfl
@[simp] theorem logEvent_plat (e : PortEvent) (s : State) : (logEvent e s).plat = s.plat := rfl
@[simp] theorem logEvent_cmdPort (e : PortEvent) (s : State) : (logEvent e s).cmdPort = s.cmdPort := rfl
@[simp] theorem logEvent_rspReady (e : PortEvent) (s : State) : (logEvent e s).rspReady = s.rspReady := rfl
@[simp] theorem logEvent_rst (e : PortEvent) (s : State) : (logEvent e s).rst = s.rst := rfl
@[simp] theorem logEvent_memAnswers (e : PortEvent) (s : State) : (logEvent e s).memAnswers = s.memAnswers := rfl
@[simp] theorem logEvent_allocAnswers (e : PortEvent) (s : State) :
    (logEvent e s).allocAnswers = s.allocAnswers := rfl
@[simp] theorem logEvent_resetFates (e : PortEvent) (s : State) : (logEvent e s).resetFates = s.resetFates := rfl
@[simp] theorem logEvent_draws (e : PortEvent) (s : State) : (logEvent e s).draws = s.draws := rfl
@[simp] theorem logEvent_trace (e : PortEvent) (s : State) : (logEvent e s).trace = e :: s.trace := rfl

/-! `descend` writes `cur_frame`, `lvl` and `st` (R119, R141). -/

@[simp] theorem descend_st (sel : FrameSelect) (leaf : FsmState) (s : State) :
    (descend sel leaf s).st = if s.lvl = 3 then leaf else .walkRd := rfl
@[simp] theorem descend_lvl (sel : FrameSelect) (leaf : FsmState) (s : State) :
    (descend sel leaf s).lvl = if s.lvl = 3 then 4 else s.lvl + 1 := rfl
@[simp] theorem descend_opReg (sel : FrameSelect) (leaf : FsmState) (s : State) :
    (descend sel leaf s).opReg = s.opReg := rfl
@[simp] theorem descend_mapReg (sel : FrameSelect) (leaf : FsmState) (s : State) :
    (descend sel leaf s).mapReg = s.mapReg := rfl
@[simp] theorem descend_vpnReg (sel : FrameSelect) (leaf : FsmState) (s : State) :
    (descend sel leaf s).vpnReg = s.vpnReg := rfl
@[simp] theorem descend_curFrame (sel : FrameSelect) (leaf : FsmState) (s : State) :
    (descend sel leaf s).curFrame = frameMux sel s := rfl
@[simp] theorem descend_ppnReg (sel : FrameSelect) (leaf : FsmState) (s : State) :
    (descend sel leaf s).ppnReg = s.ppnReg := rfl
@[simp] theorem descend_newFrame (sel : FrameSelect) (leaf : FsmState) (s : State) :
    (descend sel leaf s).newFrame = s.newFrame := rfl
@[simp] theorem descend_rspStatus (sel : FrameSelect) (leaf : FsmState) (s : State) :
    (descend sel leaf s).rspStatus = s.rspStatus := rfl
@[simp] theorem descend_rspHit (sel : FrameSelect) (leaf : FsmState) (s : State) :
    (descend sel leaf s).rspHit = s.rspHit := rfl
@[simp] theorem descend_rspPpn (sel : FrameSelect) (leaf : FsmState) (s : State) :
    (descend sel leaf s).rspPpn = s.rspPpn := rfl
@[simp] theorem descend_mem (sel : FrameSelect) (leaf : FsmState) (s : State) :
    (descend sel leaf s).mem = s.mem := rfl
@[simp] theorem descend_allocSupply (sel : FrameSelect) (leaf : FsmState) (s : State) :
    (descend sel leaf s).allocSupply = s.allocSupply := rfl
@[simp] theorem descend_plat (sel : FrameSelect) (leaf : FsmState) (s : State) :
    (descend sel leaf s).plat = s.plat := rfl
@[simp] theorem descend_cmdPort (sel : FrameSelect) (leaf : FsmState) (s : State) :
    (descend sel leaf s).cmdPort = s.cmdPort := rfl
@[simp] theorem descend_rspReady (sel : FrameSelect) (leaf : FsmState) (s : State) :
    (descend sel leaf s).rspReady = s.rspReady := rfl
@[simp] theorem descend_rst (sel : FrameSelect) (leaf : FsmState) (s : State) :
    (descend sel leaf s).rst = s.rst := rfl
@[simp] theorem descend_memAnswers (sel : FrameSelect) (leaf : FsmState) (s : State) :
    (descend sel leaf s).memAnswers = s.memAnswers := rfl
@[simp] theorem descend_allocAnswers (sel : FrameSelect) (leaf : FsmState) (s : State) :
    (descend sel leaf s).allocAnswers = s.allocAnswers := rfl
@[simp] theorem descend_resetFates (sel : FrameSelect) (leaf : FsmState) (s : State) :
    (descend sel leaf s).resetFates = s.resetFates := rfl
@[simp] theorem descend_draws (sel : FrameSelect) (leaf : FsmState) (s : State) :
    (descend sel leaf s).draws = s.draws := rfl
@[simp] theorem descend_trace (sel : FrameSelect) (leaf : FsmState) (s : State) :
    (descend sel leaf s).trace = s.trace := rfl

/-! `latch` writes the command registers (R122). -/

@[simp] theorem latch_st (c : Command) (s : State) : (latch c s).st = s.st := rfl
@[simp] theorem latch_lvl (c : Command) (s : State) : (latch c s).lvl = 0 := rfl
@[simp] theorem latch_opReg (c : Command) (s : State) : (latch c s).opReg = c.op := rfl
@[simp] theorem latch_mapReg (c : Command) (s : State) : (latch c s).mapReg = c.ppnPresent := rfl
@[simp] theorem latch_vpnReg (c : Command) (s : State) : (latch c s).vpnReg = vpnOf c.vpn := rfl
@[simp] theorem latch_curFrame (c : Command) (s : State) : (latch c s).curFrame = c.root := rfl
@[simp] theorem latch_ppnReg (c : Command) (s : State) : (latch c s).ppnReg = c.ppn := rfl
@[simp] theorem latch_newFrame (c : Command) (s : State) : (latch c s).newFrame = s.newFrame := rfl
@[simp] theorem latch_rspStatus (c : Command) (s : State) : (latch c s).rspStatus = s.rspStatus := rfl
@[simp] theorem latch_rspHit (c : Command) (s : State) : (latch c s).rspHit = s.rspHit := rfl
@[simp] theorem latch_rspPpn (c : Command) (s : State) : (latch c s).rspPpn = s.rspPpn := rfl
@[simp] theorem latch_mem (c : Command) (s : State) : (latch c s).mem = s.mem := rfl
@[simp] theorem latch_allocSupply (c : Command) (s : State) : (latch c s).allocSupply = s.allocSupply := rfl
@[simp] theorem latch_plat (c : Command) (s : State) : (latch c s).plat = s.plat := rfl
@[simp] theorem latch_cmdPort (c : Command) (s : State) : (latch c s).cmdPort = s.cmdPort := rfl
@[simp] theorem latch_rspReady (c : Command) (s : State) : (latch c s).rspReady = s.rspReady := rfl
@[simp] theorem latch_rst (c : Command) (s : State) : (latch c s).rst = s.rst := rfl
@[simp] theorem latch_memAnswers (c : Command) (s : State) : (latch c s).memAnswers = s.memAnswers := rfl
@[simp] theorem latch_allocAnswers (c : Command) (s : State) : (latch c s).allocAnswers = s.allocAnswers := rfl
@[simp] theorem latch_resetFates (c : Command) (s : State) : (latch c s).resetFates = s.resetFates := rfl
@[simp] theorem latch_draws (c : Command) (s : State) : (latch c s).draws = s.draws := rfl
@[simp] theorem latch_trace (c : Command) (s : State) : (latch c s).trace = s.trace := rfl

/-! `resetRegs` writes the eleven registers (R220). -/

@[simp] theorem resetRegs_st (s : State) : (resetRegs s).st = .idle := rfl
@[simp] theorem resetRegs_lvl (s : State) : (resetRegs s).lvl = 0 := rfl
@[simp] theorem resetRegs_opReg (s : State) : (resetRegs s).opReg = false := rfl
@[simp] theorem resetRegs_mapReg (s : State) : (resetRegs s).mapReg = false := rfl
@[simp] theorem resetRegs_vpnReg (s : State) : (resetRegs s).vpnReg = 0 := rfl
@[simp] theorem resetRegs_curFrame (s : State) : (resetRegs s).curFrame = 0 := rfl
@[simp] theorem resetRegs_ppnReg (s : State) : (resetRegs s).ppnReg = 0 := rfl
@[simp] theorem resetRegs_newFrame (s : State) : (resetRegs s).newFrame = 0 := rfl
@[simp] theorem resetRegs_rspStatus (s : State) : (resetRegs s).rspStatus = .ok := rfl
@[simp] theorem resetRegs_rspHit (s : State) : (resetRegs s).rspHit = false := rfl
@[simp] theorem resetRegs_rspPpn (s : State) : (resetRegs s).rspPpn = 0 := rfl
@[simp] theorem resetRegs_mem (s : State) : (resetRegs s).mem = s.mem := rfl
@[simp] theorem resetRegs_allocSupply (s : State) : (resetRegs s).allocSupply = s.allocSupply := rfl
@[simp] theorem resetRegs_plat (s : State) : (resetRegs s).plat = s.plat := rfl
@[simp] theorem resetRegs_cmdPort (s : State) : (resetRegs s).cmdPort = s.cmdPort := rfl
@[simp] theorem resetRegs_rspReady (s : State) : (resetRegs s).rspReady = s.rspReady := rfl
@[simp] theorem resetRegs_rst (s : State) : (resetRegs s).rst = s.rst := rfl
@[simp] theorem resetRegs_memAnswers (s : State) : (resetRegs s).memAnswers = s.memAnswers := rfl
@[simp] theorem resetRegs_allocAnswers (s : State) : (resetRegs s).allocAnswers = s.allocAnswers := rfl
@[simp] theorem resetRegs_resetFates (s : State) : (resetRegs s).resetFates = s.resetFates := rfl
@[simp] theorem resetRegs_draws (s : State) : (resetRegs s).draws = s.draws := rfl
@[simp] theorem resetRegs_trace (s : State) : (resetRegs s).trace = s.trace := rfl

end Sys2Proof.Machine
end

