-- ==== Sys2Proof/Laws/Ops.lean ====
section
/-! SUPPORT. One lemma per shared operation that says what it answers: the transactions at the slot address, the
allocator, the guards, accept, the response step. -/
namespace Sys2Proof.Machine

/-! Transactions -/

/-- A read at the slot address (R54, R120): the slot's entry, or stuck (R207). -/
theorem memRead_slot (s : State) :
    memRead (slotAddr s) s =
      if s.memAnswers then .ok (slotEntry s, logEvent (.memRead (slotAddr s) (some (slotEntry s))) s)
      else .error .memoryNeverAnswers := by
  simp only [memRead, slotAddr, slotPA_aligned, ne_eq, not_true_eq_false, if_false]
  rfl

/-- A write at the slot address (R55, R120): the slot written, or stuck (R207). -/
theorem memWrite_slot (v : Word) (s : State) :
    memWrite (slotAddr s) v s =
      if s.memAnswers then
        .ok (logEvent (.memWrite (slotAddr s) v true)
          { s with mem := writeWord s.plat.byteOrder s.mem (slotAddr s).toNat v })
      else .error .memoryNeverAnswers := by
  simp only [memWrite, slotAddr, slotPA_aligned, ne_eq, not_true_eq_false, if_false]

/-- The allocator's next answer changes nothing but the script and the draw counter. -/
theorem nextAnswer_state (s : State) :
    (nextAnswer s).2 = { s with allocSupply := (nextAnswer s).2.allocSupply, draws := (nextAnswer s).2.draws } := by
  unfold nextAnswer
  split <;> rfl

@[simp] theorem nextAnswer_mem (s : State) : (nextAnswer s).2.mem = s.mem := by rw [nextAnswer_state]
@[simp] theorem nextAnswer_plat (s : State) : (nextAnswer s).2.plat = s.plat := by rw [nextAnswer_state]
@[simp] theorem nextAnswer_trace (s : State) : (nextAnswer s).2.trace = s.trace := by rw [nextAnswer_state]

/-- The next answer is the 0-th coming one. -/
theorem nextAnswer_eq_answerAt (s : State) : (nextAnswer s).1 = answerAt s 0 := by
  unfold nextAnswer answerAt
  cases s.allocSupply <;> simp

/-- After an answer the coming ones move up by one. -/
theorem answerAt_nextAnswer (s : State) (k : Nat) : answerAt (nextAnswer s).2 k = answerAt s (k + 1) := by
  unfold nextAnswer answerAt
  cases h : s.allocSupply with
  | nil => simp; congr 1; omega
  | cons a rest => simp

/-- A drawn fate changes nothing but the script and the draw counter. -/
theorem nextFate_state (s : State) :
    (nextFate s).2 = { s with resetFates := (nextFate s).2.resetFates, draws := (nextFate s).2.draws } := by
  unfold nextFate
  split <;> rfl

/-- A transfer on the command port (R84) changes nothing but the port. -/
theorem takeCommand_state (s : State) :
    takeCommand s = { s with cmdPort := if s.st = .idle then s.cmdPort.tail else s.cmdPort } := by
  unfold takeCommand cmdReady
  by_cases h : s.st = .idle <;> simp [h]

/-- A reset step in a state that presents no request: the registers reset, a presented command transferred if idle. -/
theorem resetStep_noRequest {s : State} (h : portRequest s = none) : resetStep s = resetRegs (takeCommand s) := by
  unfold resetStep; rw [h]

/-- A reset step in a state that presents a request: the request abandoned as its fate says, the registers reset. -/
theorem resetStep_request {s : State} {r : PortRequest} (h : portRequest s = some r) :
    resetStep s = resetRegs (abandon r (nextFate s).1 (nextFate s).2) := by
  unfold resetStep; rw [h]

/-! Guards -/

theorem codeFault_eq_none {s : State} : codeFault s = none ↔ s.st ≠ .code7 ∧ s.lvl.toNat ≤ 4 := by
  unfold codeFault
  split_ifs with h
  · simp only [false_iff]
    intro hc
    rcases h with h | h
    · exact hc.1 h
    · omega
  · simp only [true_iff]
    exact ⟨fun hc => h (.inl hc), by omega⟩

/-- A guarded step answers a next state exactly where the codes and the level allow one. -/
theorem guarded_eq_next {s t : State} {r : Result} :
    guarded s r = .next t ↔ codeFault s = none ∧ levelFits s = true ∧ r = .next t := by
  unfold guarded
  cases h : codeFault s with
  | some f => simp
  | none => by_cases hl : levelFits s = true <;> simp [hl]

/-- Where the codes and the level fit, the guard is transparent. -/
theorem guarded_of_fits {s : State} {r : Result} (hc : codeFault s = none) (hl : levelFits s = true) :
    guarded s r = r := by
  simp [guarded, hc, hl]

/-! The walker step (R117) -/

/-- An entry whose valid bit is 0 is absent at every level. -/
theorem walkStep_absent {w : Word} (b : Bool) (h : w.getLsbD 0 = false) : (walkStep w b).frame? = none := by
  simp only [walkStep, pteDec, h]; rfl

/-- A valid entry gives its frame at every level. -/
theorem walkStep_present {w : Word} (b : Bool) (h : w.getLsbD 0 = true) :
    (walkStep w b).frame? = some (w.extractLsb' 12 52) := by
  cases b <;> simp only [walkStep, pteDec, h] <;> rfl

/-- The frame a walker step finds is that of `entryFrame` (R70). -/
theorem walkStep_slotEntry (s : State) (b : Bool) :
    (walkStep (slotEntry s) b).frame? = entryFrame s.plat.byteOrder s.mem s.curFrame (idx s.vpnReg s.lvl) := by
  cases h : (slotEntry s).getLsbD 0 with
  | false => rw [walkStep_absent b h]; unfold entryFrame; simp only [pteDec]; rw [show
      entryOf s.plat.byteOrder s.mem s.curFrame (idx s.vpnReg s.lvl) = slotEntry s from rfl, h]
  | true => rw [walkStep_present b h]; unfold entryFrame; simp only [pteDec]; rw [show
      entryOf s.plat.byteOrder s.mem s.curFrame (idx s.vpnReg s.lvl) = slotEntry s from rfl, h]

end Sys2Proof.Machine
end

