-- ==== Sys2Proof/Laws/Exec.lean ====
section
/-! SUPPORT. What one step of a command can do: every next state `exec` answers is one of the moves below, each from one
rule of the spec; and what one step of the machine can do. Later proofs cite these and do not unfold a meaning. -/
namespace Sys2Proof.Machine

/-- The read of the slot added to the observation. -/
def readLogged (s : State) : State := logEvent (.memRead (slotAddr s) (some (slotEntry s))) s

/-- The slot written, and the write added to the observation. -/
def slotWritten (s : State) : State :=
  logEvent (.memWrite (slotAddr s) (writeData s) true)
    { s with mem := writeWord s.plat.byteOrder s.mem (slotAddr s).toNat (writeData s) }

/-- The allocator's answer taken, and the request added to the observation. -/
def answerTaken (s : State) : State := logEvent (.alloc (some (nextAnswer s).1)) (nextAnswer s).2

/-- The frame of the slot's entry, if it is valid. -/
def slotFrame (s : State) : Option Frame := entryFrame s.plat.byteOrder s.mem s.curFrame (idx s.vpnReg s.lvl)

/-- The moves of a command, one or two to a transition rule of the spec. -/
inductive Move : Instr → State → State → Prop
  | accept {i s} : s.st = .idle → Move i s (accept i.command s)                                          -- R122
  | deliver {i s} : s.st = .resp → Move i s (deliver s)                                                  -- R123
  | queryMiss {p r v q s} : s.st = .walkRd → s.opReg = false → s.memAnswers = true → slotFrame s = none →
      Move (.query p r v q) s (respond .ok false 0 (readLogged s))                                       -- R141
  | queryChild {p r v q s f} : s.st = .walkRd → s.opReg = false → s.memAnswers = true → slotFrame s = some f →
      Move (.query p r v q) s (descend (.child f) .leafRd (readLogged s))                                -- R141
  | queryUnmapped {p r v q s} : s.st = .leafRd → s.memAnswers = true → slotFrame s = none →
      Move (.query p r v q) s (respond .ok false 0 (readLogged s))                                       -- R142
  | queryMapped {p r v q s f} : s.st = .leafRd → s.memAnswers = true → slotFrame s = some f →
      Move (.query p r v q) s (respond .ok true f (readLogged s))                                        -- R142
  | mapAbsent {r v q s} : s.st = .walkRd → s.opReg = true → s.mapReg = true → s.memAnswers = true →
      slotFrame s = none → Move (.map r v q) s { readLogged s with st := .walkAlloc }                    -- R161
  | mapChild {r v q s f} : s.st = .walkRd → s.opReg = true → s.mapReg = true → s.memAnswers = true →
      slotFrame s = some f → Move (.map r v q) s (descend (.child f) .leafWr (readLogged s))             -- R161
  | mapGranted {r v q s f} : s.st = .walkAlloc → s.allocAnswers = true → (nextAnswer s).1 = .ok f →
      Move (.map r v q) s { answerTaken s with newFrame := f, st := .walkLink }                          -- R162
  | mapExhausted {r v q s} : s.st = .walkAlloc → s.allocAnswers = true → (nextAnswer s).1 = .exhausted →
      Move (.map r v q) s (raiseError .allocatorExhausted (answerTaken s))                               -- R162
  | mapLink {r v q s} : s.st = .walkLink → s.memAnswers = true →
      Move (.map r v q) s (descend .newFrame .leafWr (slotWritten s))                                    -- R163
  | mapLeaf {r v q s} : s.st = .leafWr → s.mapReg = true → s.memAnswers = true →
      Move (.map r v q) s (respond .ok false 0 (slotWritten s))                                          -- R164
  | unmapMiss {r v q s} : s.st = .walkRd → s.opReg = true → s.mapReg = false → s.memAnswers = true →
      slotFrame s = none → Move (.unmap r v q) s (respond .ok false 0 (readLogged s))                    -- R168
  | unmapChild {r v q s f} : s.st = .walkRd → s.opReg = true → s.mapReg = false → s.memAnswers = true →
      slotFrame s = some f → Move (.unmap r v q) s (descend (.child f) .leafWr (readLogged s))           -- R168
  | unmapLeaf {r v q s} : s.st = .leafWr → s.mapReg = false → s.memAnswers = true →
      Move (.unmap r v q) s (respond .ok false 0 (slotWritten s))                                        -- R169

theorem memRead_slot_ok {s : State} (hm : s.memAnswers = true) :
    memRead (slotAddr s) s = .ok (slotEntry s, readLogged s) := by
  rw [memRead_slot, if_pos hm]; rfl

theorem memWrite_slot_ok {s : State} (hm : s.memAnswers = true) :
    memWrite (slotAddr s) (writeData s) s = .ok (slotWritten s) := by
  rw [memWrite_slot, if_pos hm]; rfl

theorem alloc_ok {s : State} (ha : s.allocAnswers = true) : alloc s = .ok ((nextAnswer s).1, answerTaken s) := by
  rw [alloc, if_pos ha]; rfl

/-! One equation per FSM step: what it answers where memory or the allocator does -/

theorem queryWalkRd_eq {s : State} (hm : s.memAnswers = true) :
    queryWalkRd s = .next (match slotFrame s with
      | none => respond .ok false 0 (readLogged s)
      | some f => descend (.child f) .leafRd (readLogged s)) := by
  rw [queryWalkRd, memRead_slot_ok hm, slotFrame, ← walkStep_slotEntry s false]
  dsimp only
  cases (walkStep (slotEntry s) false).frame? <;> rfl

theorem queryLeafRd_eq {s : State} (hm : s.memAnswers = true) :
    queryLeafRd s = .next (match slotFrame s with
      | none => respond .ok false 0 (readLogged s)
      | some f => respond .ok true f (readLogged s)) := by
  rw [queryLeafRd, memRead_slot_ok hm, slotFrame, ← walkStep_slotEntry s true]
  dsimp only
  cases (walkStep (slotEntry s) true).frame? <;> rfl

theorem mapWalkRd_eq {s : State} (hm : s.memAnswers = true) :
    mapWalkRd s = .next (match slotFrame s with
      | none => { readLogged s with st := .walkAlloc }
      | some f => descend (.child f) .leafWr (readLogged s)) := by
  rw [mapWalkRd, memRead_slot_ok hm, slotFrame, ← walkStep_slotEntry s false]
  dsimp only
  cases (walkStep (slotEntry s) false).frame? <;> rfl

theorem unmapWalkRd_eq {s : State} (hm : s.memAnswers = true) :
    unmapWalkRd s = .next (match slotFrame s with
      | none => respond .ok false 0 (readLogged s)
      | some f => descend (.child f) .leafWr (readLogged s)) := by
  rw [unmapWalkRd, memRead_slot_ok hm, slotFrame, ← walkStep_slotEntry s false]
  dsimp only
  cases (walkStep (slotEntry s) false).frame? <;> rfl

theorem mapWalkAlloc_eq {s : State} (ha : s.allocAnswers = true) :
    mapWalkAlloc s = .next (match (nextAnswer s).1 with
      | .ok f => { answerTaken s with newFrame := f, st := .walkLink }
      | .exhausted => raiseError .allocatorExhausted (answerTaken s)) := by
  rw [mapWalkAlloc, alloc_ok ha]
  cases (nextAnswer s).1 <;> rfl

theorem mapWalkLink_eq {s : State} (hm : s.memAnswers = true) :
    mapWalkLink s = .next (descend .newFrame .leafWr (slotWritten s)) := by
  rw [mapWalkLink, memWrite_slot_ok hm]

theorem mapLeafWr_eq {s : State} (hm : s.memAnswers = true) :
    mapLeafWr s = .next (respond .ok false 0 (slotWritten s)) := by
  rw [mapLeafWr, memWrite_slot_ok hm]

theorem unmapLeafWr_eq {s : State} (hm : s.memAnswers = true) :
    unmapLeafWr s = .next (respond .ok false 0 (slotWritten s)) := by
  rw [unmapLeafWr, memWrite_slot_ok hm]

/-! A transaction that is not answered has no next state (R207) -/

theorem fsm_memory_stuck {s : State} (hm : s.memAnswers = false) :
    queryWalkRd s = .fault .memoryNeverAnswers ∧ queryLeafRd s = .fault .memoryNeverAnswers ∧
    mapWalkRd s = .fault .memoryNeverAnswers ∧ mapWalkLink s = .fault .memoryNeverAnswers ∧
    mapLeafWr s = .fault .memoryNeverAnswers ∧ unmapWalkRd s = .fault .memoryNeverAnswers ∧
    unmapLeafWr s = .fault .memoryNeverAnswers := by
  refine ⟨?_, ?_, ?_, ?_, ?_, ?_, ?_⟩ <;>
  simp [queryWalkRd, queryLeafRd, mapWalkRd, mapWalkLink, mapLeafWr, unmapWalkRd, unmapLeafWr, memRead_slot,
    memWrite_slot, hm]

theorem mapWalkAlloc_stuck {s : State} (ha : s.allocAnswers = false) :
    mapWalkAlloc s = .fault .allocatorNeverAnswers := by
  simp [mapWalkAlloc, alloc, ha]

/-! What a command can do in one step -/

theorem execQuery_next {p : Bool} {r q : Frame} {v : Word} {s t : State} (h : execQuery p r v q s = .next t) :
    codeFault s = none ∧ levelFits s = true ∧ Move (.query p r v q) s t := by
  rw [execQuery, guarded_eq_next] at h
  obtain ⟨hc, hl, h⟩ := h
  refine ⟨hc, hl, ?_⟩
  cases hst : s.st <;> rw [hst] at h <;> simp only [reduceCtorEq] at h
  case idle => cases h; exact .accept hst
  case resp => cases h; exact .deliver hst
  case walkRd =>
    cases ho : s.opReg with
    | true => simp [ho] at h
    | false =>
      simp only [ho, Bool.false_eq_true, if_false] at h
      cases hm : s.memAnswers with
      | false => simp [(fsm_memory_stuck hm).1] at h
      | true =>
        rw [queryWalkRd_eq hm] at h
        cases hf : slotFrame s with
        | none => rw [hf] at h; cases h; exact .queryMiss hst ho hm hf
        | some f => rw [hf] at h; cases h; exact .queryChild hst ho hm hf
  case leafRd =>
    cases hm : s.memAnswers with
    | false => simp [(fsm_memory_stuck hm).2.1] at h
    | true =>
      rw [queryLeafRd_eq hm] at h
      cases hf : slotFrame s with
      | none => rw [hf] at h; cases h; exact .queryUnmapped hst hm hf
      | some f => rw [hf] at h; cases h; exact .queryMapped hst hm hf

theorem execMap_next {r q : Frame} {v : Word} {s t : State} (h : execMap r v q s = .next t) :
    codeFault s = none ∧ levelFits s = true ∧ Move (.map r v q) s t := by
  rw [execMap, guarded_eq_next] at h
  obtain ⟨hc, hl, h⟩ := h
  refine ⟨hc, hl, ?_⟩
  cases hst : s.st <;> rw [hst] at h <;> simp only [reduceCtorEq] at h
  case idle => cases h; exact .accept hst
  case resp => cases h; exact .deliver hst
  case walkRd =>
    by_cases hk : s.opReg = true ∧ s.mapReg = true
    · simp only [hk.1, hk.2, Bool.and_self, if_true] at h
      cases hm : s.memAnswers with
      | false => simp [(fsm_memory_stuck hm).2.2.1] at h
      | true =>
        rw [mapWalkRd_eq hm] at h
        cases hf : slotFrame s with
        | none => rw [hf] at h; cases h; exact .mapAbsent hst hk.1 hk.2 hm hf
        | some f => rw [hf] at h; cases h; exact .mapChild hst hk.1 hk.2 hm hf
    · simp [hk] at h
  case walkAlloc =>
    cases ha : s.allocAnswers with
    | false => simp [mapWalkAlloc_stuck ha] at h
    | true =>
      rw [mapWalkAlloc_eq ha] at h
      cases hn : (nextAnswer s).1 with
      | ok f => rw [hn] at h; cases h; exact .mapGranted hst ha hn
      | exhausted => rw [hn] at h; cases h; exact .mapExhausted hst ha hn
  case walkLink =>
    cases hm : s.memAnswers with
    | false => simp [(fsm_memory_stuck hm).2.2.2.1] at h
    | true => rw [mapWalkLink_eq hm] at h; cases h; exact .mapLink hst hm
  case leafWr =>
    cases hk : s.mapReg with
    | false => simp [hk] at h
    | true =>
      simp only [hk, if_true] at h
      cases hm : s.memAnswers with
      | false => simp [(fsm_memory_stuck hm).2.2.2.2.1] at h
      | true => rw [mapLeafWr_eq hm] at h; cases h; exact .mapLeaf hst hk hm

theorem execUnmap_next {r q : Frame} {v : Word} {s t : State} (h : execUnmap r v q s = .next t) :
    codeFault s = none ∧ levelFits s = true ∧ Move (.unmap r v q) s t := by
  rw [execUnmap, guarded_eq_next] at h
  obtain ⟨hc, hl, h⟩ := h
  refine ⟨hc, hl, ?_⟩
  cases hst : s.st <;> rw [hst] at h <;> simp only [reduceCtorEq] at h
  case idle => cases h; exact .accept hst
  case resp => cases h; exact .deliver hst
  case walkRd =>
    by_cases hk : s.opReg = true ∧ s.mapReg = false
    · simp only [hk.1, hk.2, Bool.not_false, Bool.and_self, if_true] at h
      cases hm : s.memAnswers with
      | false => simp [(fsm_memory_stuck hm).2.2.2.2.2.1] at h
      | true =>
        rw [unmapWalkRd_eq hm] at h
        cases hf : slotFrame s with
        | none => rw [hf] at h; cases h; exact .unmapMiss hst hk.1 hk.2 hm hf
        | some f => rw [hf] at h; cases h; exact .unmapChild hst hk.1 hk.2 hm hf
    · simp [hk] at h
  case leafWr =>
    cases hk : s.mapReg with
    | true => simp [hk] at h
    | false =>
      simp only [hk, Bool.false_eq_true, if_false] at h
      cases hm : s.memAnswers with
      | false => simp [(fsm_memory_stuck hm).2.2.2.2.2.2] at h
      | true => rw [unmapLeafWr_eq hm] at h; cases h; exact .unmapLeaf hst hk hm

/-- Every next state of a command is one of its moves. -/
theorem exec_next {i : Instr} {s t : State} (h : exec i s = .next t) :
    codeFault s = none ∧ levelFits s = true ∧ Move i s t := by
  cases i with
  | query p r v q => exact execQuery_next h
  | unmap r v q => exact execUnmap_next h
  | map r v q => exact execMap_next h

/-! What one step of the machine can do -/

theorem fetch_idle_nil {s : State} (hi : s.st = .idle) (hp : s.cmdPort = []) : fetch s = none := by
  cases s; simp only at hi hp; subst hi hp; rfl

theorem fetch_idle_cons {s : State} {b : Bundle} {rest : List Bundle} (hi : s.st = .idle)
    (hp : s.cmdPort = b :: rest) : fetch s = some (decode b, { s with cmdPort := rest }) := by
  cases s; simp only at hi hp; subst hi hp; rfl

theorem fetch_inFlight {s : State} (hi : s.st ≠ .idle) : fetch s = some (inFlight s, s) := by
  unfold fetch
  cases hst : s.st <;> first | rfl | exact absurd hst hi

/-- Every next state of the machine: the reset step, waiting for a command, or a move of the command presented or in
flight. -/
theorem step_next {s t : State} (h : step s = .next t) :
    codeFault s = none ∧
      ((s.rst = true ∧ t = resetStep s) ∨
       (s.rst = false ∧ s.st = .idle ∧ s.cmdPort = [] ∧ t = s) ∨
       (∃ b rest, s.rst = false ∧ s.st = .idle ∧ s.cmdPort = b :: rest ∧
          Move (decode b) { s with cmdPort := rest } t) ∨
       (s.rst = false ∧ s.st ≠ .idle ∧ levelFits s = true ∧ Move (inFlight s) s t)) := by
  unfold step at h
  cases hc : codeFault s with
  | some f => simp [hc] at h
  | none =>
    refine ⟨rfl, ?_⟩
    rw [hc] at h
    dsimp only at h
    by_cases hr : s.rst = true
    · rw [if_pos hr] at h; cases h; exact .inl ⟨hr, rfl⟩
    · rw [if_neg hr] at h
      have hr := Bool.eq_false_iff.2 hr
      by_cases hi : s.st = .idle
      · cases hp : s.cmdPort with
        | nil => rw [fetch_idle_nil hi hp] at h; cases h; exact .inr (.inl ⟨hr, hi, rfl, rfl⟩)
        | cons b rest =>
          rw [fetch_idle_cons hi hp] at h
          exact .inr (.inr (.inl ⟨b, rest, hr, hi, rfl, (exec_next h).2.2⟩))
      · rw [fetch_inFlight hi] at h
        exact .inr (.inr (.inr ⟨hr, hi, (exec_next h).2.1, (exec_next h).2.2⟩))

end Sys2Proof.Machine
end

