-- ==== Sys2Proof/Laws/PerInstr.lean ====
section
/-! SUPPORT. Per-instruction facts about commands as syntax. Family `CtlField`: the two control bits of a command's bundle
meet the match and mask of its row in spec/opcode_table.json (R86). -/
namespace Sys2Proof.Laws.CtlField

/-- The mask of a command's row, over `cmd_ctl[1:0]`. -/
def rowMask : Instr → BitVec 2
  | .query _ _ _ _ => 0b01
  | .unmap _ _ _ => 0b11
  | .map _ _ _ => 0b11

/-- The match of a command's row, over `cmd_ctl[1:0]`. -/
def rowMatch : Instr → BitVec 2
  | .query _ _ _ _ => 0b00
  | .unmap _ _ _ => 0b01
  | .map _ _ _ => 0b11

/-- The command's bundle meets its row. -/
def Statement (i : Instr) : Prop := (encode i).extractLsb' 0 2 &&& rowMask i = rowMatch i

/-- The two lowest bits of a packed command are its control bits. -/
theorem packCommand_ctl (c : Command) :
    (packCommand c).extractLsb' 0 2 = BitVec.ofBool c.ppnPresent ++ BitVec.ofBool c.op := by
  apply BitVec.eq_of_getLsbD_eq
  intro i hi
  have h : i = 0 ∨ i = 1 := by omega
  rcases h with rfl | rfl <;>
  simp only [packCommand, BitVec.getLsbD_append, BitVec.getLsbD_extractLsb'] <;> simp

theorem query (ppnPresent : Bool) (root : Frame) (vpn : Word) (ppn : Frame) :
    Statement (.query ppnPresent root vpn ppn) := by
  cases ppnPresent <;> simp only [Statement, encode, packCommand_ctl, Instr.command, rowMask, rowMatch] <;> decide

theorem unmap (root : Frame) (vpn : Word) (ppn : Frame) : Statement (.unmap root vpn ppn) := by
  simp only [Statement, encode, packCommand_ctl, Instr.command, rowMask, rowMatch]; decide

theorem map (root : Frame) (vpn : Word) (ppn : Frame) : Statement (.map root vpn ppn) := by
  simp only [Statement, encode, packCommand_ctl, Instr.command, rowMask, rowMatch]; decide

end Sys2Proof.Laws.CtlField
end

