-- ==== Sys2Proof/Laws/Run.lean ====
section
/-! SUPPORT. The step of each control state as one equation, the laws of running to a response, and the two loops of the
walk: through valid entries, which every command shares, and with linking, which is `MAP`'s. -/
namespace Sys2Proof.Machine

/-! The level and the guards -/

/-- The next level is one more (R22). -/
theorem level_succ {l : Level} (h : l.toNat ≤ 3) : (if l = 3 then (4 : Level) else l + 1).toNat = l.toNat + 1 := by
  revert h; revert l; decide

theorem level_three {l : Level} : l = 3 ↔ l.toNat = 3 := ⟨fun h => by rw [h]; rfl, fun h => BitVec.eq_of_toNat_eq h⟩

theorem level_four {l : Level} (h : l.toNat = 4) : l = 4 := BitVec.eq_of_toNat_eq h

theorem codeFault_none {s : State} (h : s.st ≠ .code7) (hl : s.lvl.toNat ≤ 4) : codeFault s = none :=
  codeFault_eq_none.2 ⟨h, hl⟩

/-- The guard lets every state through whose level is in the range of its control state (R22). -/
theorem guarded_in_range {s : State} (h :
    s.lvl.toNat ≤ 3 ∧ (s.st = .walkRd ∨ s.st = .walkAlloc ∨ s.st = .walkLink) ∨
    s.lvl = 4 ∧ (s.st = .leafRd ∨ s.st = .leafWr)) (r : Result) : guarded s r = r := by
  rcases h with ⟨hl, h⟩ | ⟨hl, h⟩
  · refine guarded_of_fits (codeFault_none ?_ (by omega)) ?_
    · rcases h with h | h | h <;> simp [h]
    · unfold levelFits; rcases h with h | h | h <;> rw [h] <;> exact decide_eq_true hl
  · refine guarded_of_fits (codeFault_none ?_ (by rw [hl]; decide)) ?_
    · rcases h with h | h <;> simp [h]
    · unfold levelFits; rcases h with h | h <;> rw [h, hl] <;> decide

/-- A state that fits and walks is at level 0 to 3. -/
theorem levelFits_walk {s : State} (h : levelFits s = true)
    (hs : s.st = .walkRd ∨ s.st = .walkAlloc ∨ s.st = .walkLink) : s.lvl.toNat ≤ 3 := by
  unfold levelFits at h
  rcases hs with hs | hs | hs <;> rw [hs] at h <;> simpa using h

/-! The slot's entry -/

theorem slotFrame_eq_none {s : State} : slotFrame s = none ↔ (slotEntry s).getLsbD 0 = false := by
  rw [slotFrame, ← walkStep_slotEntry s false]
  cases h : (slotEntry s).getLsbD 0
  · simp [walkStep_absent false h]
  · simp [walkStep_present false h]

theorem slotFrame_eq_some {s : State} {f : Frame} :
    slotFrame s = some f ↔ (slotEntry s).getLsbD 0 = true ∧ f = (slotEntry s).extractLsb' 12 52 := by
  rw [slotFrame, ← walkStep_slotEntry s false]
  cases h : (slotEntry s).getLsbD 0
  · simp [walkStep_absent false h]
  · simp only [walkStep_present false h, true_and, Option.some.injEq]; exact eq_comm

/-! Descending -/

theorem descend_leaf {s : State} {sel : FrameSelect} {leaf : FsmState} (h : s.lvl = 3) :
    descend sel leaf s = { s with curFrame := frameMux sel s, lvl := 4, st := leaf } := by
  unfold descend; rw [if_pos h, if_pos h]

theorem descend_inner {s : State} {sel : FrameSelect} {leaf : FsmState} (h : ¬ s.lvl = 3) :
    descend sel leaf s = { s with curFrame := frameMux sel s, lvl := s.lvl + 1, st := .walkRd } := by
  unfold descend; rw [if_neg h, if_neg h]

theorem descend_lvl_toNat {s : State} {sel : FrameSelect} {leaf : FsmState} (h : s.lvl.toNat ≤ 3) :
    (descend sel leaf s).lvl.toNat = s.lvl.toNat + 1 := by
  rw [descend_lvl]; exact level_succ h

theorem descend_st_toNat {s : State} {sel : FrameSelect} {leaf : FsmState} :
    (descend sel leaf s).st = if s.lvl.toNat = 3 then leaf else .walkRd := by
  rw [descend_st]; simp only [level_three]

/-! Steps -/

/-- `exec` in `IDLE` accepts (R122). -/
theorem exec_idle {i : Instr} {s : State} (hi : s.st = .idle) (hl : s.lvl.toNat ≤ 4) :
    exec i s = .next (accept i.command s) := by
  have g : ∀ r, guarded s r = r := fun r =>
    guarded_of_fits (codeFault_none (by simp [hi]) hl) (by unfold levelFits; rw [hi])
  cases i <;> simp only [exec, execQuery, execMap, execUnmap, g] <;> rw [hi]

/-- `exec` in `RESP` delivers (R123). -/
theorem exec_resp {i : Instr} {s : State} (hi : s.st = .resp) (hl : s.lvl.toNat ≤ 4) :
    exec i s = .next (deliver s) := by
  have g : ∀ r, guarded s r = r := fun r =>
    guarded_of_fits (codeFault_none (by simp [hi]) hl) (by unfold levelFits; rw [hi])
  cases i <;> simp only [exec, execQuery, execMap, execUnmap, g] <;> rw [hi]

/-- Outside `IDLE` the step is that of the command in flight. -/
theorem step_inFlight {s : State} (hc : codeFault s = none) (hr : s.rst = false) (hi : s.st ≠ .idle) :
    step s = exec (inFlight s) s := by
  unfold step; rw [hc, fetch_inFlight hi]; simp [hr]

/-- In `IDLE` the step is that of the bundle presented. -/
theorem step_presented {s : State} {b : Bundle} {rest : List Bundle} (hc : codeFault s = none) (hr : s.rst = false)
    (hi : s.st = .idle) (hp : s.cmdPort = b :: rest) : step s = exec (decode b) { s with cmdPort := rest } := by
  unfold step; rw [hc, fetch_idle_cons hi hp]; simp [hr]

/-- With `rst` at 1 the step is the reset step (R220). -/
theorem step_reset {s : State} (hc : codeFault s = none) (hr : s.rst = true) : step s = .next (resetStep s) := by
  unfold step; rw [hc]; simp [hr]

/-- `rst` released, memory and the allocator answering (the fairness assumption of R232). -/
structure Live (s : State) : Prop where
  released : s.rst = false
  memory : s.memAnswers = true
  allocator : s.allocAnswers = true

/-- The step of `WALK_RD` (R141, R161, R168). -/
theorem step_walkRd {s : State} (hs : s.st = .walkRd) (hl : s.lvl.toNat ≤ 3) (lv : Live s) :
    step s = .next (match slotFrame s with
      | some f => descend (.child f) (if s.opReg then .leafWr else .leafRd) (readLogged s)
      | none =>
        if s.opReg && s.mapReg then { readLogged s with st := .walkAlloc } else respond .ok false 0 (readLogged s)) := by
  have g := guarded_in_range (.inl ⟨hl, .inl hs⟩)
  rw [step_inFlight (codeFault_none (by simp [hs]) (by omega)) lv.released (by simp [hs])]
  have hm := lv.memory
  cases ho : s.opReg with
  | false =>
    have : exec (inFlight s) s = queryWalkRd s := by simp [inFlight, hs, ho, exec, execQuery, g]
    rw [this, queryWalkRd_eq hm]; cases slotFrame s <;> rfl
  | true =>
    cases hp : s.mapReg with
    | true =>
      have : exec (inFlight s) s = mapWalkRd s := by simp [inFlight, hs, ho, hp, exec, execMap, g]
      rw [this, mapWalkRd_eq hm]; cases slotFrame s <;> rfl
    | false =>
      have : exec (inFlight s) s = unmapWalkRd s := by simp [inFlight, hs, ho, hp, exec, execUnmap, g]
      rw [this, unmapWalkRd_eq hm]; cases slotFrame s <;> rfl

/-- The step of `LEAF_RD` (R142). -/
theorem step_leafRd {s : State} (hs : s.st = .leafRd) (hl : s.lvl = 4) (lv : Live s) :
    step s = .next (match slotFrame s with
      | some f => respond .ok true f (readLogged s)
      | none => respond .ok false 0 (readLogged s)) := by
  have g := guarded_in_range (.inr ⟨hl, .inl hs⟩)
  rw [step_inFlight (codeFault_none (by simp [hs]) (by rw [hl]; decide)) lv.released (by simp [hs])]
  have : exec (inFlight s) s = queryLeafRd s := by simp [inFlight, hs, exec, execQuery, g]
  rw [this, queryLeafRd_eq lv.memory]; cases slotFrame s <;> rfl

/-- The step of `LEAF_WR` (R164, R169). -/
theorem step_leafWr {s : State} (hs : s.st = .leafWr) (hl : s.lvl = 4) (lv : Live s) :
    step s = .next (respond .ok false 0 (slotWritten s)) := by
  have g := guarded_in_range (.inr ⟨hl, .inr hs⟩)
  rw [step_inFlight (codeFault_none (by simp [hs]) (by rw [hl]; decide)) lv.released (by simp [hs])]
  cases hp : s.mapReg with
  | true =>
    have : exec (inFlight s) s = mapLeafWr s := by simp [inFlight, hs, hp, exec, execMap, g]
    rw [this, mapLeafWr_eq lv.memory]
  | false =>
    have : exec (inFlight s) s = unmapLeafWr s := by simp [inFlight, hs, hp, exec, execUnmap, g]
    rw [this, unmapLeafWr_eq lv.memory]

/-- The step of `WALK_ALLOC` (R162). -/
theorem step_walkAlloc {s : State} (hs : s.st = .walkAlloc) (hl : s.lvl.toNat ≤ 3) (lv : Live s) :
    step s = .next (match answerAt s 0 with
      | .ok f => { answerTaken s with newFrame := f, st := .walkLink }
      | .exhausted => raiseError .allocatorExhausted (answerTaken s)) := by
  have g := guarded_in_range (.inl ⟨hl, .inr (.inl hs)⟩)
  rw [step_inFlight (codeFault_none (by simp [hs]) (by omega)) lv.released (by simp [hs])]
  have : exec (inFlight s) s = mapWalkAlloc s := by simp [inFlight, hs, exec, execMap, g]
  rw [this, mapWalkAlloc_eq lv.allocator]
  have h := nextAnswer_eq_answerAt s
  cases ha : answerAt s 0 <;> rw [ha] at h <;> simp only [h]

/-- The step of `WALK_LINK` (R163). -/
theorem step_walkLink {s : State} (hs : s.st = .walkLink) (hl : s.lvl.toNat ≤ 3) (lv : Live s) :
    step s = .next (descend .newFrame .leafWr (slotWritten s)) := by
  have g := guarded_in_range (.inl ⟨hl, .inr (.inr hs)⟩)
  rw [step_inFlight (codeFault_none (by simp [hs]) (by omega)) lv.released (by simp [hs])]
  have : exec (inFlight s) s = mapWalkLink s := by simp [inFlight, hs, exec, execMap, g]
  rw [this, mapWalkLink_eq lv.memory]

/-! Running to a response -/

theorem run_resp {s : State} (n : Nat) (h : s.st = .resp) : runToResponse n s = .next s := by
  cases n <;> simp [runToResponse, h]

theorem run_step {s t : State} {n : Nat} (h : s.st ≠ .resp) (hs : step s = .next t) :
    runToResponse (n + 1) s = runToResponse n t := by
  simp [runToResponse, h, hs]

/-- A run that has its response keeps it when given more steps. -/
theorem run_mono {t : State} (ht : t.st = .resp) :
    ∀ {n m : Nat} {s : State}, runToResponse n s = .next t → n ≤ m → runToResponse m s = .next t
  | 0, m, s, h, _ => by
    simp only [runToResponse, Host.Outcome.next.injEq] at h
    subst h; exact run_resp m ht
  | n + 1, 0, s, _, hm => absurd hm (by omega)
  | n + 1, m + 1, s, h, hm => by
    by_cases hs : s.st = .resp
    · rw [run_resp _ hs] at h ⊢; exact h
    · cases hst : step s with
      | next u => rw [run_step hs hst] at h ⊢; exact run_mono ht h (by omega)
      | fault f => simp [runToResponse, hs, hst] at h
      | refused r => simp [runToResponse, hs, hst] at h

/-- What every step keeps, a run keeps. -/
theorem run_keeps {P : State → Prop} (h : ∀ s t, P s → step s = .next t → P t) :
    ∀ (n : Nat) (s t : State), P s → runToResponse n s = .next t → P t
  | 0, s, t, hs, hr => by
    simp only [runToResponse, Host.Outcome.next.injEq] at hr
    rw [← hr]; exact hs
  | n + 1, s, t, hs, hr => by
    by_cases hp : s.st = .resp
    · rw [run_resp _ hp] at hr; cases hr; exact hs
    · cases hst : step s with
      | next u => rw [run_step hp hst] at hr; exact run_keeps h n u t (h s u hs hst) hr
      | fault f => simp [runToResponse, hp, hst] at hr
      | refused r => simp [runToResponse, hp, hst] at hr

/-! What a command's run leaves alone, and its counts -/

/-- The fields no step between accept and the response changes. -/
structure Keeps (s t : State) : Prop where
  port : t.cmdPort = s.cmdPort
  ready : t.rspReady = s.rspReady
  released : t.rst = s.rst
  plat : t.plat = s.plat
  vpn : t.vpnReg = s.vpnReg
  op : t.opReg = s.opReg
  map : t.mapReg = s.mapReg
  ppn : t.ppnReg = s.ppnReg
  memory : t.memAnswers = s.memAnswers
  allocator : t.allocAnswers = s.allocAnswers

theorem Keeps.refl (s : State) : Keeps s s := ⟨rfl, rfl, rfl, rfl, rfl, rfl, rfl, rfl, rfl, rfl⟩

theorem Keeps.trans {s t u : State} (h : Keeps s t) (k : Keeps t u) : Keeps s u :=
  ⟨k.1.trans h.1, k.2.trans h.2, k.3.trans h.3, k.4.trans h.4, k.5.trans h.5, k.6.trans h.6, k.7.trans h.7,
    k.8.trans h.8, k.9.trans h.9, k.10.trans h.10⟩

theorem Keeps.live {s t : State} (h : Keeps s t) (l : Live s) : Live t :=
  ⟨h.released.trans l.released, h.memory.trans l.memory, h.allocator.trans l.allocator⟩

theorem keeps_readLogged (s : State) : Keeps s (readLogged s) := ⟨rfl, rfl, rfl, rfl, rfl, rfl, rfl, rfl, rfl, rfl⟩

theorem keeps_slotWritten (s : State) : Keeps s (slotWritten s) := ⟨rfl, rfl, rfl, rfl, rfl, rfl, rfl, rfl, rfl, rfl⟩

theorem keeps_descend (s : State) (sel : FrameSelect) (leaf : FsmState) : Keeps s (descend sel leaf s) :=
  ⟨rfl, rfl, rfl, rfl, rfl, rfl, rfl, rfl, rfl, rfl⟩

theorem keeps_respond (s : State) (e : Status) (h : Bool) (p : Frame) : Keeps s (respond e h p s) :=
  ⟨rfl, rfl, rfl, rfl, rfl, rfl, rfl, rfl, rfl, rfl⟩

/-- What the allocator's answer leaves alone. -/
theorem answerTaken_frame (s : State) :
    Keeps s (answerTaken s) ∧ (answerTaken s).lvl = s.lvl ∧ (answerTaken s).mem = s.mem ∧
      (answerTaken s).curFrame = s.curFrame ∧ (answerTaken s).trace = .alloc (some (nextAnswer s).1) :: s.trace := by
  unfold answerTaken; rw [nextAnswer_state]
  exact ⟨⟨rfl, rfl, rfl, rfl, rfl, rfl, rfl, rfl, rfl, rfl⟩, rfl, rfl, rfl, rfl⟩

theorem answerAt_answerTaken (s : State) (k : Nat) : answerAt (answerTaken s) k = answerAt s (k + 1) :=
  answerAt_nextAnswer s k

theorem counts_readLogged (s : State) :
    readCount (readLogged s) = readCount s + 1 ∧ writeCount (readLogged s) = writeCount s ∧
      allocCount (readLogged s) = allocCount s :=
  ⟨List.countP_cons_of_pos rfl, List.countP_cons_of_neg (by simp [PortEvent.isWrite]),
    List.countP_cons_of_neg (by simp [PortEvent.isAlloc])⟩

theorem counts_slotWritten (s : State) :
    readCount (slotWritten s) = readCount s ∧ writeCount (slotWritten s) = writeCount s + 1 ∧
      allocCount (slotWritten s) = allocCount s :=
  ⟨List.countP_cons_of_neg (by simp [PortEvent.isRead]), List.countP_cons_of_pos rfl,
    List.countP_cons_of_neg (by simp [PortEvent.isAlloc])⟩

theorem counts_answerTaken (s : State) :
    readCount (answerTaken s) = readCount s ∧ writeCount (answerTaken s) = writeCount s ∧
      allocCount (answerTaken s) = allocCount s + 1 := by
  unfold readCount writeCount allocCount
  rw [(answerTaken_frame s).2.2.2.2]
  exact ⟨List.countP_cons_of_neg (by simp [PortEvent.isRead]), List.countP_cons_of_neg (by simp [PortEvent.isWrite]),
    List.countP_cons_of_pos rfl⟩

/-! The walk through valid entries -/

/-- The last `n` of the intermediate levels. -/
def lastLevels : Nat → List Level
  | 0 => []
  | n + 1 => BitVec.ofNat 3 (3 - n) :: lastLevels n

theorem lastLevels_four : lastLevels 4 = intermediate := by decide

theorem level_of_remaining {l : Level} {n : Nat} (h : l.toNat + (n + 1) = 4) : l = BitVec.ofNat 3 (3 - n) := by
  apply BitVec.eq_of_toNat_eq
  rw [BitVec.toNat_ofNat, Nat.mod_eq_of_lt (by omega)]; omega

theorem leadingValid_le (o : ByteOrder) (m : Memory) (v : Vpn) :
    ∀ (l : List Level) (c : Frame), leadingValid o m v l c ≤ l.length
  | [], _ => Nat.le_refl 0
  | i :: is, c => by
    simp only [leadingValid]
    split
    · exact Nat.zero_le _
    · rename_i f _
      have := leadingValid_le o m v is f
      simp only [List.length_cons]; omega

/-- From a walking state with `n` levels to go, `k` steps through `k` valid entries. -/
theorem walk_loop (k : Nat) : ∀ (n : Nat) (s : State), Live s → s.lvl.toNat + n = 4 →
    k ≤ leadingValid s.plat.byteOrder s.mem s.vpnReg (lastLevels n) s.curFrame → (n ≠ 0 → s.st = .walkRd) →
    ∃ t, (∀ N, runToResponse (N + k) s = runToResponse N t) ∧ Keeps s t ∧ t.lvl.toNat = s.lvl.toNat + k ∧
      t.mem = s.mem ∧ walkFrom s.plat.byteOrder s.mem s.vpnReg ((lastLevels n).take k) s.curFrame = some t.curFrame ∧
      t.st = (if k = 0 then s.st
        else if s.lvl.toNat + k = 4 then (if s.opReg then .leafWr else .leafRd) else .walkRd) ∧
      readCount t = readCount s + k ∧ writeCount t = writeCount s ∧ allocCount t = allocCount s ∧
      (∀ j, answerAt t j = answerAt s j) ∧
      leadingValid s.plat.byteOrder s.mem s.vpnReg (lastLevels (n - k)) t.curFrame =
        leadingValid s.plat.byteOrder s.mem s.vpnReg (lastLevels n) s.curFrame - k := by
  induction k with
  | zero => intro n s _ _ _ _; exact ⟨s, fun _ => rfl, Keeps.refl s, rfl, rfl, rfl, rfl, rfl, rfl, rfl, fun _ => rfl, rfl⟩
  | succ k ih =>
    intro n s lv hl hk hst
    cases n with
    | zero => simp [lastLevels, leadingValid] at hk
    | succ n =>
      have hst := hst (by omega)
      have hl3 : s.lvl.toNat ≤ 3 := by omega
      have hsf : slotFrame s = entryFrame s.plat.byteOrder s.mem s.curFrame (idx s.vpnReg (BitVec.ofNat 3 (3 - n))) := by
        rw [← level_of_remaining hl]; rfl
      cases hf : slotFrame s with
      | none => rw [hsf] at hf; simp [lastLevels, leadingValid, hf] at hk
      | some f =>
        have hstep := step_walkRd hst hl3 lv
        rw [hf] at hstep
        have hrec : leadingValid s.plat.byteOrder s.mem s.vpnReg (lastLevels (n + 1)) s.curFrame =
            1 + leadingValid s.plat.byteOrder s.mem s.vpnReg (lastLevels n) f := by
          rw [hsf] at hf; simp [lastLevels, leadingValid, hf]
        obtain ⟨u, hu⟩ : ∃ u, u = descend (.child f) (if s.opReg then .leafWr else .leafRd) (readLogged s) := ⟨_, rfl⟩
        have hu' : step s = .next u := by rw [hstep, hu]
        have ku : Keeps s u := by rw [hu]; exact (keeps_readLogged s).trans (keeps_descend _ _ _)
        have hul : u.lvl.toNat = s.lvl.toNat + 1 := by rw [hu]; exact descend_lvl_toNat (s := readLogged s) hl3
        have hust : u.st = if s.lvl.toNat = 3 then (if s.opReg then .leafWr else .leafRd) else .walkRd := by
          rw [hu]; exact descend_st_toNat (s := readLogged s)
        have hum : u.mem = s.mem := by rw [hu]; rfl
        have huc : u.curFrame = f := by rw [hu]; rfl
        have hur : readCount u = readCount s + 1 ∧ writeCount u = writeCount s ∧ allocCount u = allocCount s := by
          rw [hu]; exact counts_readLogged s
        have hua : ∀ j, answerAt u j = answerAt s j := fun j => by rw [hu]; rfl
        obtain ⟨t, h1, h2, h3, h4, h5, h6, h8, h9, h10, h11, h12⟩ := ih n u (ku.live lv) (by omega)
          (by rw [ku.plat, hum, ku.vpn, huc]; omega) (by intro hn; rw [hust, if_neg (by omega)])
        rw [ku.plat, hum, ku.vpn, huc] at h5 h12
        rw [ku.op] at h6
        refine ⟨t, fun N => ?_, ku.trans h2, by omega, h4.trans hum, ?_, ?_, by omega, h9.trans hur.2.1,
          h10.trans hur.2.2, fun j => (h11 j).trans (hua j), ?_⟩
        · rw [show N + (k + 1) = (N + k) + 1 from rfl, run_step (by simp [hst]) hu']; exact h1 N
        · rw [hsf] at hf
          simp only [lastLevels, List.take_succ_cons, walkFrom, hf]; exact h5
        · rw [h6, if_neg (Nat.succ_ne_zero k), hust, hul]
          by_cases hk0 : k = 0
          · rw [if_pos hk0]; simp only [show s.lvl.toNat = 3 ↔ s.lvl.toNat + (k + 1) = 4 by omega]
          · rw [if_neg hk0]; simp only [show s.lvl.toNat + 1 + k = 4 ↔ s.lvl.toNat + (k + 1) = 4 by omega]
        · rw [Nat.succ_sub_succ, hrec, h12]; omega

/-! The walk of `MAP` -/

/-- The walk of `MAP` over the last `n` levels from node `c`, with `j` answers taken so far: the leaf node, or nothing
where the allocator is exhausted; the memory it leaves; the answers taken. -/
def mapWalk (o : ByteOrder) (v : Vpn) (ans : Nat → AllocAnswer) :
    Nat → Nat → Memory → Frame → Option Frame × Memory × Nat
  | 0, j, m, c => (some c, m, j)
  | n + 1, j, m, c =>
    match entryFrame o m c (idx v (BitVec.ofNat 3 (3 - n))) with
    | some f => mapWalk o v ans n j m f
    | none =>
      match ans j with
      | .ok f =>
        mapWalk o v ans n (j + 1) (writeWord o m (slotPA c (idx v (BitVec.ofNat 3 (3 - n)))).toNat (pteEnc true f)) f
      | .exhausted => (none, m, j + 1)

/-- The read, the request and the link that one absent entry costs `MAP` where the allocator answers `Ok F`
(R161 to R163). -/
theorem link_steps {s : State} {f : Frame} (hst : s.st = .walkRd) (hl : s.lvl.toNat ≤ 3) (lv : Live s)
    (ho : s.opReg = true) (hm : s.mapReg = true) (hf : slotFrame s = none) (ha : answerAt s 0 = .ok f) :
    ∃ x, (∀ N, runToResponse (N + 3) s = runToResponse N x) ∧ Keeps s x ∧ x.lvl.toNat = s.lvl.toNat + 1 ∧
      x.st = (if s.lvl.toNat = 3 then .leafWr else .walkRd) ∧ x.curFrame = f ∧
      x.mem = writeWord s.plat.byteOrder s.mem (slotAddr s).toNat (pteEnc true f) ∧
      readCount x = readCount s + 1 ∧ writeCount x = writeCount s + 1 ∧ allocCount x = allocCount s + 1 ∧
      ∀ k, answerAt x k = answerAt s (k + 1) := by
  have h1 := step_walkRd hst hl lv
  rw [hf] at h1
  simp only [ho, hm, Bool.and_self, if_true] at h1
  obtain ⟨u, hu⟩ : ∃ u : State, u = { readLogged s with st := .walkAlloc } := ⟨_, rfl⟩
  have h1 : step s = .next u := by rw [h1, hu]
  have hus : u.st = .walkAlloc := by rw [hu]
  have hul : u.lvl = s.lvl := by rw [hu]; rfl
  have ku : Keeps s u := by rw [hu]; exact ⟨rfl, rfl, rfl, rfl, rfl, rfl, rfl, rfl, rfl, rfl⟩
  have hua : ∀ k, answerAt u k = answerAt s k := fun k => by rw [hu]; rfl
  have h2 := step_walkAlloc hus (by rw [hul]; exact hl) (ku.live lv)
  rw [hua, ha] at h2
  simp only at h2
  obtain ⟨kt, tl, tm, tc, -⟩ := answerTaken_frame u
  obtain ⟨w, hw⟩ : ∃ w : State, w = { answerTaken u with newFrame := f, st := .walkLink } := ⟨_, rfl⟩
  have h2 : step u = .next w := by rw [h2, hw]
  have hws : w.st = .walkLink := by rw [hw]
  have hwl : w.lvl = s.lvl := by rw [hw]; exact tl.trans hul
  have kw : Keeps s w := by
    rw [hw]; exact ku.trans (kt.trans ⟨rfl, rfl, rfl, rfl, rfl, rfl, rfl, rfl, rfl, rfl⟩)
  have h3 := step_walkLink hws (by rw [hwl]; exact hl) (kw.live lv)
  have hwa : slotAddr w = slotAddr s := by
    unfold slotAddr; rw [kw.vpn, hwl, show w.curFrame = s.curFrame by rw [hw]; exact tc.trans (by rw [hu]; rfl)]
  have hwd : writeData w = pteEnc true f := by
    unfold writeData; rw [hws]; simp only [show w.newFrame = f by rw [hw]]
  refine ⟨descend .newFrame .leafWr (slotWritten w), fun N => ?_,
    kw.trans ((keeps_slotWritten w).trans (keeps_descend _ _ _)), ?_, ?_, ?_, ?_, ?_, ?_, ?_, fun k => ?_⟩
  · rw [show N + 3 = N + 1 + 1 + 1 from rfl, run_step (by simp [hst]) h1,
      run_step (by simp [hus]) h2, run_step (by simp [hws]) h3]
  · rw [← hwl]; exact descend_lvl_toNat (s := slotWritten w) (by show w.lvl.toNat ≤ 3; rw [hwl]; exact hl)
  · rw [← hwl]; exact descend_st_toNat (s := slotWritten w)
  · show w.newFrame = f
    rw [hw]
  · show writeWord w.plat.byteOrder w.mem (slotAddr w).toNat (writeData w) = _
    rw [hwa, hwd, kw.plat, show w.mem = s.mem by rw [hw]; exact tm.trans (by rw [hu]; rfl)]
  · refine (counts_slotWritten w).1.trans ?_
    rw [hw]; refine (counts_answerTaken u).1.trans ?_
    rw [hu]; exact (counts_readLogged s).1
  · refine (counts_slotWritten w).2.1.trans (congrArg (· + 1) ?_)
    rw [hw]; refine (counts_answerTaken u).2.1.trans ?_
    rw [hu]; exact (counts_readLogged s).2.1
  · refine (counts_slotWritten w).2.2.trans ?_
    rw [hw]; refine (counts_answerTaken u).2.2.trans (congrArg (· + 1) ?_)
    rw [hu]; exact (counts_readLogged s).2.2
  · rw [← hua, ← answerAt_answerTaken]
    show answerAt w k = _
    rw [hw]; rfl

/-- The read and the request of an absent entry where the allocator is exhausted (R161, R162). -/
theorem exhausted_steps {s : State} (hst : s.st = .walkRd) (hl : s.lvl.toNat ≤ 3) (lv : Live s)
    (ho : s.opReg = true) (hm : s.mapReg = true) (hf : slotFrame s = none) (ha : answerAt s 0 = .exhausted) :
    ∃ x, (∀ N, runToResponse (N + 2) s = runToResponse N x) ∧ Keeps s x ∧ x.st = .resp ∧
      x.rspStatus = .allocatorExhausted ∧ x.rspHit = false ∧ x.rspPpn = 0 ∧ x.mem = s.mem ∧
      readCount x = readCount s + 1 ∧ writeCount x = writeCount s ∧ allocCount x = allocCount s + 1 := by
  have h1 := step_walkRd hst hl lv
  rw [hf] at h1
  simp only [ho, hm, Bool.and_self, if_true] at h1
  obtain ⟨u, hu⟩ : ∃ u : State, u = { readLogged s with st := .walkAlloc } := ⟨_, rfl⟩
  have h1 : step s = .next u := by rw [h1, hu]
  have hus : u.st = .walkAlloc := by rw [hu]
  have ku : Keeps s u := by rw [hu]; exact ⟨rfl, rfl, rfl, rfl, rfl, rfl, rfl, rfl, rfl, rfl⟩
  have h2 := step_walkAlloc hus (by rw [hu]; exact hl) (ku.live lv)
  rw [show answerAt u 0 = answerAt s 0 by rw [hu]; rfl, ha] at h2
  simp only at h2
  obtain ⟨kt, -, tm, -, -⟩ := answerTaken_frame u
  obtain ⟨c1, c2, c3⟩ := counts_answerTaken u
  obtain ⟨d1, d2, d3⟩ := counts_readLogged s
  refine ⟨raiseError .allocatorExhausted (answerTaken u), fun N => ?_, ku.trans (kt.trans (keeps_respond _ _ _ _)),
    rfl, rfl, rfl, rfl, tm.trans (by rw [hu]; rfl), c1.trans ?_, c2.trans ?_, c3.trans (congrArg (· + 1) ?_)⟩
  · rw [show N + 2 = N + 1 + 1 from rfl, run_step (by simp [hst]) h1,
      run_step (by simp [hus]) h2]
  · rw [hu]; exact d1
  · rw [hu]; exact d2
  · rw [hu]; exact d3

/-- From a walking state of a `MAP` with `n` levels to go: the walk runs as `mapWalk` says, in at most `3 n` steps. -/
theorem map_loop (ans : Nat → AllocAnswer) (n : Nat) : ∀ (s : State) (j : Nat), Live s → s.lvl.toNat + n = 4 →
    s.opReg = true → s.mapReg = true → s.st = (if n = 0 then .leafWr else .walkRd) →
    (∀ k, answerAt s k = ans (j + k)) →
    ∃ t K, K ≤ 3 * n ∧ (∀ N, runToResponse (N + K) s = runToResponse N t) ∧ Keeps s t ∧
      t.mem = (mapWalk s.plat.byteOrder s.vpnReg ans n j s.mem s.curFrame).2.1 ∧
      ∃ a, (mapWalk s.plat.byteOrder s.vpnReg ans n j s.mem s.curFrame).2.2 = j + a ∧ a ≤ n ∧
        allocCount t = allocCount s + a ∧
        (∀ c, (mapWalk s.plat.byteOrder s.vpnReg ans n j s.mem s.curFrame).1 = some c →
          t.st = .leafWr ∧ t.lvl.toNat = 4 ∧ t.curFrame = c ∧ readCount t = readCount s + n ∧
          writeCount t = writeCount s + a) ∧
        ((mapWalk s.plat.byteOrder s.vpnReg ans n j s.mem s.curFrame).1 = none →
          t.st = .resp ∧ t.rspStatus = .allocatorExhausted ∧ t.rspHit = false ∧ t.rspPpn = 0 ∧ 1 ≤ a ∧
          readCount s + a ≤ readCount t ∧ readCount t ≤ readCount s + n ∧ writeCount t + 1 = writeCount s + a) := by
  induction n with
  | zero =>
    intro s j lv hl ho hm hst ha
    refine ⟨s, 0, Nat.le_refl 0, fun N => rfl, Keeps.refl s, rfl, 0, rfl, Nat.le_refl 0, rfl, fun c hc => ?_, fun h => ?_⟩
    · simp only [mapWalk, Option.some.injEq] at hc
      exact ⟨hst, by omega, hc, rfl, rfl⟩
    · simp [mapWalk] at h
  | succ n ih =>
    intro s j lv hl ho hm hst ha
    rw [if_neg (Nat.succ_ne_zero n)] at hst
    have hl3 : s.lvl.toNat ≤ 3 := by omega
    have hsf : slotFrame s = entryFrame s.plat.byteOrder s.mem s.curFrame (idx s.vpnReg s.lvl) := rfl
    simp only [mapWalk, ← level_of_remaining hl]
    rw [← hsf]
    have ha0 : answerAt s 0 = ans j := by simpa using ha 0
    cases hf : slotFrame s with
    | some f =>
      have hstep := step_walkRd hst hl3 lv
      rw [hf] at hstep
      simp only [ho, if_true] at hstep
      obtain ⟨u, hu⟩ : ∃ u, u = descend (.child f) .leafWr (readLogged s) := ⟨_, rfl⟩
      have hstep : step s = .next u := by rw [hstep, hu]
      have ku : Keeps s u := by rw [hu]; exact (keeps_readLogged s).trans (keeps_descend _ _ _)
      have hul : u.lvl.toNat = s.lvl.toNat + 1 := by rw [hu]; exact descend_lvl_toNat (s := readLogged s) hl3
      have hus : u.st = if s.lvl.toNat = 3 then .leafWr else .walkRd := by
        rw [hu]; exact descend_st_toNat (s := readLogged s)
      have hum : u.mem = s.mem := by rw [hu]; rfl
      have huc : u.curFrame = f := by rw [hu]; rfl
      have hur : readCount u = readCount s + 1 ∧ writeCount u = writeCount s ∧ allocCount u = allocCount s := by
        rw [hu]; exact counts_readLogged s
      obtain ⟨t, K, h1, h2, h3, h4, a, h5, h6, h7, h8, h9⟩ := ih u j (ku.live lv) (by omega) (ku.op.trans ho)
        (ku.map.trans hm) (by rw [hus]; simp only [show s.lvl.toNat = 3 ↔ n = 0 by omega])
        (fun k => by rw [← ha k, hu]; rfl)
      rw [ku.plat, ku.vpn, hum, huc] at h4 h5 h8 h9
      refine ⟨t, K + 1, by omega, fun N => ?_, ku.trans h3, h4, a, h5, by omega, by omega, fun c hc => ?_, fun hc => ?_⟩
      · rw [show N + (K + 1) = (N + K) + 1 from rfl, run_step (by simp [hst]) hstep]; exact h2 N
      · obtain ⟨g1, g2, g3, g4, g5⟩ := h8 c hc; exact ⟨g1, g2, g3, by omega, by omega⟩
      · obtain ⟨g1, g2, g3, g4, g5, g6, g7, g8⟩ := h9 hc; exact ⟨g1, g2, g3, g4, g5, by omega, by omega, by omega⟩
    | none =>
      cases han : ans j with
      | exhausted =>
        obtain ⟨x, h1, h2, h3, h4, h5, h6, h7, h8, h9, h10⟩ := exhausted_steps hst hl3 lv ho hm hf (ha0.trans han)
        exact ⟨x, 2, by omega, h1, h2, h7, 1, rfl, by omega, h10, fun c hc => by simp at hc,
          fun _ => ⟨h3, h4, h5, h6, Nat.le_refl 1, by omega, by omega, by omega⟩⟩
      | ok f =>
        obtain ⟨x, g1, kx, gl, gs, gc, gm, gr, gw, ga, gn⟩ := link_steps hst hl3 lv ho hm hf (ha0.trans han)
        obtain ⟨t, K, h1, h2, h3, h4, a, h5, h6, h7, h8, h9⟩ := ih x (j + 1) (kx.live lv) (by omega) (kx.op.trans ho)
          (kx.map.trans hm) (by rw [gs]; simp only [show s.lvl.toNat = 3 ↔ n = 0 by omega])
          (fun k => by rw [gn k, ha]; congr 1; omega)
        rw [kx.plat, kx.vpn, gm, gc] at h4 h5 h8 h9
        refine ⟨t, K + 3, by omega, fun N => ?_, kx.trans h3, h4, a + 1, h5.trans (by omega), by omega, by omega,
          fun c hc => ?_, fun hc => ?_⟩
        · rw [show N + (K + 3) = (N + K) + 3 by omega, g1]; exact h2 N
        · obtain ⟨e1, e2, e3, e4, e5⟩ := h8 c hc; exact ⟨e1, e2, e3, by omega, by omega⟩
        · obtain ⟨e1, e2, e3, e4, e5, e6, e7, e8⟩ := h9 hc
          exact ⟨e1, e2, e3, e4, by omega, by omega, by omega, by omega⟩

end Sys2Proof.Machine
end

