-- ==== Sys2Proof/Laws/Table.lean ====
section
/-! SUPPORT. The table as paths of indices: walks and translations are paths, and what one write changes of a path. -/
namespace Sys2Proof.Machine

/-- A path in two parts. -/
theorem followPath_append (o : ByteOrder) (m : Memory) :
    ∀ (p q : List Idx) (c : Frame), followPath o m (p ++ q) c = (followPath o m p c).bind (followPath o m q)
  | [], _, _ => rfl
  | i :: p, q, c => by
    simp only [List.cons_append, followPath]
    cases entryFrame o m c i with
    | none => rfl
    | some f => exact followPath_append o m p q f

/-- A walk over levels is the path of the VPN's indices. -/
theorem walkFrom_eq_followPath (o : ByteOrder) (m : Memory) (v : Vpn) :
    ∀ (l : List Level) (c : Frame), walkFrom o m v l c = followPath o m (l.map (idx v)) c
  | [], _ => rfl
  | i :: l, c => by
    simp only [walkFrom, List.map, followPath]
    cases entryFrame o m c (idx v i) with
    | none => rfl
    | some f => exact walkFrom_eq_followPath o m v l f

/-- The first `n` indices of a VPN (R110). -/
def vpnPath (v : Vpn) (n : Nat) : List Idx := (List.range n).map fun i => idx v (BitVec.ofNat 3 i)

theorem vpnPath_succ (v : Vpn) (n : Nat) : vpnPath v (n + 1) = vpnPath v n ++ [idx v (BitVec.ofNat 3 n)] := by
  unfold vpnPath; rw [List.range_succ]; simp

@[simp] theorem vpnPath_length (v : Vpn) (n : Nat) : (vpnPath v n).length = n := by simp [vpnPath]

/-- A translation (R70) is the path of all five indices. -/
theorem translate_eq_followPath (o : ByteOrder) (m : Memory) (r : Frame) (v : Vpn) :
    Machine.translate o m r v = followPath o m (vpnPath v 5) r := by
  rw [vpnPath_succ, followPath_append, show vpnPath v 4 = intermediate.map (idx v) from rfl, ← walkFrom_eq_followPath]
  unfold Machine.translate
  cases walkFrom o m v intermediate r with
  | none => rfl
  | some c =>
    simp only [Option.bind, followPath]
    show _ = (match entryFrame o m c (idx v 4) with | none => none | some f => some f)
    cases entryFrame o m c (idx v 4) <;> rfl

/-- The frame a valid word gives (R114). -/
def wordFrame (w : Word) : Option Frame :=
  match pteDec w with
  | (false, _) => none
  | (true, g) => some g

/-- The entry written (R55). -/
theorem entryFrame_write_same {o : ByteOrder} {m : Memory} {f : Frame} {i : Idx} {w : Word} (hm : m.wf = true) :
    entryFrame o (writeWord o m (slotPA f i).toNat w) f i = wordFrame w := by
  unfold entryFrame; rw [entryOf_writeWord_same hm]; rfl

/-- Every other entry (R55). -/
theorem entryFrame_write_other {o : ByteOrder} {m : Memory} {f g : Frame} {i j : Idx} {w : Word}
    (h : (f, i) ≠ (g, j)) : entryFrame o (writeWord o m (slotPA f i).toNat w) g j = entryFrame o m g j := by
  unfold entryFrame; rw [entryOf_writeWord_other h]

/-- A path that does not go through the entry written is as before. -/
theorem followPath_write_other {o : ByteOrder} {m : Memory} {c : Frame} {x : Idx} {w : Word} :
    ∀ (p : List Idx) (r : Frame), (∀ a y b, p = a ++ y :: b → followPath o m a r = some c → y ≠ x) →
      followPath o (writeWord o m (slotPA c x).toNat w) p r = followPath o m p r
  | [], _, _ => rfl
  | i :: p, r, h => by
    have hne : (c, x) ≠ (r, i) := fun he => by
      obtain ⟨h1, h2⟩ := Prod.mk.inj he
      exact h [] i p rfl (by rw [h1]; rfl) h2.symm
    simp only [followPath]
    rw [entryFrame_write_other hne]
    cases hf : entryFrame o m r i with
    | none => rfl
    | some f =>
      exact followPath_write_other p f fun a y b hp ha =>
        h (i :: a) y b (by rw [hp]; rfl) (by simp only [followPath, hf]; exact ha)

/-- No path leaves a frame whose entries are all 0. -/
theorem followPath_zero {o : ByteOrder} {m : Memory} {f : Frame} (h : ∀ i, entryOf o m f i = 0) :
    ∀ {p : List Idx}, p ≠ [] → followPath o m p f = none
  | [], hp => absurd rfl hp
  | i :: p, _ => by simp only [followPath, entryFrame, h i]; rfl

end Sys2Proof.Machine
end

