-- ==== Sys2Proof/Machine/Text.lean ====
section
/-! DEFINITION. The textual form of commands and results (R94): numbers decimal or hexadecimal with `0x`, `;` starts a
comment, and the source's calls as pseudo-forms. Choices the spec leaves open: log entry 21. -/
namespace Sys2Proof.Machine

/-- A token of a command line: a run of letters, digits and underscores, or a mark. -/
inductive Token where
  | word (cs : List Char)
  | mark (c : Char)
deriving DecidableEq, Repr

/-- A character of a name or a number. -/
def isWordChar (c : Char) : Bool := c.isAlphanum || c == '_'

/-- The pending characters, newest first, as a token in front of the rest. -/
def flushWord (acc : List Char) (rest : List Token) : List Token :=
  match acc with
  | [] => rest
  | _ :: _ => .word acc.reverse :: rest

/-- The tokens of a line; spaces separate, `;` ends it. -/
def lexLine : List Char → List Char → List Token
  | [], acc => flushWord acc []
  | c :: cs, acc =>
    if c == ';' then flushWord acc []
    else if isWordChar c then lexLine cs (c :: acc)
    else if c == ' ' then flushWord acc (lexLine cs [])
    else flushWord acc (.mark c :: lexLine cs [])

/-- The value of a digit in a base of at most 16. -/
def digitValue (base : Nat) (c : Char) : Option Nat :=
  let v :=
    if '0' ≤ c ∧ c ≤ '9' then c.toNat - '0'.toNat
    else if 'A' ≤ c ∧ c ≤ 'F' then c.toNat - 'A'.toNat + 10
    else if 'a' ≤ c ∧ c ≤ 'f' then c.toNat - 'a'.toNat + 10
    else 16
  if v < base then some v else none

/-- The number that digits stand for after the value read so far. -/
def digitsValue (base : Nat) : List Char → Nat → Option Nat
  | [], n => some n
  | c :: cs, n =>
    match digitValue base c with
    | none => none
    | some d => digitsValue base cs (base * n + d)

/-- A number: decimal, or hexadecimal after `0x` (R94). -/
def numberOf : List Char → Option Nat
  | [] => none
  | '0' :: 'x' :: c :: cs => digitsValue 16 (c :: cs) 0
  | cs => digitsValue 10 cs 0

/-- `QUERY root, vpn`, `MAP root, vpn, ppn`, `UNMAP root, vpn`. -/
def commandOf : List Token → Option CommandText
  | [.word ['Q', 'U', 'E', 'R', 'Y'], .word r, .mark ',', .word v] => do
    return .query (← numberOf r) (← numberOf v)
  | [.word ['M', 'A', 'P'], .word r, .mark ',', .word v, .mark ',', .word p] => do
    return .map (← numberOf r) (← numberOf v) (← numberOf p)
  | [.word ['U', 'N', 'M', 'A', 'P'], .word r, .mark ',', .word v] => do
    return .unmap (← numberOf r) (← numberOf v)
  | _ => none

/-- The last argument of `update`: a number, or `NO_MAPPING`. -/
def mappingOf : List Char → Option (Option Nat)
  | ['N', 'O', '_', 'M', 'A', 'P', 'P', 'I', 'N', 'G'] => some none
  | cs => (numberOf cs).map some

/-- `query(root, vpn)`, `update(root, vpn, ppn)`, `update(root, vpn, NO_MAPPING)`. -/
def callOf : List Token → Option SourceCall
  | [.word ['q', 'u', 'e', 'r', 'y'], .mark '(', .word r, .mark ',', .word v, .mark ')'] => do
    return .query (← numberOf r) (← numberOf v)
  | [.word ['u', 'p', 'd', 'a', 't', 'e'], .mark '(', .word r, .mark ',', .word v, .mark ',', .word p, .mark ')'] => do
    return .update (← numberOf r) (← numberOf v) (← mappingOf p)
  | _ => none

/-- The command a line of text stands for (R94). -/
def parseLine (cs : List Char) : Option CommandText :=
  match commandOf (lexLine cs []) with
  | some t => some t
  | none => (callOf (lexLine cs [])).map SourceCall.expand

/-- The name of a status (R90). -/
def statusName : Status → String
  | .ok => "OK"
  | .outOfRangeAddress => "OUT_OF_RANGE_ADDRESS"
  | .allocatorExhausted => "ALLOCATOR_EXHAUSTED"
  | .invalidRoot => "INVALID_ROOT"

/-- A result as text, `-> status[, ppn]` (R94): a query that ends in `OK` names its PPN or `NO_MAPPING`. -/
def resultText (isQuery : Bool) (status : Status) (hit : Bool) (ppn : Frame) : String :=
  "-> " ++ statusName status ++
    (if isQuery && status == .ok then (if hit then ", " ++ toString ppn.toNat else ", NO_MAPPING") else "")

end Sys2Proof.Machine
end

