-- ==== Sys2Proof/Tests/Slice0.lean ====
section
/-! SUPPORT. The model's own tests: words and vectors of the spec (95_test_vectors.md, its programs' encodings), single
steps, and for every statement with hypotheses a witness that meets them. -/
namespace Sys2Proof.Tests

open Sys2Proof.Machine

/-! Helpers -/

/-- The next state, if there is one. -/
def next? : Result → Option State
  | .next s => some s
  | .fault _ => none
  | .refused _ => none

/-- A state of the registers 95_test_vectors.md 2.5 starts its rows from. -/
def at5 (st : FsmState) (op map : Bool) (lvl : Level) (cur : Frame) (vpn : Vpn) : State :=
  { State.reset with st := st, opReg := op, mapReg := map, lvl := lvl, curFrame := cur, vpnReg := vpn }

/-- The table that program P1 leaves after its first command (95_test_vectors.md 3): the bytes of `M(10,0) = 0xB001`,
`M(11,0) = 0xC001`, `M(12,0) = 0xD001`, `M(13,0) = 0xE001`, `M(14,12) = 0x20001`. -/
def tableP1 : Memory :=
  [(0xA000, 0x01), (0xA001, 0xB0), (0xB000, 0x01), (0xB001, 0xC0), (0xC000, 0x01), (0xC001, 0xD0),
   (0xD000, 0x01), (0xD001, 0xE0), (0xE060, 0x01), (0xE062, 0x02)]

/-- The registers a next state shows, with the words of the trace's newest event. -/
def shows (r : Result) : Option (FsmState × Level × Frame × Option PortEvent) :=
  (next? r).map fun s => (s.st, s.lvl, s.curFrame, s.trace.head?)

/-- The response registers a next state shows. -/
def answers (r : Result) : Option (FsmState × Status × Bool × Frame) :=
  (next? r).map fun s => (s.st, s.rspStatus, s.rspHit, s.rspPpn)

/-! Constants of R6 -/

theorem test_constants : (entries, levels, vpnBits, pteBits, frameBits, intermediateLevels) = (512, 5, 45, 64, 52, 4) := by
  decide

/-! WellFormed: an ill-formed term for each check (R84: 52-bit frames, 64-bit VPN field) -/

theorem test_illformed_query_root : (CommandText.query (2 ^ 52) 1).wellFormed = false := by decide
theorem test_illformed_query_vpn : (CommandText.query 1 (2 ^ 64)).wellFormed = false := by decide
theorem test_illformed_map_root : (CommandText.map (2 ^ 52) 1 1).wellFormed = false := by decide
theorem test_illformed_map_vpn : (CommandText.map 1 (2 ^ 64) 1).wellFormed = false := by decide
theorem test_illformed_map_ppn : (CommandText.map 1 1 (2 ^ 52)).wellFormed = false := by decide
theorem test_illformed_unmap_root : (CommandText.unmap (2 ^ 52) 1).wellFormed = false := by decide
theorem test_illformed_unmap_vpn : (CommandText.unmap 1 (2 ^ 64)).wellFormed = false := by decide
theorem test_wellformed_extremes : (CommandText.map (2 ^ 52 - 1) (2 ^ 64 - 1) (2 ^ 52 - 1)).wellFormed = true := by decide
theorem test_illformed_is_refused : (CommandText.map 1 1 (2 ^ 52)).assemble = .error .fieldTooWide := by rfl

/-! Decoding: words written out from R84 and R86; the bundles of the programs P1 to P5 -/

theorem test_decode_map_bits :
    decode ((BitVec.ofNat 52 0x20) ++ (BitVec.ofNat 64 0xC) ++ (BitVec.ofNat 52 0xA) ++ 1#1 ++ 1#1) =
      .map 0xA 0xC 0x20 := by decide
theorem test_decode_query_bits :
    decode ((BitVec.ofNat 52 0x7) ++ (BitVec.ofNat 64 0xC) ++ (BitVec.ofNat 52 0xA) ++ 1#1 ++ 0#1) =
      .query true 0xA 0xC 0x7 := by decide
theorem test_decode_unmap_bits :
    decode ((BitVec.ofNat 52 0x7) ++ (BitVec.ofNat 64 0xC) ++ (BitVec.ofNat 52 0xA) ++ 0#1 ++ 1#1) =
      .unmap 0xA 0xC 0x7 := by decide
theorem test_decode_p1_map : decode 0x000000000000800000000000000030000000000002B#170 = .map 10 12 32 := by decide
theorem test_decode_p1_query : decode 0x0000000000000000000000000000340000000000028#170 = .query false 10 13 0 := by decide
theorem test_decode_p1_unmap : decode 0x0000000000000000000000000000300000000000029#170 = .unmap 10 12 0 := by decide
theorem test_decode_p2_map : decode 0x000000000000840000000000000800000000000002B#170 = .map 10 0x200 33 := by decide
theorem test_decode_p3_map :
    decode 0x0000000000001C00007FFFFFFFFFFC000000000002B#170 = .map 10 0x1FFFFFFFFFFF 7 := by decide
theorem test_decode_p4_query :
    decode 0x00000000000003FFFFFFFFFFFFFFFC0000000000028#170 = .query false 10 0xFFFFFFFFFFFFFFFF 0 := by decide
theorem test_decode_p5_map : decode 0x0000000000000400008000000000000000000000027#170 = .map 9 0x200000000000 1 := by decide
theorem test_encode_p4_map : encode (.map 10 0x200000000000 5) = 0x000000000000140000800000000000000000000002B#170 := by
  decide
theorem test_too_wide_is_refused : decodeTableWord 171 (2 ^ 170) = none := by decide
theorem test_table_word : decodeTableWord 8 0b11 = some (.map 0 0 0) := by decide

/-! The textual form (R94) -/

theorem test_text_map : parseLine "MAP 10, 0xC, 32 ; installs".toList = some (.map 10 12 32) := by decide
theorem test_text_query : parseLine "query(10, 12)".toList = some (.query 10 12) := by decide
theorem test_text_update : parseLine "update(10, 12, 32)".toList = some (.map 10 12 32) := by decide
theorem test_text_no_mapping : parseLine "update(10, 12, NO_MAPPING)".toList = some (.unmap 10 12) := by decide
theorem test_text_assemble : ((CommandText.unmap 10 12).assemble).toOption = some (.unmap 0xA 0xC 0) := by decide
theorem test_text_results :
    resultText true .ok true 32 = "-> OK, 32" ∧ resultText true .ok false 0 = "-> OK, NO_MAPPING" ∧
    resultText false .allocatorExhausted false 0 = "-> ALLOCATOR_EXHAUSTED" := by decide

/-! Vectors of 95_test_vectors.md 2.1 to 2.4, 2.6 and 2.7 -/

/-- The five indices of a VPN. -/
def five (v : Vpn) : List Nat := [(idx v 0).toNat, (idx v 1).toNat, (idx v 2).toNat, (idx v 3).toNat, (idx v 4).toNat]

theorem test_idx_boundaries :
    five 0x200 = [0, 0, 0, 1, 0] ∧ five 0x40000 = [0, 0, 1, 0, 0] ∧ five 0x8000000 = [0, 1, 0, 0, 0] ∧
    five 0x1000000000 = [1, 0, 0, 0, 0] ∧ five 0x100000000000 = [256, 0, 0, 0, 0] := by decide
theorem test_idx_mixed :
    five 0x123456789AB = [18, 104, 345, 452, 427] ∧ five 0xAAAAAAAAAAA = [170, 341, 170, 341, 170] ∧
    five 0x155555555555 = [341, 170, 341, 170, 341] := by decide
theorem test_range_boundary :
    inRange 0x1FFFFFFFFFFF = true ∧ inRange 0x200000000000 = false ∧ inRange 0xFFFFFFFFFFFFFFFF = false := by decide
theorem test_pte_enc :
    pteEnc true 32 = 0x20001 ∧ pteEnc true 0 = 0x1 ∧ pteEnc false 0 = 0 ∧ pteEnc true 11 = 0xB001 ∧
    pteEnc true (2 ^ 52 - 1) = 0xFFFFFFFFFFFFF001 := by decide
theorem test_pte_dec :
    pteDec 0x20001 = (true, 32) ∧ pteDec 0x20000 = (false, 32) ∧ pteDec 0xFFE = (false, 0) ∧
    pteDec 0x20FFF = (true, 32) := by decide
theorem test_walk_step :
    walkStep 0x0 true = .absent ∧ walkStep 0xE001 false = .child 14 ∧ walkStep 0x20001 true = .mapped 32 ∧
    walkStep 0x1 true = .mapped 0 ∧ walkStep 0x20000 false = .absent := by decide
theorem test_slot_address :
    slotPA 1 1 = 0x1008 ∧ slotPA 10 511 = 0xAFF8 ∧ slotPA 14 12 = 0xE060 ∧
    slotPA (BitVec.allOnes 52) 511 = 0xFFFFFFFFFFFFFFF8 := by decide
theorem test_response_bundle :
    rspBundle { State.reset with rspHit := true, rspPpn := 32 } = 0x104 ∧
    rspBundle { State.reset with rspStatus := .outOfRangeAddress } = 0x1 ∧
    rspBundle { State.reset with rspStatus := .allocatorExhausted } = 0x2 ∧
    rspBundle { State.reset with rspStatus := .invalidRoot } = 0x3 := by decide
theorem test_virtual_address :
    vaVpn 0x0000000000C00ABC = 0xC00 ∧ vaOffset 0x0000000000C00ABC = 0xABC ∧
    vaCanonical 0xFF00000000000000 = true ∧ vaCanonical 0x0100000000000000 = false := by decide

/-! Bytes of memory (R58) -/

theorem test_little_endian : readWord .little tableP1 0xE060 = 0x20001 := by decide
theorem test_big_endian : readWord .big [(0xE065, 0x02), (0xE067, 0x01)] 0xE060 = 0x20001 := by decide
theorem test_write_zero_removes : writeWord .little tableP1 0xE060 0 = tableP1.take 8 := by decide
theorem test_write_little : writeWord .little [] 0xA000 0xB001 = [(0xA000, 0x01), (0xA001, 0xB0)] := by decide
theorem test_write_big : writeWord .big [] 0xA000 0xB001 = [(0xA006, 0xB0), (0xA007, 0x01)] := by decide
theorem test_translate_p1 :
    Machine.translate .little tableP1 10 12 = some 32 ∧ Machine.translate .little tableP1 10 13 = none := by decide

/-! Single steps (95_test_vectors.md 2.5), one or two an instruction -/

theorem test_query_walk :
    shows (execQuery false 10 12 0 { at5 .walkRd false false 3 13 12 with mem := tableP1 }) =
      some (.leafRd, 4, 14, some (.memRead 0xD000 (some 0xE001))) := by decide
theorem test_query_leaf :
    answers (execQuery false 10 12 0 { at5 .leafRd false true 4 14 12 with mem := tableP1 }) =
      some (.resp, .ok, true, 32) := by decide
theorem test_map_link :
    (next? (execMap 10 12 32 { at5 .walkLink true true 0 10 12 with newFrame := 11 })).map
      (fun s => (s.st, s.lvl, s.curFrame, s.mem)) =
      some (.walkRd, 1, 11, [(0xA000, 0x01), (0xA001, 0xB0)]) := by decide
theorem test_map_leaf :
    (next? (execMap 10 12 32 { at5 .leafWr true true 4 14 12 with ppnReg := 32 })).map
      (fun s => (s.st, s.rspStatus, s.rspHit, s.mem)) =
      some (.resp, .ok, false, [(0xE060, 0x01), (0xE062, 0x02)]) := by decide
theorem test_unmap_walk :
    answers (execUnmap 10 0 0 (at5 .walkRd true false 0 10 0)) = some (.resp, .ok, false, 0) := by decide
theorem test_unmap_leaf :
    (next? (execUnmap 10 12 0 { at5 .leafWr true false 4 14 12 with mem := tableP1 })).map
      (fun s => (s.st, s.rspStatus, s.mem)) = some (.resp, .ok, tableP1.take 8) := by decide

/-! Accept and errors (95_test_vectors.md 2.6) -/

/-- The block with `ROOT_CHECK(f) = (f = 10)`. -/
def only10 : State := { State.reset with plat := ⟨.onlyFrames [10], .little⟩ }

theorem test_accept_range :
    answers (execQuery false 10 0x200000000000 0 State.reset) = some (.resp, .outOfRangeAddress, false, 0) := by decide
theorem test_accept_root : answers (execMap 9 1 1 only10) = some (.resp, .invalidRoot, false, 0) := by decide
theorem test_accept_priority :
    answers (execMap 9 0x200000000000 1 only10) = some (.resp, .outOfRangeAddress, false, 0) := by decide
theorem test_first_step :
    shows (step (State.reset.withFetchWord 170 0x000000000000800000000000000030000000000002B)) =
      some (.walkRd, 0, 10, none) := by decide

/-! Witnesses: for each statement with hypotheses, a concrete state and operands that meet all of them -/

/-- A result that shows a next state with the property is a next state with it. -/
theorem next_with {r : Result} {p : State → Bool} (h : (next? r).any p = true) : ∃ t, r = .next t ∧ p t = true := by
  cases r with
  | next t => exact ⟨t, rfl, by simpa [next?] using h⟩
  | fault f => simp [next?] at h
  | refused f => simp [next?] at h

/-- A result that shows a next state is one. -/
theorem next_of {r : Result} (h : (next? r).isSome = true) : ∃ t, r = .next t := by
  cases r with
  | next t => exact ⟨t, rfl⟩
  | fault f => simp [next?] at h
  | refused f => simp [next?] at h

theorem test_witness_LevelIndexFormula : (0 : Level).toNat ≤ 4 ∧ (4 : Level).toNat ≤ 4 ∧ 0 < 45 ∧ 44 < 45 := by decide
theorem test_witness_LevelIndexFormula_ends :
    idx (0 ^^^ (1#45 <<< 0)) 4 = 1 ∧ idx (0 ^^^ (1#45 <<< 44)) 0 = 256 := by decide
theorem test_witness_RangeCheck_unsigned :
    (vpnOf (BitVec.allOnes 64)).toNat = 2 ^ 45 - 1 ∧ (idx (BitVec.allOnes 45) 0).toNat = 511 ∧
    (pteDec (BitVec.allOnes 64)).2.toNat = 2 ^ 52 - 1 ∧ (pteEnc true (BitVec.allOnes 52)).toNat = (2 ^ 52 - 1) * 4096 + 1 ∧
    (slotPA (BitVec.allOnes 52) 511).toNat = 2 ^ 64 - 8 := by decide

theorem test_witness_WriteChangesOneSlot :
    Memory.wf tableP1 = true ∧ ({ State.reset with mem := tableP1 } : State).memAnswers = true ∧
    ((14 : Frame), (13 : Idx)) ≠ (14, 12) := by decide
theorem test_witness_ReadReturnsTheLatestWrite :
    Memory.wf State.reset.mem = true ∧ State.reset.memAnswers = true ∧
    ∃ t, memWrite (slotPA 14 12) 0x20001 State.reset = .ok t := ⟨by decide, rfl, _, rfl⟩

/-! Reset -/

/-- A write in flight when `rst` rises, with the draw said. -/
def interrupted (fate : RequestFate) : State :=
  { at5 .leafWr true true 4 14 12 with ppnReg := 32, rst := true, resetFates := [fate] }

theorem test_witness_ResetLeavesTheRegistersOfTheSpec :
    codeFault (interrupted .performed) = none ∧ (interrupted .performed).rst = true := by decide
theorem test_witness_ResetTouchesMemory_performed :
    codeFault (interrupted .performed) = none ∧ (interrupted .performed).rst = true ∧
    (interrupted .performed).resetFates = .performed :: [] ∧ levelFits (interrupted .performed) = true ∧
    (next? (step (interrupted .performed))).map State.mem = some [(0xE060, 0x01), (0xE062, 0x02)] := by decide
theorem test_witness_ResetTouchesMemory_unperformed :
    codeFault (interrupted .unperformed) = none ∧ (interrupted .unperformed).rst = true ∧
    (interrupted .unperformed).resetFates = .unperformed :: [] ∧
    (next? (step (interrupted .unperformed))).map State.mem = some [] := by decide
theorem test_witness_ResetTouchesMemory_other :
    codeFault { State.reset with rst := true } = none ∧ ({ State.reset with rst := true } : State).st ≠ .walkAlloc := by
  decide

/-- R84, R220, R225: with `rst` at 1 a command presented in `IDLE`, where `cmd_ready` is 1, is transferred; one presented
outside `IDLE` is held. -/
theorem test_reset_transfers_in_idle :
    (next? (step { State.reset with rst := true, cmdPort := [encode (.map 10 12 32), 0] })).map
      (fun t => (t.st, t.cmdPort, t.vpnReg)) = some (.idle, [0], 0) := by decide
theorem test_reset_holds_outside_idle :
    (next? (step { interrupted .performed with cmdPort := [encode (.map 10 12 32)] })).map State.cmdPort =
      some [encode (.map 10 12 32)] := by decide

/-! The machine's step -/

/-- A `MAP` in `LEAF_WR` over the table of P1: a state of the invariant. -/
def writing : State := { at5 .leafWr true true 4 14 12 with ppnReg := 33, mem := tableP1 }

theorem inv_writing : Inv writing := ⟨by decide, by decide, by decide, by decide, by decide⟩

theorem test_witness_StepKeepsTheInvariant : Inv writing ∧ ∃ t, step writing = .next t :=
  ⟨inv_writing, next_of (by decide)⟩

/-- A `MAP` about to link frame 15 at `M(13, 1)`, which is absent (P2, command 2). -/
def linking : State := { at5 .walkLink true true 3 13 0x200 with newFrame := 15, mem := tableP1 }

theorem inv_linking : Inv linking := ⟨by decide, by decide, by decide, by decide, by decide⟩

theorem test_witness_StepKeepsTheLinkedEntryAbsent :
    (linking.st = .walkAlloc ∨ linking.st = .walkLink → (slotEntry linking).getLsbD 0 = false) ∧
    ∃ t, step linking = .next t := ⟨fun _ => by decide, next_of (by decide)⟩

theorem inv_stuck : Inv { writing with memAnswers := false } := ⟨by decide, by decide, by decide, by decide, by decide⟩

theorem test_witness_OnlyAnUnansweredRequest_memory :
    Inv { writing with memAnswers := false } ∧ memReqValid { writing with memAnswers := false } = true :=
  ⟨inv_stuck, by decide⟩
theorem test_witness_OnlyAnUnansweredRequest_allocator :
    Inv { linking with st := .walkAlloc, allocAnswers := false } ∧
    allocReqValid { linking with st := .walkAlloc, allocAnswers := false } = true :=
  ⟨⟨by decide, by decide, by decide, by decide, by decide⟩, by decide⟩
theorem test_witness_UnansweredRequest_memory :
    codeFault { writing with memAnswers := false } = none ∧ writing.rst = false ∧
    memReqValid { writing with memAnswers := false } = true := by decide
theorem test_witness_UnansweredRequest_allocator :
    codeFault { linking with st := .walkAlloc, allocAnswers := false } = none ∧ linking.rst = false ∧
    allocReqValid { linking with st := .walkAlloc, allocAnswers := false } = true := by decide

theorem test_witness_UnusedCodesHaveNoStep :
    (at5 .code7 false false 0 0 0).st = .code7 ∧ (at5 .walkRd false false 5 0 0).lvl = 5 ∧
    (at5 .walkRd false false 6 0 0).lvl = 6 ∧ (at5 .walkRd false false 7 0 0).lvl = 7 := by decide
theorem test_witness_LevelOutsideItsRange :
    (at5 .walkRd false false 4 0 0).lvl = 4 ∧ (at5 .walkRd false false 4 0 0).lvl.toNat ≤ 4 ∧
    (at5 .leafWr true true 3 0 0).lvl ≠ 4 ∧ (at5 .leafWr true true 3 0 0).lvl.toNat ≤ 4 := by decide
theorem test_witness_CommandNotInFlight_walk :
    codeFault (at5 .walkRd true false 0 10 12) = none ∧ levelFits (at5 .walkRd true false 0 10 12) = true ∧
    ¬ ((at5 .walkRd true false 0 10 12).opReg = true ∧ (at5 .walkRd true false 0 10 12).mapReg = true) ∧
    ¬ ((at5 .walkRd true true 0 10 12).opReg = true ∧ (at5 .walkRd true true 0 10 12).mapReg = false) := by decide
theorem test_witness_CommandNotInFlight_link : codeFault linking = none ∧ levelFits linking = true := by decide
theorem test_witness_CommandNotInFlight_leaf :
    codeFault (at5 .leafRd false true 4 14 12) = none ∧ levelFits (at5 .leafRd false true 4 14 12) = true ∧
    codeFault writing = none ∧ levelFits writing = true ∧ writing.mapReg = true ∧
    levelFits (at5 .leafWr true false 4 14 12) = true ∧ (at5 .leafWr true false 4 14 12).mapReg = false := by decide

/-- The idle block over the table of P1, with a command presented. -/
def presenting (i : Instr) : State := { State.reset with mem := tableP1, cmdPort := [encode i] }

theorem test_witness_StepRunsTheDecodedCommand :
    codeFault (presenting (.query false 10 12 0)) = none ∧ (presenting (.query false 10 12 0)).rst = false ∧
    (presenting (.query false 10 12 0)).cmdPort = encode (.query false 10 12 0) :: [] ∧
    codeFault writing = none ∧ writing.rst = false ∧ writing.st ≠ .idle ∧
    codeFault State.reset = none ∧ State.reset.st = .idle ∧ State.reset.cmdPort = [] := by decide
theorem test_witness_CommandRegistersChooseTheFsm :
    (at5 .walkRd false true 0 10 12).opReg = false ∧ (at5 .walkRd true true 0 10 12).mapReg = true ∧
    (at5 .walkRd true false 0 10 12).mapReg = false ∧ (at5 .leafRd false false 4 14 12).st = .leafRd ∧
    linking.st = .walkLink ∧ writing.mapReg = true ∧ (at5 .leafWr true false 4 14 12).mapReg = false := by decide

/-- A response waiting for the caller. -/
def responding (ready : Bool) : State :=
  { at5 .resp false false 4 14 12 with rspHit := true, rspPpn := 32, rspReady := ready }

theorem test_witness_OneCommandAtATime :
    ((responding true).rst = false ∧ (responding true).st = .resp ∧ ∃ t, step (responding true) = .next t) ∧
    ((responding false).rst = false ∧ (responding false).st = .resp ∧ ∃ t, step (responding false) = .next t) :=
  ⟨⟨rfl, rfl, next_of (by decide)⟩, rfl, rfl, next_of (by decide)⟩
theorem test_witness_CommandRegistersHold : writing.rst = false ∧ writing.st ≠ .idle ∧ ∃ t, step writing = .next t :=
  ⟨rfl, by decide, next_of (by decide)⟩
theorem test_witness_ConfigurationAndPins : ∃ t, step linking = .next t := next_of (by decide)
theorem test_witness_EveryMemoryRequest :
    ∃ t, step linking = .next t ∧ decide (t.trace = [.memWrite 0xD008 0xF001 true]) = true := next_with (by decide)
theorem test_witness_EntriesChange_link :
    Inv linking ∧ (slotEntry linking).getLsbD 0 = false ∧ linking.rst = false ∧
    ∃ t, step linking = .next t ∧ decide (entryAt t 13 1 ≠ entryAt linking 13 1) = true :=
  ⟨inv_linking, by decide, rfl, next_with (by decide)⟩
theorem test_witness_EntriesChange_leaf :
    Inv writing ∧ (writing.st = .walkAlloc ∨ writing.st = .walkLink → (slotEntry writing).getLsbD 0 = false) ∧
    writing.rst = false ∧ ∃ t, step writing = .next t ∧ decide (entryAt t 14 12 ≠ entryAt writing 14 12) = true :=
  ⟨inv_writing, fun h => absurd h (by decide), rfl, next_with (by decide)⟩
theorem test_witness_EntriesChange_unmap :
    Inv { writing with mapReg := false } ∧
    ∃ t, step { writing with mapReg := false } = .next t ∧ decide (entryAt t 14 12 = 0) = true :=
  ⟨⟨by decide, by decide, by decide, by decide, by decide⟩, next_with (by decide)⟩

/-! Accept and response -/

theorem test_witness_AcceptLatchesAndChecks :
    (presenting (.map 10 12 32)).st = .idle ∧ (presenting (.map 10 12 32)).lvl.toNat ≤ 4 ∧
    (presenting (.map 10 12 32)).rst = false ∧ (presenting (.map 10 12 32)).cmdPort = encode (.map 10 12 32) :: [] := by
  decide
theorem test_witness_Rejected_range :
    State.reset.st = .idle ∧ State.reset.lvl.toNat ≤ 4 ∧ 2 ^ 45 ≤ (Instr.query false 10 0x200000000000 0).command.vpn.toNat := by
  decide
theorem test_witness_Rejected_root :
    only10.st = .idle ∧ only10.lvl.toNat ≤ 4 ∧ rootAccepts only10.plat.rootCheck (Instr.map 9 1 1).command.root = false ∧
    ¬ 2 ^ 45 ≤ (Instr.map 9 1 1).command.vpn.toNat := by decide
theorem test_witness_Rejected_default :
    State.reset.plat.rootCheck = .acceptAll ∧ (Instr.query false 10 0x1FFFFFFFFFFF 0).command.vpn.toNat < 2 ^ 45 := by decide
theorem test_witness_ResponseStep :
    (responding true).st = .resp ∧ (responding true).lvl.toNat ≤ 4 ∧ (responding true).rspReady = true := by decide

/-! The commands' steps; the entry read is absent, valid above the leaf, valid at level 3 -/

/-- A walking state over the table of P1. -/
def walking (op map : Bool) (lvl : Level) (cur : Frame) (vpn : Vpn) : State :=
  { at5 .walkRd op map lvl cur vpn with mem := tableP1 }

theorem test_witness_QueryReadsAnIntermediateEntry :
    (walking false false 0 10 12).opReg = false ∧ (walking false false 0 10 12).lvl.toNat ≤ 3 ∧
    (walking false false 0 10 12).memAnswers = true ∧ (slotEntry (walking false false 0 10 12)).getLsbD 0 = true ∧
    (slotEntry (walking false false 3 13 12)).getLsbD 0 = true ∧
    (slotEntry (walking false false 3 13 0x200)).getLsbD 0 = false := by decide
theorem test_witness_QueryReadsTheLeaf :
    (at5 .leafRd false false 4 14 12).st = .leafRd ∧ (at5 .leafRd false false 4 14 12).lvl = 4 ∧
    (at5 .leafRd false false 4 14 12).memAnswers = true ∧
    (slotEntry { at5 .leafRd false false 4 14 12 with mem := tableP1 }).getLsbD 0 = true ∧
    (slotEntry { at5 .leafRd false false 4 14 13 with mem := tableP1 }).getLsbD 0 = false := by decide
theorem test_witness_QueryOnlyReads :
    (∃ t, exec (.query false 10 12 0) (walking false false 0 10 12) = .next t) ∧
    (∃ t, exec (.query false 10 12 0) (responding true) = .next t ∧ decide (t.st ≠ .resp) = true) :=
  ⟨next_of (by decide), next_with (by decide)⟩
theorem test_witness_MapReadsAnIntermediateEntry :
    (walking true true 0 10 12).opReg = true ∧ (walking true true 0 10 12).mapReg = true ∧
    (walking true true 0 10 12).lvl.toNat ≤ 3 ∧ (walking true true 0 10 12).memAnswers = true ∧
    (slotEntry (walking true true 3 13 12)).getLsbD 0 = true ∧
    (slotEntry (walking true true 3 13 0x200)).getLsbD 0 = false := by decide

/-- A `MAP` asking the allocator, with its next answer. -/
def asking (a : AllocAnswer) : State := { at5 .walkAlloc true true 1 11 12 with allocSupply := [a] }

theorem test_witness_MapAsksTheAllocator :
    (asking (.ok 12)).st = .walkAlloc ∧ (asking (.ok 12)).lvl.toNat ≤ 3 ∧ (asking (.ok 12)).allocAnswers = true ∧
    answerAt (asking (.ok 12)) 0 = .ok 12 ∧ answerAt (asking .exhausted) 0 = .exhausted := by decide
theorem test_witness_MapLinksTheNewFrame :
    linking.st = .walkLink ∧ linking.lvl.toNat ≤ 3 ∧ linking.memAnswers = true ∧ linking.lvl = 3 ∧
    (at5 .walkLink true true 0 10 12).lvl ≠ 3 := by decide
theorem test_witness_MapWritesTheLeaf :
    writing.st = .leafWr ∧ writing.mapReg = true ∧ writing.lvl = 4 ∧ writing.memAnswers = true := by decide
theorem test_witness_MapFrame :
    (∃ t, exec (.map 10 0x200 33) linking = .next t) ∧ (slotAddr linking).toNat + 8 ≤ 0xE060 ∧
    (∃ t, exec (.map 10 12 33) (asking (.ok 12)) = .next t) := ⟨next_of (by decide), by decide, next_of (by decide)⟩
theorem test_witness_UnmapReadsAnIntermediateEntry :
    (walking true false 0 10 12).opReg = true ∧ (walking true false 0 10 12).mapReg = false ∧
    (walking true false 0 10 12).lvl.toNat ≤ 3 ∧ (walking true false 0 10 12).memAnswers = true ∧
    (slotEntry (walking true false 3 13 12)).getLsbD 0 = true ∧
    (slotEntry (walking true false 3 13 0x200)).getLsbD 0 = false := by decide
theorem test_witness_UnmapClearsTheLeaf :
    (at5 .leafWr true false 4 14 12).st = .leafWr ∧ (at5 .leafWr true false 4 14 12).mapReg = false ∧
    (at5 .leafWr true false 4 14 12).lvl = 4 ∧ (at5 .leafWr true false 4 14 12).memAnswers = true := by decide
theorem test_witness_UnmapNeverAllocates :
    (∃ t, exec (.unmap 10 12 0) (walking true false 0 10 12) = .next t) ∧
    (∃ t, exec (.unmap 10 12 0) { writing with mapReg := false } = .next t ∧ decide (t.st = .resp) = true) :=
  ⟨next_of (by decide), next_with (by decide)⟩

/-! What a command may not see -/

theorem test_witness_AbsentEntryFrameIsNeverUsed :
    (walking false false 3 13 0x200).st = .walkRd ∧ (slotEntry (walking false false 3 13 0x200)).getLsbD 0 = false ∧
    (slotEntry { walking false false 3 13 0x200 with mem := [(0xD009, 0xF0)] }).getLsbD 0 = false ∧
    ∃ t, exec (.query false 10 0x200 0) (walking false false 3 13 0x200) = .next t :=
  ⟨rfl, by decide, by decide, next_of (by decide)⟩
theorem test_witness_IgnoredFields :
    (∃ p p' r v q q', Instr.query false 10 0x400 0 = .query p r v q ∧ Instr.query true 10 0x400 9 = .query p' r v q') ∧
    (presenting (.query false 10 0x400 0)).cmdPort = encode (.query false 10 0x400 0) :: [] ∧
    ∃ t, runToResponse (1 + 1) (presenting (.query false 10 0x400 0)) = .next t :=
  ⟨⟨false, true, 10, 0x400, 0, 9, rfl, rfl⟩, rfl, next_of (by decide)⟩
theorem test_witness_IgnoredFields_unmap :
    (∃ r v q q', Instr.unmap 10 0x400 0 = .unmap r v q ∧ Instr.unmap 10 0x400 9 = .unmap r v q') ∧
    (presenting (.unmap 10 0x400 0)).st = .idle ∧
    (presenting (.unmap 10 0x400 0)).cmdPort = encode (.unmap 10 0x400 0) :: [] ∧
    ∃ t, runToResponse (5 + 1) (presenting (.unmap 10 0x400 0)) = .next t ∧ decide (t.st = .resp) = true :=
  ⟨⟨10, 0x400, 0, 9, rfl, rfl⟩, rfl, rfl, next_with (by decide)⟩
theorem test_witness_IgnoredFields_reset :
    ({ presenting (.unmap 10 0x400 0) with rst := true } : State).st = .idle ∧
    ({ presenting (.unmap 10 0x400 0) with rst := true } : State).cmdPort = encode (.unmap 10 0x400 0) :: [] ∧
    ∃ t, runToResponse (1 + 1) { presenting (.unmap 10 0x400 0) with rst := true } = .next t ∧
      decide (t.st = .idle) = true := ⟨rfl, rfl, next_with (by decide)⟩

/-! Whole commands -/

theorem presents (i : Instr) : Presents i [] (presenting i) := ⟨rfl, Nat.zero_le 4, rfl, rfl, rfl, rfl⟩

theorem test_witness_WalkStaysOnThePath :
    Presents (.query false 10 12 0) [] (presenting (.query false 10 12 0)) ∧
    Accepted 10 12 (presenting (.query false 10 12 0)) ∧ pathDepth (presenting (.query false 10 12 0)) 10 (vpnOf 12) = 4 ∧
    0 ≤ pathDepth (presenting (.query false 10 12 0)) 10 (vpnOf 12) :=
  ⟨presents _, ⟨by decide, by decide⟩, by decide, by decide⟩
theorem test_witness_CommandsEnd :
    Presents (.map 10 12 32) [] (presenting (.map 10 12 32)) ∧ (presenting (.map 10 12 32)).rspReady = true :=
  ⟨presents _, rfl⟩
theorem test_witness_LevelNeverFalls_link :
    linking.rst = false ∧ linking.st = .walkLink ∧ ∃ t, step linking = .next t ∧ decide (t.lvl = 4) = true :=
  ⟨rfl, rfl, next_with (by decide)⟩
theorem test_witness_LevelNeverFalls_valid :
    (walking false false 0 10 12).rst = false ∧ (slotEntry (walking false false 0 10 12)).getLsbD 0 = true ∧
    ∃ t, step (walking false false 0 10 12) = .next t ∧ decide (t.lvl = 1) = true :=
  ⟨rfl, by decide, next_with (by decide)⟩
theorem test_witness_LevelNeverFalls_absent :
    (walking true true 3 13 0x200).rst = false ∧ (slotEntry (walking true true 3 13 0x200)).getLsbD 0 = false ∧
    ∃ t, step (walking true true 3 13 0x200) = .next t ∧ decide (t.lvl = 3) = true :=
  ⟨rfl, by decide, next_with (by decide)⟩
theorem test_witness_CommandsGiveOnlyTheirResponses :
    Presents (.query false 10 12 0) [] (presenting (.query false 10 12 0)) ∧
    ∃ t, runToResponse 14 (presenting (.query false 10 12 0)) = .next t ∧ t.rspHit = true := by
  refine ⟨presents _, next_with (p := State.rspHit) (by decide)⟩
theorem test_witness_CommandsGiveOnlyTheirResponses_range :
    Presents (.query false 10 0x200000000000 0) [] (presenting (.query false 10 0x200000000000 0)) ∧
    ∃ t, runToResponse 14 (presenting (.query false 10 0x200000000000 0)) = .next t := ⟨presents _, next_of (by decide)⟩
theorem test_witness_QueryAnswersTheTranslation :
    Presents (.query false 10 12 0) [] (presenting (.query false 10 12 0)) ∧
    Accepted 10 12 (presenting (.query false 10 12 0)) ∧
    translateIn (presenting (.query false 10 12 0)) 10 (vpnOf 12) = some 32 ∧
    translateIn (presenting (.query false 10 13 0)) 10 (vpnOf 13) = none :=
  ⟨presents _, ⟨by decide, by decide⟩, by decide, by decide⟩
theorem test_witness_QueryReadCounts :
    Presents (.query false 10 0x400 0) [] (presenting (.query false 10 0x400 0)) ∧
    Accepted 10 0x400 (presenting (.query false 10 0x400 0)) ∧
    pathDepth (presenting (.query false 10 0x400 0)) 10 (vpnOf 0x400) = 3 ∧
    ∃ t, runToResponse 6 (presenting (.query false 10 0x400 0)) = .next t :=
  ⟨presents _, ⟨by decide, by decide⟩, by decide, next_of (by decide)⟩
theorem test_witness_QueryReadCounts_rejected :
    Presents (.query false 10 0x200000000000 0) [] (presenting (.query false 10 0x200000000000 0)) ∧
    ¬ Accepted 10 0x200000000000 (presenting (.query false 10 0x200000000000 0)) ∧
    ∃ t, runToResponse 6 (presenting (.query false 10 0x200000000000 0)) = .next t :=
  ⟨presents _, fun h => absurd h.range (by decide), next_of (by decide)⟩

/-- `MAP 10, 0x200, 33` over the table of P1, with the allocator's answers (P2, command 2). -/
def mapping (answers : List AllocAnswer) : State := { presenting (.map 10 0x200 33) with allocSupply := answers }

theorem presents_mapping (l : List AllocAnswer) : Presents (.map 10 0x200 33) [] (mapping l) :=
  ⟨rfl, Nat.zero_le 4, rfl, rfl, rfl, rfl⟩

theorem accepted_mapping (l : List AllocAnswer) : Accepted 10 0x200 (mapping l) := ⟨by decide, rfl⟩

/-- The linked frame 15 is the path's node at level 4 when `MAP` comes to its leaf (R33). -/
theorem test_witness_WalkStaysOnThePath_linked :
    Presents (.map 10 0x200 33) [] (mapping [.ok 15]) ∧ Accepted 10 0x200 (mapping [.ok 15]) ∧
    Memory.wf (mapping [.ok 15]).mem = true ∧ pathDepth (mapping [.ok 15]) 10 (vpnOf 0x200) = 3 ∧
    ∃ t, runToResponse (6 + 1) (mapping [.ok 15]) = .next t ∧
      decide ((t.st, t.lvl, t.curFrame) = (.leafWr, 4, 15)) = true :=
  ⟨presents_mapping _, accepted_mapping _, by decide, by decide, next_with (by decide)⟩

theorem test_witness_UpdateTransactionCounts_map :
    Presents (.map 10 0x200 33) [] (mapping [.ok 15]) ∧ Accepted 10 0x200 (mapping [.ok 15]) ∧
    ∃ t, runToResponse 14 (mapping [.ok 15]) = .next t ∧
      decide ((readCount t, allocCount t, writeCount t) = (4, 1, 2)) = true :=
  ⟨presents_mapping _, accepted_mapping _, next_with (by decide)⟩
theorem test_witness_UpdateTransactionCounts_complete :
    Presents (.map 10 12 33) [] (presenting (.map 10 12 33)) ∧ Accepted 10 12 (presenting (.map 10 12 33)) ∧
    pathDepth (presenting (.map 10 12 33)) 10 (vpnOf 12) = 4 ∧
    ∃ t, runToResponse 14 (presenting (.map 10 12 33)) = .next t ∧
      decide ((t.rspStatus, readCount t, allocCount t, writeCount t) = (.ok, 4, 0, 1)) = true :=
  ⟨presents _, ⟨by decide, by decide⟩, by decide, next_with (by decide)⟩
theorem test_witness_UpdateTransactionCounts_exhausted :
    Presents (.map 10 0x200 33) [] (mapping [.exhausted]) ∧ Accepted 10 0x200 (mapping [.exhausted]) ∧
    ∃ t, runToResponse 14 (mapping [.exhausted]) = .next t ∧
      decide ((t.rspStatus, readCount t, allocCount t, writeCount t) = (.allocatorExhausted, 4, 1, 0)) = true :=
  ⟨presents_mapping _, accepted_mapping _, next_with (by decide)⟩
theorem test_witness_UpdateTransactionCounts_unmap :
    Presents (.unmap 10 12 0) [] (presenting (.unmap 10 12 0)) ∧ Accepted 10 12 (presenting (.unmap 10 12 0)) ∧
    pathDepth (presenting (.unmap 10 12 0)) 10 (vpnOf 12) = 4 ∧
    pathDepth (presenting (.unmap 10 0x200 0)) 10 (vpnOf 0x200) = 3 ∧
    ∃ t, runToResponse 6 (presenting (.unmap 10 12 0)) = .next t :=
  ⟨presents _, ⟨by decide, by decide⟩, by decide, by decide, next_of (by decide)⟩
theorem test_witness_MapFailsOnlyWhenTheAllocatorIsExhausted :
    Presents (.map 10 0x200 33) [] (mapping [.exhausted]) ∧ Accepted 10 0x200 (mapping [.exhausted]) ∧
    answerAt (mapping [.exhausted]) 0 = .exhausted := ⟨presents_mapping _, accepted_mapping _, rfl⟩

/-! The tree premise and the premises of R61 over the table of P1 -/

/-- The entries of the table of P1: one link a node, one leaf entry, every other entry 0. -/
theorem tableP1_entry (f : Frame) (i : Idx) :
    entryOf .little tableP1 f i =
      if (f, i) = (10, 0) then 0xB001 else if (f, i) = (11, 0) then 0xC001 else if (f, i) = (12, 0) then 0xD001
      else if (f, i) = (13, 0) then 0xE001 else if (f, i) = (14, 12) then 0x20001 else 0 := by
  have h : tableP1 = writeWord .little (writeWord .little (writeWord .little (writeWord .little (writeWord .little []
      (slotPA 14 12).toNat 0x20001) (slotPA 13 0).toNat 0xE001) (slotPA 12 0).toNat 0xD001)
      (slotPA 11 0).toNat 0xC001) (slotPA 10 0).toNat 0xB001 := by decide
  split_ifs with h0 h1 h2 h3 h4
  · obtain ⟨rfl, rfl⟩ := Prod.mk.inj h0; decide
  · obtain ⟨rfl, rfl⟩ := Prod.mk.inj h1; decide
  · obtain ⟨rfl, rfl⟩ := Prod.mk.inj h2; decide
  · obtain ⟨rfl, rfl⟩ := Prod.mk.inj h3; decide
  · obtain ⟨rfl, rfl⟩ := Prod.mk.inj h4; decide
  · rw [h, entryOf_writeWord_other (Ne.symm h0), entryOf_writeWord_other (Ne.symm h1),
      entryOf_writeWord_other (Ne.symm h2), entryOf_writeWord_other (Ne.symm h3), entryOf_writeWord_other (Ne.symm h4)]
    unfold entryOf readWord; simp only [Memory.read]; decide

/-- Above the leaf level a node `10 + k` has the one child `10 + k + 1`, at index 0. -/
theorem tableP1_child {k : Nat} (hk : k ≤ 3) {i : Idx} {g : Frame}
    (h : entryFrame .little tableP1 (BitVec.ofNat 52 (10 + k)) i = some g) :
    i = 0 ∧ g = BitVec.ofNat 52 (10 + (k + 1)) := by
  by_cases hi : i = 0
  · subst hi
    refine ⟨rfl, ?_⟩
    interval_cases k <;> exact (Option.some.inj (Eq.trans (by decide) h)).symm
  · have hz : entryOf .little tableP1 (BitVec.ofNat 52 (10 + k)) i = 0 := by
      have h14 : BitVec.ofNat 52 (10 + k) ≠ 14 := by interval_cases k <;> decide
      have hne : ∀ a b : Frame, (a, i) ≠ (b, 0) := fun a b he => hi (Prod.mk.inj he).2
      rw [tableP1_entry, if_neg (hne _ _), if_neg (hne _ _), if_neg (hne _ _), if_neg (hne _ _),
        if_neg fun he => h14 (Prod.mk.inj he).1]
    unfold entryFrame at h; rw [hz] at h; cases h

/-- The one path of each length. -/
theorem tableP1_path : ∀ (p : List Idx) (k : Nat) (f : Frame), k + p.length ≤ 4 →
    followPath .little tableP1 p (BitVec.ofNat 52 (10 + k)) = some f →
    p = List.replicate p.length 0 ∧ f = BitVec.ofNat 52 (10 + (k + p.length))
  | [], _, _, _, h => ⟨rfl, (Option.some.inj h).symm⟩
  | i :: p, k, f, hk, h => by
    simp only [List.length_cons] at hk
    simp only [followPath] at h
    cases he : entryFrame .little tableP1 (BitVec.ofNat 52 (10 + k)) i with
    | none => rw [he] at h; cases h
    | some g =>
      obtain ⟨rfl, rfl⟩ := tableP1_child (by omega) he
      rw [he] at h
      obtain ⟨h1, h2⟩ := tableP1_path p (k + 1) f (by omega) h
      refine ⟨?_, ?_⟩
      · rw [List.length_cons, List.replicate_succ, ← h1]
      · rw [h2, List.length_cons]; congr 1; omega

theorem frame_inj {a b : Nat} (ha : a ≤ 4) (hb : b ≤ 4)
    (h : BitVec.ofNat 52 (10 + (0 + a)) = BitVec.ofNat 52 (10 + (0 + b))) : a = b := by
  have := congrArg BitVec.toNat h
  simp only [BitVec.toNat_ofNat] at this
  omega

/-- The table of P1 is a tree. -/
theorem tree_tableP1 {s : State} (hm : s.mem = tableP1) (ho : s.plat.byteOrder = .little) : TreePremise s 10 := by
  intro p q f hp hq h1 h2
  rw [hm, ho] at h1 h2
  obtain ⟨e1, f1⟩ := tableP1_path p 0 f (by omega) h1
  obtain ⟨e2, f2⟩ := tableP1_path q 0 f (by omega) h2
  have := frame_inj hp hq (f1.symm.trans f2)
  rw [e1, e2, this]

/-- Frame 15 is zero-filled and no node of the table of P1. -/
theorem fresh_15 {s : State} (hm : s.mem = tableP1) (ho : s.plat.byteOrder = .little) :
    ZeroFrame s 15 ∧ ¬ IsNode s 10 15 := by
  refine ⟨fun i => ?_, ?_⟩
  · unfold entryAt; rw [hm, ho, tableP1_entry]; simp
  · rintro ⟨p, hp, h⟩
    rw [hm, ho] at h
    have e := congrArg BitVec.toNat (tableP1_path p 0 15 (by omega) h).2
    rw [show (15 : Frame).toNat = 15 from rfl, BitVec.toNat_ofNat, Nat.mod_eq_of_lt (by omega)] at e
    omega

theorem test_witness_ZeroFilledRoot : ZeroFrame State.reset 10 := fun i => by
  unfold entryAt entryOf readWord State.reset; simp only [Memory.read]; decide

theorem alloc_mapping : AllocPremise (mapping [.ok 15]) 10 (4 - pathDepth (mapping [.ok 15]) 10 (vpnOf 0x200)) := by
  rw [show pathDepth (mapping [.ok 15]) 10 (vpnOf 0x200) = 3 by decide]
  intro k hk f hf
  obtain rfl : k = 0 := by omega
  obtain rfl : f = 15 := by cases hf; rfl
  exact ⟨(fresh_15 rfl rfl).1, (fresh_15 rfl rfl).2, fun j hj => absurd hj (by omega)⟩

/-- The premises of R61 that `UpdateTransactionCounts` puts on the count of allocations. -/
theorem test_witness_UpdateTransactionCounts_premise :
    AllocPremise (mapping [.ok 15]) 10 (4 - pathDepth (mapping [.ok 15]) 10 (vpnOf 0x200)) ∧
    4 - pathDepth (mapping [.ok 15]) 10 (vpnOf 0x200) = 1 := ⟨alloc_mapping, by decide⟩

theorem test_witness_MapInstalls :
    Presents (.map 10 0x200 33) [] (mapping [.ok 15]) ∧ Accepted 10 0x200 (mapping [.ok 15]) ∧
    Memory.wf (mapping [.ok 15]).mem = true ∧ TreePremise (mapping [.ok 15]) 10 ∧
    AllocPremise (mapping [.ok 15]) 10 (4 - pathDepth (mapping [.ok 15]) 10 (vpnOf 0x200)) ∧
    vpnOf 12 ≠ vpnOf 0x200 ∧
    ∃ t, runToResponse 14 (mapping [.ok 15]) = .next t ∧ decide (t.rspStatus = .ok) = true :=
  ⟨presents_mapping _, accepted_mapping _, by decide, tree_tableP1 rfl rfl, alloc_mapping, by decide,
    next_with (by decide)⟩
theorem test_witness_UnmapRemoves :
    Presents (.unmap 10 12 0) [] (presenting (.unmap 10 12 0)) ∧ Accepted 10 12 (presenting (.unmap 10 12 0)) ∧
    Memory.wf (presenting (.unmap 10 12 0)).mem = true ∧ TreePremise (presenting (.unmap 10 12 0)) 10 ∧
    vpnOf 13 ≠ vpnOf 12 := ⟨presents _, ⟨by decide, by decide⟩, by decide, tree_tableP1 rfl rfl, by decide⟩

/-- `MAP 10, 0x40000, 33` over the table of P1: two nodes are missing, the allocator has one frame. -/
def failing : State := { presenting (.map 10 0x40000 33) with allocSupply := [.ok 15, .exhausted] }

theorem alloc_failing : AllocPremise failing 10 (4 - pathDepth failing 10 (vpnOf 0x40000)) := by
  rw [show pathDepth failing 10 (vpnOf 0x40000) = 2 by decide]
  intro k hk f hf
  have h : k = 0 ∨ k = 1 := by omega
  rcases h with rfl | rfl
  · obtain rfl : f = 15 := by cases hf; rfl
    exact ⟨(fresh_15 rfl rfl).1, (fresh_15 rfl rfl).2, fun j hj => absurd hj (by omega)⟩
  · cases hf

theorem test_witness_ExhaustedMap :
    Presents (.map 10 0x40000 33) [] failing ∧ Accepted 10 0x40000 failing ∧ Memory.wf failing.mem = true ∧
    TreePremise failing 10 ∧ AllocPremise failing 10 (4 - pathDepth failing 10 (vpnOf 0x40000)) ∧
    ∃ t, runToResponse 14 failing = .next t ∧ decide (t.rspStatus = .allocatorExhausted) = true :=
  ⟨⟨rfl, Nat.zero_le 4, rfl, rfl, rfl, rfl⟩, ⟨by decide, rfl⟩, by decide, tree_tableP1 rfl rfl, alloc_failing,
    next_with (by decide)⟩
theorem test_witness_UnmapIsIdempotent :
    Presents (.unmap 10 12 0) [] (presenting (.unmap 10 12 0)) ∧ Accepted 10 12 (presenting (.unmap 10 12 0)) ∧
    Memory.wf (presenting (.unmap 10 12 0)).mem = true ∧
    ∃ t, runToResponse 6 (presenting (.unmap 10 12 0)) = .next t ∧
      Presents (.unmap 10 12 7) [] { presenting (.unmap 10 12 7) with mem := t.mem } := by
  obtain ⟨t, h⟩ := next_of (r := runToResponse 6 (presenting (.unmap 10 12 0))) (by decide)
  exact ⟨presents _, ⟨by decide, by decide⟩, by decide, t, h, ⟨rfl, Nat.zero_le 4, rfl, rfl, rfl, rfl⟩⟩

end Sys2Proof.Tests
end

section
/-! Proofs about the static configuration (R8, R31): what `RootCheck` data can say. -/
namespace Sys2Proof.Machine

@[simp] theorem rootAccepts_onlyFrames_iff (frames : List Frame) (root : Frame) :
    rootAccepts (.onlyFrames frames) root = true ↔ root ∈ frames :=
  List.contains_iff_mem

/-- There are 2^52 frame numbers. `Set.Finite` then lists those of a predicate with no enumeration to evaluate. -/
theorem finite_frame : Finite Frame :=
  Finite.of_injective BitVec.toFin fun _ _ => BitVec.eq_of_toFin_eq

theorem exists_list_mem_iff (p : Frame → Bool) : ∃ frames : List Frame, ∀ f, f ∈ frames ↔ p f = true := by
  have := finite_frame
  have accepted : {f | p f = true}.Finite := Set.toFinite _
  exact ⟨accepted.toFinset.toList, fun f => by simp⟩

/-- Settles O10: `onlyFrames` of the finitely many frames at which `p` is true. -/
theorem rootCheckDataSaysEveryPredicate : Obligations.RootCheckDataSaysEveryPredicate := by
  intro p
  obtain ⟨frames, mem_frames⟩ := exists_list_mem_iff p
  refine ⟨.onlyFrames frames, fun f => Bool.eq_iff_iff.mpr ?_⟩
  rw [rootAccepts_onlyFrames_iff, mem_frames]

end Sys2Proof.Machine
end

section
/-! Proofs about what a step leaves alone: the command registers while a command is in flight (R24, R112), the static
configuration and the input pins (R31, R88, R220). -/
namespace Sys2Proof.Machine

/-! The moves of a command in flight -/

theorem keeps_deliver (s : State) : Keeps s (deliver s) := by
  unfold deliver
  split_ifs
  · exact ⟨rfl, rfl, rfl, rfl, rfl, rfl, rfl, rfl, rfl, rfl⟩
  · exact Keeps.refl s

theorem keeps_newFrame_st (s : State) (f : Frame) (code : FsmState) :
    Keeps s { s with newFrame := f, st := code } :=
  ⟨rfl, rfl, rfl, rfl, rfl, rfl, rfl, rfl, rfl, rfl⟩

/-- Only accept writes the command registers, and no move writes the port or an input. -/
theorem Move.keeps {i : Instr} {s t : State} (move : Move i s t) (busy : s.st ≠ .idle) : Keeps s t := by
  have read := keeps_readLogged s
  have written := keeps_slotWritten s
  have answered := (answerTaken_frame s).1
  cases move with
  | accept idle => exact absurd idle busy
  | deliver => exact keeps_deliver s
  | queryMiss | queryUnmapped | queryMapped | unmapMiss => exact read.trans (keeps_respond ..)
  | queryChild | mapChild | unmapChild => exact read.trans (keeps_descend ..)
  | mapAbsent => exact read.trans (keeps_newFrame_st ..)
  | mapGranted => exact answered.trans (keeps_newFrame_st ..)
  | mapExhausted => exact answered.trans (keeps_respond ..)
  | mapLink => exact written.trans (keeps_descend ..)
  | mapLeaf | unmapLeaf => exact written.trans (keeps_respond ..)

/-- With a command in flight and `rst` released, the machine's step is a move of that command. -/
theorem step_busy_move {s t : State} (released : s.rst = false) (busy : s.st ≠ .idle) (h : step s = .next t) :
    levelFits s = true ∧ Move (inFlight s) s t := by
  obtain ⟨-, ⟨reset, -⟩ | ⟨-, idle, -⟩ | ⟨-, -, -, idle, -⟩ | ⟨-, -, fits, move⟩⟩ := step_next h
  · simp [released] at reset
  · exact absurd idle busy
  · exact absurd idle busy
  · exact ⟨fits, move⟩

/-- Settles O28: a step outside `IDLE` is a move of the command in flight. -/
theorem commandRegistersHoldDuringACommand : Obligations.CommandRegistersHoldDuringACommand := by
  intro s t released busy h
  have keeps := (step_busy_move released busy h).2.keeps busy
  exact ⟨keeps.op, keeps.map, keeps.vpn, keeps.ppn, fun i => by rw [keeps.vpn]⟩

/-! The reset step (R220 to R222) -/

/-- An abandoned request leaves the registers and the inputs alone (R222). -/
theorem abandon_state (r : PortRequest) (fate : RequestFate) (s : State) :
    abandon r fate s = { s with
      mem := (abandon r fate s).mem
      allocSupply := (abandon r fate s).allocSupply
      draws := (abandon r fate s).draws
      trace := (abandon r fate s).trace } := by
  cases fate <;> cases r
  case performed.alloc =>
    unfold abandon
    rw [nextAnswer_state]
    rfl
  all_goals rfl

/-- The reset step writes the registers, and of the rest only what a drawn fate, an abandoned request and a transferred
command can change. -/
theorem resetStep_state (s : State) :
    resetStep s = resetRegs { s with
      mem := (resetStep s).mem
      allocSupply := (resetStep s).allocSupply
      cmdPort := (resetStep s).cmdPort
      resetFates := (resetStep s).resetFates
      draws := (resetStep s).draws
      trace := (resetStep s).trace } := by
  cases request : portRequest s with
  | none =>
    rw [resetStep_noRequest request, takeCommand_state]
    rfl
  | some r =>
    rw [resetStep_request request, abandon_state, nextFate_state]
    rfl

/-! The inputs -/

/-- The static configuration and the input pins are the same in both states. -/
structure KeepsInputs (s t : State) : Prop where
  plat : t.plat = s.plat
  released : t.rst = s.rst
  ready : t.rspReady = s.rspReady
  memory : t.memAnswers = s.memAnswers
  allocator : t.allocAnswers = s.allocAnswers

theorem Keeps.inputs {s t : State} (keeps : Keeps s t) : KeepsInputs s t :=
  ⟨keeps.plat, keeps.released, keeps.ready, keeps.memory, keeps.allocator⟩

theorem keepsInputs_accept (c : Command) (s : State) : KeepsInputs s (accept c s) := by
  unfold accept
  split_ifs <;> exact ⟨rfl, rfl, rfl, rfl, rfl⟩

theorem keepsInputs_resetStep (s : State) : KeepsInputs s (resetStep s) := by
  rw [resetStep_state]
  exact ⟨rfl, rfl, rfl, rfl, rfl⟩

/-- In `IDLE` the one move is accept (R122). -/
theorem Move.eq_accept {i : Instr} {s t : State} (move : Move i s t) (idle : s.st = .idle) :
    t = Machine.accept i.command s := by
  cases move with
  | accept => rfl
  | _ => simp_all

theorem Move.keepsInputs {i : Instr} {s t : State} (move : Move i s t) : KeepsInputs s t := by
  by_cases idle : s.st = .idle
  · rw [move.eq_accept idle]
    exact keepsInputs_accept i.command s
  · exact (move.keeps idle).inputs

theorem step_keepsInputs {s t : State} (h : step s = .next t) : KeepsInputs s t := by
  obtain ⟨-, ⟨-, rfl⟩ | ⟨-, -, -, rfl⟩ | ⟨_, _, -, -, -, move⟩ | ⟨-, -, -, move⟩⟩ := step_next h
  · exact keepsInputs_resetStep s
  · exact (Keeps.refl _).inputs
  · obtain ⟨plat, released, ready, memory, allocator⟩ := move.keepsInputs
    exact ⟨plat, released, ready, memory, allocator⟩
  · exact move.keepsInputs

/-- Settles O29: neither a move nor the reset step writes an input. -/
theorem configurationAndPinsAreNeverChanged : Obligations.ConfigurationAndPinsAreNeverChanged := by
  intro s t h
  obtain ⟨plat, released, ready, memory, allocator⟩ := step_keepsInputs h
  exact ⟨plat, released, ready, memory, allocator⟩

end Sys2Proof.Machine
end

section
/-! Proofs about the invariant `Inv` (R22, R27, R33, R89, R230): what it says in each control state, and that every step
keeps it. -/
namespace Sys2Proof.Machine

/-! The checks of the control state, as propositions -/

/-- R22. -/
theorem levelFits_iff {s : State} :
    levelFits s = true ↔ s.st ≠ .code7 ∧
      (s.st = .walkRd ∨ s.st = .walkAlloc ∨ s.st = .walkLink → s.lvl.toNat ≤ 3) ∧
      (s.st = .leafRd ∨ s.st = .leafWr → s.lvl = 4) := by
  unfold levelFits
  cases s.st <;> simp

/-- R33. -/
theorem registersFit_iff {s : State} :
    registersFit s = true ↔ s.st ≠ .code7 ∧
      (s.st = .walkAlloc ∨ s.st = .walkLink → s.opReg = true ∧ s.mapReg = true) ∧
      (s.st = .leafRd → s.opReg = false) ∧ (s.st = .leafWr → s.opReg = true) := by
  unfold registersFit
  cases s.st <;> simp

/-- R27 for every control state, and R89 in `RESP`. -/
theorem responseFits_iff {s : State} :
    responseFits s = true ↔
      (s.rspHit = true → s.rspStatus = .ok) ∧ (s.rspHit = false → s.rspPpn = 0) ∧
      (s.st = .resp → (s.rspHit = true → s.opReg = false) ∧
        (s.rspStatus = .allocatorExhausted → s.opReg = true ∧ s.mapReg = true)) := by
  unfold responseFits
  cases s.rspHit <;> cases s.rspStatus <;> by_cases h : s.st = .resp <;> simp [h]

/-- A level outside the range of the control state stops every command (log entry 10). -/
theorem exec_of_level_misfit {i : Instr} {s : State} (codes : codeFault s = none) (misfit : levelFits s = false) :
    exec i s = .fault .levelOutOfState := by
  have stops (next : Result) : guarded s next = .fault .levelOutOfState := by simp [guarded, codes, misfit]
  cases i with
  | query => exact stops _
  | unmap => exact stops _
  | map => exact stops _

/-- Settles O23: level 4 is above a walking state's range, and every other level is outside a leaf state's. -/
theorem levelOutsideItsRangeStops : Obligations.LevelOutsideItsRangeStops := by
  intro i s hl
  constructor
  · intro walking lvl
    refine exec_of_level_misfit (codeFault_none ?_ hl) (Bool.eq_false_iff.mpr fun fits => ?_)
    · rintro code; simp [code] at walking
    · have := levelFits_walk fits walking
      simp [lvl] at this
  · intro leaf lvl
    refine exec_of_level_misfit (codeFault_none ?_ hl) (Bool.eq_false_iff.mpr fun fits => ?_)
    · rintro code; simp [code] at leaf
    · exact lvl ((levelFits_iff.mp fits).2.2 leaf)

/-! What the transactions keep of the invariant -/

theorem slotWritten_wf {s : State} (memory : s.mem.wf = true) : (slotWritten s).mem.wf = true :=
  writeWord_wf (slotPA_bound ..) memory

theorem inv_readLogged {s : State} (inv : Inv s) : Inv (readLogged s) :=
  ⟨inv.codes, inv.level, inv.registers, inv.response, inv.memory⟩

theorem inv_slotWritten {s : State} (inv : Inv s) : Inv (slotWritten s) :=
  ⟨inv.codes, inv.level, inv.registers, inv.response, slotWritten_wf inv.memory⟩

theorem inv_answerTaken {s : State} (inv : Inv s) : Inv (answerTaken s) := by
  unfold answerTaken
  rw [nextAnswer_state]
  exact ⟨inv.codes, inv.level, inv.registers, inv.response, inv.memory⟩

theorem inv_cmdPort {s : State} (inv : Inv s) (port : List Bundle) : Inv { s with cmdPort := port } :=
  ⟨inv.codes, inv.level, inv.registers, inv.response, inv.memory⟩

/-! What the state changes keep of the invariant -/

/-- A change that answers nothing keeps the response registers legal. -/
theorem Inv.response_of_eq {s t : State} (inv : Inv s) (hit : t.rspHit = s.rspHit) (status : t.rspStatus = s.rspStatus)
    (ppn : t.rspPpn = s.rspPpn) (waiting : t.st ≠ .resp) : responseFits t = true := by
  obtain ⟨okOfHit, zeroOfMiss, -⟩ := responseFits_iff.mp inv.response
  rw [responseFits_iff, hit, status, ppn]
  exact ⟨okOfHit, zeroOfMiss, fun resp => absurd resp waiting⟩

/-- `respond` (R27) keeps the invariant where R89 allows the command the response. -/
theorem inv_respond {s : State} {e : Status} {hit : Bool} {ppn : Frame} (inv : Inv s)
    (okOfHit : hit = true → e = .ok) (zeroOfMiss : hit = false → ppn = 0) (queryOfHit : hit = true → s.opReg = false)
    (mapOfExhausted : e = .allocatorExhausted → s.opReg = true ∧ s.mapReg = true) :
    Inv (respond e hit ppn s) where
  codes := codeFault_none (by simp) (codeFault_eq_none.mp inv.codes).2
  level := rfl
  registers := rfl
  response := responseFits_iff.mpr ⟨okOfHit, zeroOfMiss, fun _ => ⟨queryOfHit, mapOfExhausted⟩⟩
  memory := inv.memory

/-- A response `OK` without a hit is legal for every command. -/
theorem inv_respond_ok {s : State} (inv : Inv s) : Inv (respond .ok false 0 s) :=
  inv_respond inv (by simp) (by simp) (by simp) (by simp)

theorem inv_deliver {s : State} (inv : Inv s) : Inv (deliver s) := by
  unfold deliver
  split_ifs
  · exact ⟨codeFault_none (by simp) (codeFault_eq_none.mp inv.codes).2, rfl, rfl,
      inv.response_of_eq rfl rfl rfl (by simp), inv.memory⟩
  · exact inv

/-- Descending keeps the invariant where the leaf state is that of the command (R124). -/
theorem inv_descend {s : State} {sel : FrameSelect} {leaf : FsmState} (inv : Inv s) (walking : s.lvl.toNat ≤ 3)
    (own : leaf = .leafRd ∧ s.opReg = false ∨ leaf = .leafWr ∧ s.opReg = true) : Inv (descend sel leaf s) := by
  by_cases last : s.lvl = 3
  · rw [descend_leaf last]
    rcases own with ⟨rfl, op⟩ | ⟨rfl, op⟩
    · exact ⟨rfl, rfl, registersFit_iff.mpr (by simp [op]), inv.response_of_eq rfl rfl rfl (by simp), inv.memory⟩
    · exact ⟨rfl, rfl, registersFit_iff.mpr (by simp [op]), inv.response_of_eq rfl rfl rfl (by simp), inv.memory⟩
  · rw [descend_inner last]
    have inner : (s.lvl + 1).toNat ≤ 3 := by
      have next := level_succ walking
      rw [level_three] at last
      simp only [level_three, last, if_false] at next
      omega
    exact ⟨codeFault_none (by simp) (by simp only; omega), decide_eq_true inner, rfl,
      inv.response_of_eq rfl rfl rfl (by simp), inv.memory⟩

/-- A `MAP` in its walk enters `WALK_ALLOC` and `WALK_LINK` at the level it is at (R161, R162). -/
theorem inv_walkAlloc_walkLink {s : State} {f : Frame} {code : FsmState} (inv : Inv s) (walking : s.lvl.toNat ≤ 3)
    (op : s.opReg = true) (map : s.mapReg = true) (own : code = .walkAlloc ∨ code = .walkLink) :
    Inv { s with newFrame := f, st := code } := by
  have ne : code ≠ .code7 ∧ code ≠ .resp := by rcases own with rfl | rfl <;> simp
  refine ⟨codeFault_none ne.1 (codeFault_eq_none.mp inv.codes).2,
    levelFits_iff.mpr ⟨ne.1, fun _ => walking, fun h => ?_⟩, registersFit_iff.mpr ⟨ne.1, fun _ => ⟨op, map⟩, fun h => ?_, fun h => ?_⟩,
    inv.response_of_eq rfl rfl rfl ne.2, inv.memory⟩
  all_goals rcases own with rfl | rfl <;> simp at h

theorem inv_latch {c : Command} {s : State} (inv : Inv s) (idle : s.st = .idle) : Inv (latch c s) where
  codes := codeFault_none (by simp [idle]) (Nat.zero_le 4)
  level := levelFits_iff.mpr (by simp [idle])
  registers := registersFit_iff.mpr (by simp [idle])
  response := inv.response_of_eq rfl rfl rfl (by simp [idle])
  memory := inv.memory

theorem inv_accept {c : Command} {s : State} (inv : Inv s) (idle : s.st = .idle) : Inv (accept c s) := by
  have latched := inv_latch (c := c) inv idle
  unfold accept
  split_ifs
  · exact inv_respond latched (by simp) (by simp) (by simp) (by simp)
  · exact inv_respond latched (by simp) (by simp) (by simp) (by simp)
  · exact ⟨codeFault_none (by simp) (Nat.zero_le 4), rfl, rfl, latched.response_of_eq rfl rfl rfl (by simp),
      latched.memory⟩

/-- Reset registers meet the invariant over every canonical memory (R220). -/
theorem inv_resetRegs {s : State} (memory : s.mem.wf = true) : Inv (resetRegs s) :=
  ⟨rfl, rfl, rfl, rfl, memory⟩

/-! The step -/

theorem Move.keeps_inv {i : Instr} {s t : State} (move : Move i s t) (inv : Inv s) : Inv t := by
  have read := inv_readLogged inv
  have written := inv_slotWritten inv
  have answered := inv_answerTaken inv
  obtain ⟨keepsAnswered, lvlAnswered, -⟩ := answerTaken_frame s
  obtain ⟨-, mapOfWalk, queryOfLeafRd, updateOfLeafWr⟩ := registersFit_iff.mp inv.registers
  obtain ⟨-, walk, -⟩ := levelFits_iff.mp inv.level
  cases move with
  | accept idle => exact inv_accept inv idle
  | deliver => exact inv_deliver inv
  | queryMiss | queryUnmapped | unmapMiss => exact inv_respond_ok read
  | mapLeaf | unmapLeaf => exact inv_respond_ok written
  | queryMapped st => exact inv_respond read (by simp) (by simp) (fun _ => queryOfLeafRd st) (by simp)
  | queryChild st op => exact inv_descend read (walk (.inl st)) (.inl ⟨rfl, op⟩)
  | mapChild st op | unmapChild st op => exact inv_descend read (walk (.inl st)) (.inr ⟨rfl, op⟩)
  | mapAbsent st op map => exact inv_walkAlloc_walkLink read (walk (.inl st)) op map (.inl rfl)
  | mapGranted st =>
    obtain ⟨op, map⟩ := mapOfWalk (.inl st)
    exact inv_walkAlloc_walkLink answered (lvlAnswered ▸ walk (.inr (.inl st))) (keepsAnswered.op.trans op)
      (keepsAnswered.map.trans map) (.inr rfl)
  | mapExhausted st =>
    exact inv_respond answered (by simp) (by simp) (by simp)
      fun _ => keepsAnswered.op ▸ keepsAnswered.map ▸ mapOfWalk (.inl st)
  | mapLink st => exact inv_descend written (walk (.inr (.inr st))) (.inr ⟨rfl, (mapOfWalk (.inr st)).1⟩)

/-- Only an abandoned write can change memory (R222). -/
theorem abandon_mem (r : PortRequest) (fate : RequestFate) (s : State) :
    (abandon r fate s).mem = s.mem ∨
      ∃ a d, r = .write a d ∧ (abandon r fate s).mem = writeWord s.plat.byteOrder s.mem a.toNat d := by
  cases r with
  | read => cases fate <;> exact .inl rfl
  | write a d =>
    cases fate with
    | performed => exact .inr ⟨a, d, rfl, rfl⟩
    | _ => exact .inl rfl
  | alloc =>
    cases fate with
    | performed => exact .inl (nextAnswer_mem s)
    | _ => exact .inl rfl

theorem portRequest_write {s : State} {a d : Word} (request : portRequest s = some (.write a d)) :
    a = slotAddr s ∧ d = writeData s := by
  unfold portRequest at request
  split_ifs at request
  cases st : s.st <;> simp_all

/-- A reset step leaves memory as it was, or with the write in flight performed (R221, R222). -/
theorem resetStep_mem (s : State) : (resetStep s).mem = s.mem ∨ (resetStep s).mem = (slotWritten s).mem := by
  cases request : portRequest s with
  | none =>
    rw [resetStep_noRequest request, takeCommand_state]
    exact .inl rfl
  | some r =>
    rw [resetStep_request request, resetRegs_mem, nextFate_state]
    obtain kept | ⟨a, d, rfl, written⟩ := abandon_mem r (nextFate s).1 { s with
      resetFates := (nextFate s).2.resetFates, draws := (nextFate s).2.draws }
    · exact .inl kept
    · obtain ⟨rfl, rfl⟩ := portRequest_write request
      exact .inr written

theorem inv_resetStep {s : State} (inv : Inv s) : Inv (resetStep s) := by
  have memory : (resetStep s).mem.wf = true := by
    rcases resetStep_mem s with kept | written
    · exact kept ▸ inv.memory
    · exact written ▸ slotWritten_wf inv.memory
  rw [resetStep_state]
  exact inv_resetRegs memory

/-- Settles O17: the reset step, waiting, accept of the bundle presented and a move of the command in flight each keep
the invariant. -/
theorem stepKeepsTheInvariant : Obligations.StepKeepsTheInvariant := by
  intro s t inv h
  obtain ⟨-, ⟨-, rfl⟩ | ⟨-, -, -, rfl⟩ | ⟨_, rest, -, -, -, move⟩ | ⟨-, -, -, move⟩⟩ := step_next h
  · exact inv_resetStep inv
  · exact inv
  · exact move.keeps_inv (inv_cmdPort inv rest)
  · exact move.keeps_inv inv

end Sys2Proof.Machine
end

section
/-! Proofs about the fields of a packed word: the command bundle (R84, R86) and the entry (R113 to R115). -/
namespace Sys2Proof.Machine

theorem unpackCommand_packCommand (c : Command) : unpackCommand (packCommand c) = c := by
  obtain ⟨op, ppnPresent, root, vpn, ppn⟩ := c
  have belowCtl {start len : Nat} (x : BitVec 168) (h : 2 ≤ start) :
      (x ++ BitVec.ofBool ppnPresent ++ BitVec.ofBool op).extractLsb' start len =
        x.extractLsb' (start - 1 - 1) len := by
    rw [BitVec.extractLsb'_append_eq_of_le (by omega), BitVec.extractLsb'_append_eq_of_le (by omega)]
  simp only [unpackCommand, packCommand, Command.mk.injEq]
  refine ⟨?_, ?_, ?_, ?_, ?_⟩
  · simp only [BitVec.getLsbD_append]
    simp
  · simp only [BitVec.getLsbD_append]
    simp
  · exact (belowCtl _ (by decide)).trans BitVec.extractLsb'_append_eq_right
  · refine (belowCtl _ (by decide)).trans ?_
    rw [BitVec.extractLsb'_append_eq_of_le (by decide)]
    exact BitVec.extractLsb'_append_eq_right
  · refine (belowCtl _ (by decide)).trans ?_
    rw [BitVec.extractLsb'_append_eq_of_le (by decide)]
    exact BitVec.extractLsb'_append_eq_left

theorem instr_command (i : Instr) : i.command.instr = i := by
  cases i with
  | query p => rfl
  | unmap => rfl
  | map => rfl

theorem decode_encode (i : Instr) : decode (encode i) = i := by
  rw [decode, encode, unpackCommand_packCommand, instr_command]

theorem pteDec_pteEnc (valid : Bool) (frame : Frame) : pteDec (pteEnc valid frame) = (valid, frame) := by
  have bit : (pteEnc valid frame).getLsbD 0 = valid := by
    simp only [pteEnc, BitVec.getLsbD_append]
    simp
  have field : (pteEnc valid frame).extractLsb' 12 52 = frame :=
    (BitVec.extractLsb'_append_eq_of_le (by decide)).trans BitVec.extractLsb'_append_eq_left
  rw [pteDec, bit, field]

theorem wordFrame_pteEnc (frame : Frame) : wordFrame (pteEnc true frame) = some frame := by
  rw [wordFrame, pteDec_pteEnc]

end Sys2Proof.Machine
end

section
/-! Proofs about the walk of an accepted command (R12, R33): the state it starts in, and that `cur_frame` stays on the
path of the VPN, over the memory as `MAP` links frames into it. -/
namespace Sys2Proof.Machine

/-! The nodes of a path -/

theorem nodeOn_eq_followPath {o : ByteOrder} {m : Memory} {root : Frame} {v : Vpn} {n : Nat} (h : n ≤ 4) :
    nodeOn o m root v n = followPath o m (vpnPath v n) root := by
  have levels : ∀ k ≤ 4, intermediate.take k = (List.range k).map (BitVec.ofNat 3) := by decide
  rw [nodeOn, walkFrom_eq_followPath, levels n h, List.map_map]
  rfl

/-- The next node is the one that the entry at the VPN's next index gives (R70). -/
theorem nodeOn_succ {o : ByteOrder} {m : Memory} {root c : Frame} {v : Vpn} {l : Level} (h : l.toNat ≤ 3)
    (node : nodeOn o m root v l.toNat = some c) :
    nodeOn o m root v (l.toNat + 1) = entryFrame o m c (idx v l) := by
  rw [nodeOn_eq_followPath (by omega)] at node ⊢
  rw [vpnPath_succ, followPath_append, node, BitVec.ofNat_toNat, BitVec.setWidth_eq]
  show followPath o m [idx v l] c = _
  simp only [followPath]
  cases entryFrame o m c (idx v l) <;> rfl

/-- A write to an absent entry leaves every path as it was: a path goes through valid entries only. -/
theorem followPath_write_absent {o : ByteOrder} {m : Memory} {c r f : Frame} {x : Idx} {w : Word} {p : List Idx}
    (absent : entryFrame o m c x = none) (path : followPath o m p r = some f) :
    followPath o (writeWord o m (slotPA c x).toNat w) p r = some f := by
  rw [← path]
  refine followPath_write_other p r ?_
  rintro a y b rfl toEntry rfl
  rw [followPath_append, toEntry] at path
  simp [followPath, absent] at path

theorem nodeOn_write_absent {o : ByteOrder} {m : Memory} {c root f : Frame} {x : Idx} {w : Word} {v : Vpn} {n : Nat}
    (h : n ≤ 4) (absent : entryFrame o m c x = none) (node : nodeOn o m root v n = some f) :
    nodeOn o (writeWord o m (slotPA c x).toNat w) root v n = some f := by
  rw [nodeOn_eq_followPath h] at node ⊢
  exact followPath_write_absent absent node

/-! The state before and within the walk -/

/-- `cur_frame` is the node at `lvl` on the path of `v` from `root`, over canonical memory and with `rst` released. -/
structure AtNode (root : Frame) (v : Vpn) (s : State) : Prop where
  released : s.rst = false
  vpn : s.vpnReg = v
  level : s.lvl.toNat ≤ 4
  node : nodeOn s.plat.byteOrder s.mem root v s.lvl.toNat = some s.curFrame
  memory : s.mem.wf = true

/-- A state between accept and the response. An entry that is to be linked is absent, so that the link changes no node
already passed. -/
structure OnPath (root : Frame) (v : Vpn) (s : State) : Prop extends AtNode root v s where
  busy : s.st ≠ .idle
  unlinked : s.st = .walkAlloc ∨ s.st = .walkLink → slotFrame s = none

section
variable {root : Frame} {v : Vpn} {s : State}

theorem AtNode.readLogged (here : AtNode root v s) : AtNode root v (readLogged s) :=
  ⟨here.released, here.vpn, here.level, here.node, here.memory⟩

theorem AtNode.newFrame_st (here : AtNode root v s) (f : Frame) (code : FsmState) :
    AtNode root v { s with newFrame := f, st := code } :=
  ⟨here.released, here.vpn, here.level, here.node, here.memory⟩

theorem AtNode.answerTaken (here : AtNode root v s) : AtNode root v (answerTaken s) := by
  obtain ⟨keeps, lvl, mem, cur, -⟩ := answerTaken_frame s
  refine ⟨keeps.released.trans here.released, keeps.vpn.trans here.vpn, lvl ▸ here.level, ?_, mem ▸ here.memory⟩
  rw [keeps.plat, mem, lvl, cur]
  exact here.node

/-- Filling an absent entry changes no node already passed. -/
theorem AtNode.slotWritten (here : AtNode root v s) (absent : slotFrame s = none) : AtNode root v (slotWritten s) :=
  ⟨here.released, here.vpn, here.level, nodeOn_write_absent here.level absent here.node, slotWritten_wf here.memory⟩

/-- Descending goes on along the path where the frame selected is the one that the slot's entry gives. -/
theorem AtNode.descend {sel : FrameSelect} {leaf : FsmState} (here : AtNode root v s) (walking : s.lvl.toNat ≤ 3)
    (entry : slotFrame s = some (frameMux sel s)) (own : leaf = .leafRd ∨ leaf = .leafWr) :
    OnPath root v (descend sel leaf s) := by
  have lvl := descend_lvl_toNat (sel := sel) (leaf := leaf) walking
  have entered : (Machine.descend sel leaf s).st ∈ [.walkRd, .leafRd, .leafWr] := by
    rw [descend_st]
    rcases own with rfl | rfl <;> split_ifs <;> decide
  refine ⟨⟨here.released, here.vpn, by omega, ?_, here.memory⟩, fun idle => ?_, ?_⟩
  · rw [lvl]
    exact (nodeOn_succ walking here.node).trans (here.vpn ▸ entry)
  · simp only [idle] at entered
    simp at entered
  · rintro (st | st) <;> rw [st] at entered <;> simp at entered

/-- After the link the slot's entry gives the frame the allocator answered (R163). -/
theorem slotFrame_slotWritten_link (memory : s.mem.wf = true) (st : s.st = .walkLink) :
    slotFrame (slotWritten s) = some s.newFrame := by
  have data : writeData s = pteEnc true s.newFrame := by simp only [writeData, st]
  rw [← wordFrame_pteEnc s.newFrame, ← data]
  exact entryFrame_write_same memory

theorem Move.keeps_onPath {i : Instr} {t : State} (move : Move i s t) (on : OnPath root v s)
    (fits : levelFits s = true) (waits : s.st ≠ .resp) (waiting : t.st ≠ .resp) : OnPath root v t := by
  have here := on.toAtNode
  have walk := (levelFits_iff.mp fits).2.1
  cases move with
  | accept idle => exact absurd idle on.busy
  | deliver resp => exact absurd resp waits
  | queryMiss | queryUnmapped | queryMapped | mapExhausted | mapLeaf | unmapMiss | unmapLeaf =>
    exact absurd rfl waiting
  | queryChild st _ _ child => exact here.readLogged.descend (walk (.inl st)) child (.inl rfl)
  | mapChild st _ _ _ child | unmapChild st _ _ _ child =>
    exact here.readLogged.descend (walk (.inl st)) child (.inr rfl)
  | mapAbsent _ _ _ _ absent => exact ⟨here.readLogged.newFrame_st _ _, by simp, fun _ => absent⟩
  | mapGranted st =>
    refine ⟨here.answerTaken.newFrame_st _ _, by simp, fun _ => ?_⟩
    rw [← on.unlinked (.inl st), Machine.answerTaken, nextAnswer_state]
    rfl
  | mapLink st =>
    exact (here.slotWritten (on.unlinked (.inr st))).descend (walk (.inr (.inr st)))
      (slotFrame_slotWritten_link here.memory st) (.inr rfl)

theorem OnPath.step {t : State} (on : OnPath root v s) (waits : s.st ≠ .resp) (h : step s = .next t)
    (waiting : t.st ≠ .resp) : OnPath root v t := by
  obtain ⟨fits, move⟩ := step_busy_move on.released on.busy h
  exact move.keeps_onPath on fits waits waiting

end

/-! The run -/

/-- What every step between accept and the response keeps, a run keeps until its response. -/
theorem run_keeps_until_response {P : State → Prop}
    (h : ∀ s t, P s → s.st ≠ .resp → step s = .next t → t.st ≠ .resp → P t) :
    ∀ (n : Nat) (s t : State), P s → runToResponse n s = .next t → t.st ≠ .resp → P t
  | 0, s, t, hs, run, _ => by
    cases run
    exact hs
  | n + 1, s, t, hs, run, waiting => by
    by_cases resp : s.st = .resp
    · rw [run_resp _ resp] at run
      cases run
      exact hs
    cases next : step s with
    | next u =>
      rw [run_step resp next] at run
      by_cases answered : u.st = .resp
      · rw [run_resp _ answered] at run
        cases run
        exact absurd answered waiting
      · exact run_keeps_until_response h n u t (h s u hs resp next answered) run waiting
    | fault f => simp [runToResponse, resp, next] at run
    | refused r => simp [runToResponse, resp, next] at run

/-- The state in which the walk of a command starts: the command latched and gone from the port (R122). -/
def walkStart (c : Command) (rest : List Bundle) (s : State) : State :=
  { latch c { s with cmdPort := rest } with st := .walkRd }

/-- Accept without an error (R122). -/
theorem step_accepted {i : Instr} {rest : List Bundle} {s : State} (presents : Presents i rest s)
    (accepted : Accepted i.command.root i.command.vpn s) : step s = .next (walkStart i.command rest s) := by
  have codes : codeFault s = none := codeFault_none (by simp [presents.idle]) presents.level
  rw [step_presented codes presents.released presents.idle presents.port, decode_encode,
    exec_idle (s := { s with cmdPort := rest }) presents.idle presents.level]
  simp [accept, accepted.range, accepted.root, walkStart]

theorem live_walkStart {i : Instr} {rest : List Bundle} {s : State} (presents : Presents i rest s) :
    Live (walkStart i.command rest s) :=
  ⟨presents.released, presents.memory, presents.allocator⟩

theorem onPath_walkStart {i : Instr} {rest : List Bundle} {s : State} (presents : Presents i rest s)
    (memory : s.mem.wf = true) :
    OnPath i.command.root (vpnOf i.command.vpn) (walkStart i.command rest s) :=
  ⟨⟨presents.released, rfl, Nat.zero_le 4, rfl, memory⟩, by simp [walkStart], by simp [walkStart]⟩

/-- The first `k` steps of the walk go through the first `k` entries of the path where these are valid at accept. -/
theorem run_through_valid {i : Instr} {rest : List Bundle} {s : State} {k : Nat} (presents : Presents i rest s)
    (accepted : Accepted i.command.root i.command.vpn s)
    (valid : k ≤ pathDepth s i.command.root (vpnOf i.command.vpn)) :
    ∃ t : State, runToResponse (k + 1) s = .next t ∧ t.lvl.toNat = k ∧
      nodeOn s.plat.byteOrder s.mem i.command.root (vpnOf i.command.vpn) k = some t.curFrame ∧
      t.mem = s.mem ∧ (k < 4 → t.st = .walkRd) ∧ (k = 4 → t.st = .leafRd ∨ t.st = .leafWr) := by
  rw [pathDepth, ← lastLevels_four] at valid
  obtain ⟨t, run, -, lvl, mem, node, st, -⟩ :=
    walk_loop k 4 (walkStart i.command rest s) (live_walkStart presents) rfl valid fun _ => rfl
  have lvl : t.lvl.toNat = k := lvl.trans (Nat.zero_add k)
  have st : t.st =
      if k = 0 then .walkRd else if k = 4 then (if i.command.op then .leafWr else .leafRd) else .walkRd := by
    rw [st, show (walkStart i.command rest s).lvl.toNat + k = k from Nat.zero_add k]
    rfl
  refine ⟨t, ?_, lvl, ?_, mem, fun inner => ?_, fun leaf => ?_⟩
  · rw [run_step (by simp [presents.idle]) (step_accepted presents accepted)]
    have := run 0
    rwa [Nat.zero_add] at this
  · rw [nodeOn, ← lastLevels_four]
    exact node
  · simp [st, inner.ne]
  · subst leaf
    cases op : i.command.op <;> simp [st, op]

/-- Settles O48: the steps through the entries valid at accept, and `OnPath` in every state before the response. -/
theorem walkStaysOnThePath : Obligations.WalkStaysOnThePath := by
  intro i rest s presents accepted
  refine ⟨fun k valid => run_through_valid presents accepted valid, fun memory n t run waiting => ?_⟩
  rw [run_step (by simp [presents.idle]) (step_accepted presents accepted)] at run
  have on := run_keeps_until_response (fun _ _ on waits h waiting => on.step waits h waiting) n _ t
    (onPath_walkStart presents memory) run waiting
  exact ⟨on.vpn, on.level, on.node⟩

end Sys2Proof.Machine
end

section
/-! Proofs about memory: the slot address (R52, R53) and the two transactions at any slot (R54, R55, R59). -/
namespace Sys2Proof.Machine

/-! The slot address -/

theorem slotPA_in_frame (f : Frame) (i : Idx) :
    f.toNat * 4096 ≤ (slotPA f i).toNat ∧ (slotPA f i).toNat ≤ f.toNat * 4096 + 4088 := by
  have := i.isLt
  rw [slotPA_toNat]
  omega

theorem slotPA_inj {f g : Frame} {i j : Idx} (same : slotPA f i = slotPA g j) : f = g ∧ i = j := by
  by_contra distinct
  have apart := slotPA_ne (mt Prod.mk.inj distinct)
  rw [same] at apart
  omega

theorem slotPA_le (f : Frame) (i : Idx) : (slotPA f i).toNat ≤ 0xFFFFFFFFFFFFFFF8 := by
  have := slotPA_bound f i
  omega

/-- Settles O8: a slot's eight bytes lie in its frame and below 2^64, and those of distinct slots lie apart. -/
theorem slotAddressProperties : Obligations.SlotAddressProperties :=
  ⟨fun f i => ⟨slotPA_aligned f i, slotPA_in_frame f i⟩, fun _ _ _ _ => slotPA_inj, by decide, slotPA_le⟩

/-! The transactions at a slot -/

theorem memRead_slotPA {s : State} (f : Frame) (i : Idx) (answers : s.memAnswers = true) :
    memRead (slotPA f i) s =
      .ok (entryAt s f i, logEvent (.memRead (slotPA f i) (some (entryAt s f i))) s) := by
  rw [memRead, if_neg (by simp [slotPA_aligned]), if_pos answers]
  rfl

theorem memWrite_slotPA {s : State} (f : Frame) (i : Idx) (v : Word) (answers : s.memAnswers = true) :
    memWrite (slotPA f i) v s =
      .ok (logEvent (.memWrite (slotPA f i) v true)
        { s with mem := writeWord s.plat.byteOrder s.mem (slotPA f i).toNat v }) := by
  rw [memWrite, if_neg (by simp [slotPA_aligned]), if_pos answers]

/-- Settles O12: the write answers, and the laws of a word write give its slot, the other slots and canonical form. -/
theorem writeChangesOneSlot : Obligations.WriteChangesOneSlot := by
  intro s f i v memory answers
  exact ⟨_, memWrite_slotPA f i v answers, rfl, entryOf_writeWord_same memory,
    fun g j other => entryOf_writeWord_other other.symm, writeWord_wf (slotPA_bound f i) memory⟩

/-- Settles O13: a read answers the slot's entry, and O12 says what that is, and that memory still answers, after a
write. -/
theorem readReturnsTheLatestWrite : Obligations.ReadReturnsTheLatestWrite := by
  intro s f i v memory answers
  refine ⟨memRead_slotPA f i answers, fun t write => ?_⟩
  obtain ⟨t', write', frame, entry, -, -⟩ := writeChangesOneSlot s f i v memory answers
  obtain rfl : t' = t := Except.ok.inj (write'.symm.trans write)
  have answers' : t'.memAnswers = true := by rw [frame]; exact answers
  exact ⟨_, entry ▸ memRead_slotPA f i answers'⟩

end Sys2Proof.Machine
end

section
/-! Proofs about the encoding of commands and responses (R84 to R95). -/
namespace Sys2Proof.Machine

/-! Commands -/

/-- The fields of a bundle lie side by side and cover it (R84). -/
theorem packCommand_unpackCommand (b : Bundle) : packCommand (unpackCommand b) = b := by
  have bit (i : Nat) : BitVec.ofBool (b.getLsbD i) = b.extractLsb' i 1 :=
    BitVec.eq_of_getLsbD_eq fun j hj => by
      obtain rfl : j = 0 := by omega
      simp
  calc packCommand (unpackCommand b)
      = b.extractLsb' 118 52 ++ b.extractLsb' 54 64 ++ b.extractLsb' 2 52 ++ b.extractLsb' 1 1 ++ b.extractLsb' 0 1 := by
        rw [← bit, ← bit]; rfl
    _ = b.extractLsb' 0 170 := by
        rw [BitVec.extractLsb'_append_extractLsb'_eq_extractLsb' (show 118 = 54 + 64 from rfl),
          BitVec.extractLsb'_append_extractLsb'_eq_extractLsb' (show 54 = 2 + 52 from rfl),
          BitVec.extractLsb'_append_extractLsb'_eq_extractLsb' (show 2 = 1 + 1 from rfl),
          BitVec.extractLsb'_append_extractLsb'_eq_extractLsb' (show 1 = 0 + 1 from rfl)]
    _ = b := BitVec.extractLsb'_eq_self

/-- Each of the four control patterns is that of the command it selects (R86). -/
theorem command_instr (c : Command) : c.instr.command = c := by
  obtain ⟨op, ppnPresent, root, vpn, ppn⟩ := c
  cases op with
  | false => rfl
  | true => cases ppnPresent <;> rfl

theorem encode_decode (b : Bundle) : encode (decode b) = b := by
  rw [encode, decode, command_instr, packCommand_unpackCommand]

/-- Settles O2: unpacking undoes packing, and the control bits of a command select that command. -/
theorem decodeOfEncodeIsTheCommand : Obligations.DecodeOfEncodeIsTheCommand :=
  decode_encode

/-- Settles O3: packing undoes unpacking, and no control pattern is lost. -/
theorem encodeOfDecodeIsTheBundle : Obligations.EncodeOfDecodeIsTheBundle :=
  encode_decode

theorem decode_eq_of_encode {i : Instr} {b : Bundle} (h : encode i = b) : decode b = i := by
  rw [← h, decode_encode]

/-- Settles O1: each worked bundle is the encoding of its command. -/
theorem workedEncodingsDecode : Obligations.WorkedEncodingsDecode :=
  ⟨decode_eq_of_encode (by decide), decode_eq_of_encode (by decide), decode_eq_of_encode (by decide),
    decode_eq_of_encode (by decide)⟩

/-- Settles O4: the three cases of the decoder's match on the control bits. -/
theorem controlBitsSelectTheCommand : Obligations.ControlBitsSelectTheCommand := by
  intro b
  refine ⟨fun op => ?_, fun op present => ?_, fun op present => ?_⟩
  · simp only [decode, unpackCommand, Command.instr, op]
  · simp only [decode, unpackCommand, Command.instr, op, present]
  · simp only [decode, unpackCommand, Command.instr, op, present]

/-! Responses -/

theorem rspBundle_status (s : State) : (rspBundle s).extractLsb' 0 2 = statusCode s.rspStatus :=
  BitVec.extractLsb'_append_eq_right

theorem rspBundle_hit (s : State) : (rspBundle s).getLsbD 2 = s.rspHit := by
  simp only [rspBundle, BitVec.getLsbD_append]
  simp

theorem rspBundle_ppn (s : State) : (rspBundle s).extractLsb' 3 52 = s.rspPpn :=
  calc (rspBundle s).extractLsb' 3 52
      = (s.rspPpn ++ BitVec.ofBool s.rspHit).extractLsb' 1 52 := BitVec.extractLsb'_append_eq_of_le (by decide)
    _ = s.rspPpn := BitVec.extractLsb'_append_eq_left

/-- Settles O11: the three fields of the packed response, and the code of each status. -/
theorem responseBundlePacksTheRegisters : Obligations.ResponseBundlePacksTheRegisters :=
  ⟨fun s => ⟨rspBundle_status s, rspBundle_hit s, rspBundle_ppn s⟩, rfl, rfl, rfl, rfl⟩

end Sys2Proof.Machine
end

section
/-! Proofs about the fields a command ignores (R87): a `QUERY` and an `UNMAP` move alike whatever the registers hold that
latch them. -/
namespace Sys2Proof.Machine

/-! Steps and runs -/

/-- A move is what `exec` answers wherever the codes and the level fit: the converse of `exec_next`. -/
theorem Move.exec_eq {i : Instr} {s t : State} (move : Move i s t) (codes : codeFault s = none)
    (fits : levelFits s = true) : exec i s = .next t := by
  have level := (codeFault_eq_none.mp codes).2
  have through := fun r => guarded_of_fits (r := r) codes fits
  cases move with
  | accept idle => exact exec_idle idle level
  | deliver resp => exact exec_resp resp level
  | queryMiss st op mem entry | queryChild st op mem entry =>
    simp [exec, execQuery, through, st, op, queryWalkRd_eq mem, entry]
  | queryUnmapped st mem entry | queryMapped st mem entry =>
    simp [exec, execQuery, through, st, queryLeafRd_eq mem, entry]
  | mapAbsent st op map mem entry | mapChild st op map mem entry =>
    simp [exec, execMap, through, st, op, map, mapWalkRd_eq mem, entry]
  | mapGranted st alloc answer | mapExhausted st alloc answer =>
    simp [exec, execMap, through, st, mapWalkAlloc_eq alloc, answer]
  | mapLink st mem => simp [exec, execMap, through, st, mapWalkLink_eq mem]
  | mapLeaf st map mem => simp [exec, execMap, through, st, map, mapLeafWr_eq mem]
  | unmapMiss st op map mem entry | unmapChild st op map mem entry =>
    simp [exec, execUnmap, through, st, op, map, unmapWalkRd_eq mem, entry]
  | unmapLeaf st map mem => simp [exec, execUnmap, through, st, map, unmapLeafWr_eq mem]

theorem exists_step_of_run {n : Nat} {s t : State} (waits : s.st ≠ .resp) (run : runToResponse (n + 1) s = .next t) :
    ∃ u, step s = .next u ∧ runToResponse n u = .next t := by
  cases next : step s with
  | next u => exact ⟨u, rfl, run_step waits next ▸ run⟩
  | fault f => simp [runToResponse, waits, next] at run
  | refused r => simp [runToResponse, waits, next] at run

/-- A change of registers that commutes with every step of a run commutes with the run. -/
theorem run_commutes {P : State → Prop} {f : State → State} (sameSt : ∀ s, (f s).st = s.st)
    (h : ∀ s t, P s → s.st ≠ .resp → step s = .next t → step (f s) = .next (f t) ∧ P t) :
    ∀ (n : Nat) (s t : State), P s → runToResponse n s = .next t → runToResponse n (f s) = .next (f t)
  | 0, s, t, _, run => by
    cases run
    rfl
  | n + 1, s, t, hs, run => by
    by_cases resp : s.st = .resp
    · rw [run_resp _ resp] at run
      cases run
      exact run_resp _ ((sameSt s).trans resp)
    · obtain ⟨u, next, run⟩ := exists_step_of_run resp run
      obtain ⟨next', hu⟩ := h s u hs resp next
      rw [run_step (sameSt s ▸ resp) next']
      exact run_commutes sameSt h n u t hu run

/-- A run from `IDLE` with `rst` at 1: there is no request to abandon, the presented bundle leaves the port, and the
registers reset. -/
theorem run_reset_idle {b : Bundle} {rest : List Bundle} {n : Nat} {s : State} (codes : codeFault s = none)
    (reset : s.rst = true) (idle : s.st = .idle) (port : s.cmdPort = b :: rest) :
    runToResponse (n + 1) s = runToResponse n (resetRegs { s with cmdPort := rest }) := by
  have request : portRequest s = none := by simp [portRequest, idle]
  have next := step_reset codes reset
  rw [resetStep_noRequest request, takeCommand_state, if_pos idle, port] at next
  exact run_step (by simp [idle]) next

/-- A run from `IDLE` with `rst` released: the command presented is accepted (R122). -/
theorem run_accept {i : Instr} {rest : List Bundle} {n : Nat} {s : State} (codes : codeFault s = none)
    (released : s.rst = false) (idle : s.st = .idle) (port : s.cmdPort = encode i :: rest) :
    runToResponse (n + 1) s = runToResponse n (accept i.command { s with cmdPort := rest }) := by
  have next := step_presented codes released idle port
  rw [decode_encode, exec_idle (s := { s with cmdPort := rest }) idle (codeFault_eq_none.mp codes).2] at next
  exact run_step (by simp [idle]) next

/-! The ignored registers -/

/-- The registers that latch the fields a `QUERY` or an `UNMAP` ignores, at other values. -/
def relatch (mapReg : Bool) (ppnReg : Frame) (s : State) : State := { s with mapReg := mapReg, ppnReg := ppnReg }

/-- A `QUERY`, or an `UNMAP` with the control bit that makes it one, is in flight or has its response. -/
inductive Ignoring (mapReg : Bool) (s : State) : Prop
  | query : s.opReg = false → s.st = .walkRd ∨ s.st = .leafRd ∨ s.st = .resp → Ignoring mapReg s
  | unmap : s.opReg = true → s.mapReg = false → mapReg = false → s.st = .walkRd ∨ s.st = .leafWr ∨ s.st = .resp →
      Ignoring mapReg s

theorem accept_relatch (c : Command) (mapReg : Bool) (ppnReg : Frame) (s : State) :
    accept { c with ppnPresent := mapReg, ppn := ppnReg } s = relatch mapReg ppnReg (accept c s) := by
  unfold accept
  split_ifs <;> rfl

theorem accept_st (c : Command) (s : State) : (accept c s).st = .walkRd ∨ (accept c s).st = .resp := by
  unfold accept
  split_ifs <;> simp [raiseError]

theorem accept_opReg (c : Command) (s : State) : (accept c s).opReg = c.op := by
  unfold accept
  split_ifs <;> rfl

theorem accept_mapReg (c : Command) (s : State) : (accept c s).mapReg = c.ppnPresent := by
  unfold accept
  split_ifs <;> rfl

theorem descend_st_or (sel : FrameSelect) (leaf : FsmState) (s : State) :
    (descend sel leaf s).st = .walkRd ∨ (descend sel leaf s).st = leaf := by
  rw [descend_st]
  split_ifs <;> simp

section
variable {r r' q q' : Frame} {v v' : Word} {s t : State}

theorem Move.relatch_query {p p' : Bool} (move : Move (.query p r v q) s t) (busy : s.st ≠ .idle) (waits : s.st ≠ .resp)
    (mapReg : Bool) (ppnReg : Frame) :
    Move (.query p' r' v' q') (relatch mapReg ppnReg s) (relatch mapReg ppnReg t) := by
  cases move with
  | accept idle => exact absurd idle busy
  | deliver resp => exact absurd resp waits
  | queryMiss st op mem entry => exact .queryMiss st op mem entry
  | queryChild st op mem entry => exact .queryChild st op mem entry
  | queryUnmapped st mem entry => exact .queryUnmapped st mem entry
  | queryMapped st mem entry => exact .queryMapped st mem entry

/-- `UNMAP` writes the word 0, whatever `ppn_reg` holds (R121). -/
theorem writeData_relatch (st : s.st = .leafWr) (map : s.mapReg = false) (ppnReg : Frame) :
    writeData (relatch false ppnReg s) = writeData s := by
  simp [writeData, relatch, st, map]

theorem slotWritten_relatch (st : s.st = .leafWr) (map : s.mapReg = false) (ppnReg : Frame) :
    slotWritten (relatch false ppnReg s) = relatch false ppnReg (slotWritten s) := by
  unfold slotWritten
  rw [writeData_relatch st map]
  rfl

theorem Move.relatch_unmap (move : Move (.unmap r v q) s t) (busy : s.st ≠ .idle) (waits : s.st ≠ .resp)
    (ppnReg : Frame) :
    Move (.unmap r' v' q') (relatch false ppnReg s) (relatch false ppnReg t) := by
  cases move with
  | accept idle => exact absurd idle busy
  | deliver resp => exact absurd resp waits
  | unmapMiss st op _ mem entry => exact .unmapMiss st op rfl mem entry
  | unmapChild st op _ mem entry => exact .unmapChild st op rfl mem entry
  | unmapLeaf st map mem =>
    have written := slotWritten_relatch st map ppnReg
    have move : Move (.unmap r' v' q') (relatch false ppnReg s) _ := .unmapLeaf st rfl mem
    rwa [written] at move

theorem Move.query_st {p : Bool} (move : Move (.query p r v q) s t) (busy : s.st ≠ .idle) (waits : s.st ≠ .resp) :
    t.st = .walkRd ∨ t.st = .leafRd ∨ t.st = .resp := by
  cases move with
  | accept idle => exact absurd idle busy
  | deliver resp => exact absurd resp waits
  | queryMiss | queryUnmapped | queryMapped => exact .inr (.inr rfl)
  | queryChild => exact (descend_st_or ..).imp_right .inl

theorem Move.unmap_st (move : Move (.unmap r v q) s t) (busy : s.st ≠ .idle) (waits : s.st ≠ .resp) :
    t.st = .walkRd ∨ t.st = .leafWr ∨ t.st = .resp := by
  cases move with
  | accept idle => exact absurd idle busy
  | deliver resp => exact absurd resp waits
  | unmapMiss | unmapLeaf => exact .inr (.inr rfl)
  | unmapChild => exact (descend_st_or ..).imp_right .inl

end

/-! The step and the run -/

theorem inFlight_query {s : State} (op : s.opReg = false) (st : s.st = .walkRd ∨ s.st = .leafRd ∨ s.st = .resp) :
    inFlight s = .query s.mapReg s.curFrame (s.vpnReg.setWidth 64) s.ppnReg := by
  rcases st with st | st | st <;> simp [inFlight, st, op]

theorem inFlight_unmap {s : State} (op : s.opReg = true) (map : s.mapReg = false)
    (st : s.st = .walkRd ∨ s.st = .leafWr ∨ s.st = .resp) :
    inFlight s = .unmap s.curFrame (s.vpnReg.setWidth 64) s.ppnReg := by
  rcases st with st | st | st <;> simp [inFlight, st, op, map]

theorem Ignoring.busy {mapReg : Bool} {s : State} (ignoring : Ignoring mapReg s) : s.st ≠ .idle := by
  rintro idle
  cases ignoring with
  | query _ st => simp [idle] at st
  | unmap _ _ _ st => simp [idle] at st

/-- A step before the response does not depend on the ignored registers. -/
theorem step_relatch {mapReg : Bool} {ppnReg : Frame} {s t : State} (ignoring : Ignoring mapReg s)
    (released : s.rst = false) (waits : s.st ≠ .resp) (h : step s = .next t) :
    step (relatch mapReg ppnReg s) = .next (relatch mapReg ppnReg t) ∧ Ignoring mapReg t ∧ t.rst = false := by
  have busy := ignoring.busy
  have codes := (step_next h).1
  obtain ⟨fits, move⟩ := step_busy_move released busy h
  have keeps := move.keeps busy
  rw [step_inFlight (s := relatch mapReg ppnReg s) codes released busy]
  cases ignoring with
  | query op st =>
    rw [inFlight_query op st] at move
    rw [inFlight_query (s := relatch mapReg ppnReg s) op st]
    exact ⟨(move.relatch_query busy waits mapReg ppnReg).exec_eq codes fits,
      .query (keeps.op.trans op) (move.query_st busy waits), keeps.released.trans released⟩
  | unmap op map same st =>
    subst same
    rw [inFlight_unmap op map st] at move
    rw [inFlight_unmap (s := relatch false ppnReg s) op rfl st]
    exact ⟨(move.relatch_unmap busy waits ppnReg).exec_eq codes fits,
      .unmap (keeps.op.trans op) (keeps.map.trans map) rfl (move.unmap_st busy waits), keeps.released.trans released⟩

theorem run_relatch {mapReg : Bool} {ppnReg : Frame} {n : Nat} {s t : State} (ignoring : Ignoring mapReg s)
    (released : s.rst = false) (run : runToResponse n s = .next t) :
    runToResponse n (relatch mapReg ppnReg s) = .next (relatch mapReg ppnReg t) :=
  run_commutes (P := fun s => Ignoring mapReg s ∧ s.rst = false) (f := relatch mapReg ppnReg) (fun _ => rfl)
    (fun _ _ h => step_relatch h.1 h.2) n s t ⟨ignoring, released⟩ run

theorem ignoring_accept_query {c : Command} (op : c.op = false) (mapReg : Bool) (s : State) :
    Ignoring mapReg (accept c s) :=
  .query ((accept_opReg c s).trans op) ((accept_st c s).imp_right .inr)

theorem ignoring_accept_unmap {c : Command} (op : c.op = true) (map : c.ppnPresent = false) (s : State) :
    Ignoring false (accept c s) :=
  .unmap ((accept_opReg c s).trans op) ((accept_mapReg c s).trans map) rfl ((accept_st c s).imp_right .inr)

/-- Settles O47: with `rst` at 1 both commands leave the port and the registers reset; else both are accepted, and their
states differ in the ignored registers only, which no later step reads. -/
theorem ignoredFieldsDoNotChangeTheRun : Obligations.IgnoredFieldsDoNotChangeTheRun := by
  intro i j rest s t n fields idle port run
  obtain ⟨other, ignoring⟩ : j.command = { i.command with ppnPresent := j.command.ppnPresent, ppn := j.command.ppn } ∧
      ∀ s, Ignoring j.command.ppnPresent (accept i.command s) := by
    obtain ⟨_, _, _, _, _, _, rfl, rfl⟩ | ⟨_, _, _, _, rfl, rfl⟩ := fields
    · exact ⟨rfl, ignoring_accept_query rfl _⟩
    · exact ⟨rfl, ignoring_accept_unmap rfl rfl⟩
  obtain ⟨_, next, -⟩ := exists_step_of_run (by simp [idle]) run
  have codes := (step_next next).1
  obtain reset | released := Bool.eq_false_or_eq_true s.rst
  · rw [run_reset_idle codes reset idle port] at run
    exact ⟨t.mapReg, t.ppnReg,
      (run_reset_idle (s := { s with cmdPort := encode j :: rest }) codes reset idle rfl).trans run⟩
  · rw [run_accept codes released idle port] at run
    refine ⟨j.command.ppnPresent, j.command.ppn,
      (run_accept (s := { s with cmdPort := encode j :: rest }) codes released idle rfl).trans ?_⟩
    rw [other, accept_relatch]
    exact run_relatch (ignoring _) ((keepsInputs_accept ..).released.trans released) run

end Sys2Proof.Machine
end

section
/-! Proofs about the responses of a command (R89): every step of the walk answers or comes nearer to the leaf, and what
an answer can be. -/
namespace Sys2Proof.Machine

/-! The walk and its response -/

/-- Between accept and the response: the level and the command registers fit the control state, and the collaborators
answer. -/
structure Walking (s : State) : Prop extends Live s where
  busy : s.st ≠ .idle
  waits : s.st ≠ .resp
  level : levelFits s = true
  registers : registersFit s = true

/-- The response of an accepted command is up, and R89 allows it. -/
structure Responds (s : State) : Prop where
  up : s.st = .resp
  response : responseFits s = true
  status : s.rspStatus = .ok ∨ s.rspStatus = .allocatorExhausted

/-- The most steps one level costs: `MAP` may have to read, request and link (R161 to R163), the others only read. -/
def levelSteps (s : State) : Nat := if s.opReg && s.mapReg then 3 else 1

/-- The most steps from a state of the walk to the leaf state. -/
def stepsToLeaf (s : State) : Nat :=
  match s.st with
  | .walkRd => levelSteps s * (4 - s.lvl.toNat)
  | .walkAlloc => levelSteps s * (4 - s.lvl.toNat) - 1
  | .walkLink => levelSteps s * (4 - s.lvl.toNat) - 2
  | .idle | .leafRd | .leafWr | .resp | .code7 => 0

theorem levelSteps_pos (s : State) : 0 < levelSteps s := by
  unfold levelSteps
  split_ifs <;> omega

theorem levelSteps_map {s : State} (op : s.opReg = true) (map : s.mapReg = true) : levelSteps s = 3 := by
  simp [levelSteps, op, map]

theorem responds_ok (s : State) : Responds (respond .ok false 0 s) :=
  ⟨rfl, responseFits_iff.mpr (by simp), .inl rfl⟩

theorem responds_hit {s : State} (f : Frame) (op : s.opReg = false) : Responds (respond .ok true f s) :=
  ⟨rfl, responseFits_iff.mpr (by simp [op]), .inl rfl⟩

theorem responds_exhausted {s : State} (op : s.opReg = true) (map : s.mapReg = true) :
    Responds (raiseError .allocatorExhausted s) :=
  ⟨rfl, responseFits_iff.mpr (by simp [raiseError, op, map]), .inr rfl⟩

/-- Descending enters the next level, and from level 3 the command's own leaf state (R124). -/
theorem walking_descend {s : State} {sel : FrameSelect} {leaf : FsmState} (live : Live s) (walk : s.lvl.toNat ≤ 3)
    (own : leaf = .leafRd ∧ s.opReg = false ∨ leaf = .leafWr ∧ s.opReg = true) :
    Walking (descend sel leaf s) ∧ stepsToLeaf (descend sel leaf s) = levelSteps s * (3 - s.lvl.toNat) := by
  have live' : Live (descend sel leaf s) := (keeps_descend s sel leaf).live live
  by_cases last : s.lvl = 3
  · have steps : levelSteps s * (3 - s.lvl.toNat) = 0 := by simp [last]
    rw [steps]
    rw [descend_leaf last] at live' ⊢
    rcases own with ⟨rfl, op⟩ | ⟨rfl, op⟩
    · exact ⟨⟨live', by simp, by simp, rfl, registersFit_iff.mpr (by simp [op])⟩, rfl⟩
    · exact ⟨⟨live', by simp, by simp, rfl, registersFit_iff.mpr (by simp [op])⟩, rfl⟩
  · have next := level_succ walk
    rw [if_neg last] at next
    have inner : (s.lvl + 1).toNat ≤ 3 := by
      rw [level_three] at last
      omega
    rw [descend_inner last] at live' ⊢
    refine ⟨⟨live', by simp, by simp, decide_eq_true inner, rfl⟩, ?_⟩
    show levelSteps s * (4 - (s.lvl + 1).toNat) = _
    rw [next, Nat.add_sub_add_right 3 1]

/-- A `MAP` in its walk goes on at the same level when it requests and when it links (R161, R162). -/
theorem walking_walkAlloc_walkLink {s : State} {f : Frame} {code : FsmState} (live : Live s) (walk : s.lvl.toNat ≤ 3)
    (op : s.opReg = true) (map : s.mapReg = true) (own : code = .walkAlloc ∨ code = .walkLink) :
    Walking { s with newFrame := f, st := code } := by
  have live' : Live { s with newFrame := f, st := code } := (keeps_newFrame_st s f code).live live
  rcases own with rfl | rfl
  · exact ⟨live', by simp, by simp, decide_eq_true walk, registersFit_iff.mpr (by simp [op, map])⟩
  · exact ⟨live', by simp, by simp, decide_eq_true walk, registersFit_iff.mpr (by simp [op, map])⟩

theorem levelSteps_mul {s : State} (walk : s.lvl.toNat ≤ 3) :
    levelSteps s * (4 - s.lvl.toNat) = levelSteps s * (3 - s.lvl.toNat) + levelSteps s := by
  rw [Nat.succ_sub walk, Nat.mul_succ]

theorem walking_descend_child {s : State} {f : Frame} {leaf : FsmState} (walking : Walking s) (st : s.st = .walkRd)
    (own : leaf = .leafRd ∧ s.opReg = false ∨ leaf = .leafWr ∧ s.opReg = true) :
    Walking (descend (.child f) leaf (readLogged s)) ∧
      stepsToLeaf (descend (.child f) leaf (readLogged s)) < stepsToLeaf s := by
  have walk := levelFits_walk walking.level (.inl st)
  obtain ⟨next, steps⟩ := walking_descend (sel := .child f) ((keeps_readLogged s).live walking.toLive) walk own
  have before : stepsToLeaf s = levelSteps s * (4 - s.lvl.toNat) := by simp only [stepsToLeaf, st]
  have after : stepsToLeaf (descend (.child f) leaf (readLogged s)) = levelSteps s * (3 - s.lvl.toNat) := steps
  have := levelSteps_pos s
  rw [levelSteps_mul walk] at before
  exact ⟨next, by omega⟩

theorem Move.progress {i : Instr} {s t : State} (move : Move i s t) (walking : Walking s) :
    Responds t ∨ Walking t ∧ stepsToLeaf t < stepsToLeaf s := by
  obtain ⟨-, mapOfWalk, queryOfLeafRd, -⟩ := registersFit_iff.mp walking.registers
  obtain ⟨-, walk, -⟩ := levelFits_iff.mp walking.level
  obtain ⟨keepsAnswered, lvlAnswered, -⟩ := answerTaken_frame s
  cases move with
  | accept idle => exact absurd idle walking.busy
  | deliver resp => exact absurd resp walking.waits
  | queryMiss | queryUnmapped | unmapMiss | mapLeaf | unmapLeaf => exact .inl (responds_ok _)
  | queryMapped st => exact .inl (responds_hit _ (queryOfLeafRd st))
  | queryChild st op => exact .inr (walking_descend_child walking st (.inl ⟨rfl, op⟩))
  | mapChild st op | unmapChild st op => exact .inr (walking_descend_child walking st (.inr ⟨rfl, op⟩))
  | mapAbsent st op map =>
    have walk := walk (.inl st)
    refine .inr ⟨walking_walkAlloc_walkLink ((keeps_readLogged s).live walking.toLive) walk op map (.inl rfl), ?_⟩
    show levelSteps s * (4 - s.lvl.toNat) - 1 < _
    simp only [stepsToLeaf, st, levelSteps_map op map]
    omega
  | mapGranted st =>
    have walk := walk (.inr (.inl st))
    obtain ⟨op, map⟩ := mapOfWalk (.inl st)
    have op' := keepsAnswered.op.trans op
    have map' := keepsAnswered.map.trans map
    have live := keepsAnswered.live walking.toLive
    refine .inr ⟨walking_walkAlloc_walkLink live (lvlAnswered ▸ walk) op' map' (.inr rfl), ?_⟩
    show levelSteps (answerTaken s) * (4 - (answerTaken s).lvl.toNat) - 2 < _
    simp only [stepsToLeaf, st, levelSteps_map op map, levelSteps_map op' map', lvlAnswered]
    omega
  | mapExhausted st =>
    obtain ⟨op, map⟩ := mapOfWalk (.inl st)
    exact .inl (responds_exhausted (keepsAnswered.op.trans op) (keepsAnswered.map.trans map))
  | mapLink st =>
    have walk := walk (.inr (.inr st))
    obtain ⟨op, map⟩ := mapOfWalk (.inr st)
    obtain ⟨next, steps⟩ := walking_descend (sel := .newFrame) ((keeps_slotWritten s).live walking.toLive) walk
      (.inr ⟨rfl, op⟩)
    refine .inr ⟨next, steps.trans_lt ?_⟩
    show levelSteps s * (3 - s.lvl.toNat) < _
    simp only [stepsToLeaf, st, levelSteps_map op map]
    omega

/-- No collaborator keeps the walk waiting, so it has a next state (R232). -/
theorem Walking.exists_step {s : State} (walking : Walking s) : ∃ t, step s = .next t := by
  have live := walking.toLive
  obtain ⟨code, walk, leaf⟩ := levelFits_iff.mp walking.level
  cases st : s.st with
  | idle => exact absurd st walking.busy
  | resp => exact absurd st walking.waits
  | code7 => exact absurd st code
  | walkRd => exact ⟨_, step_walkRd st (walk (.inl st)) live⟩
  | walkAlloc => exact ⟨_, step_walkAlloc st (walk (.inr (.inl st))) live⟩
  | walkLink => exact ⟨_, step_walkLink st (walk (.inr (.inr st))) live⟩
  | leafRd => exact ⟨_, step_leafRd st (leaf (.inl st)) live⟩
  | leafWr => exact ⟨_, step_leafWr st (leaf (.inr st)) live⟩

/-- The leaf state, or a step before it, answers: the walk responds within one step more than `stepsToLeaf`. -/
theorem Walking.run_responds {n : Nat} {s : State} (walking : Walking s) (enough : stepsToLeaf s < n) :
    ∃ t, runToResponse n s = .next t ∧ Keeps s t ∧ Responds t := by
  induction n generalizing s with
  | zero => omega
  | succ n ih =>
    obtain ⟨u, next⟩ := walking.exists_step
    have move := (step_busy_move walking.released walking.busy next).2
    have keeps := move.keeps walking.busy
    rw [run_step walking.waits next]
    obtain responds | ⟨walking', nearer⟩ := move.progress walking
    · exact ⟨u, run_resp n responds.up, keeps, responds⟩
    · obtain ⟨t, run, keeps', responds⟩ := ih walking' (by omega)
      exact ⟨t, run, keeps.trans keeps', responds⟩

/-! The command -/

theorem inRange_iff (vpn : Word) : inRange vpn = true ↔ vpn.toNat < 2 ^ 45 := by
  have := vpn.isLt
  rw [inRange, beq_iff_eq, ← BitVec.toNat_inj, BitVec.extractLsb'_toNat, Nat.shiftRight_eq_div_pow]
  simp only [BitVec.ofNat_eq_ofNat, BitVec.toNat_ofNat]
  omega

theorem accept_outOfRange {c : Command} {s : State} (range : ¬ inRange c.vpn = true) :
    accept c s = raiseError .outOfRangeAddress (latch c s) := by
  simp [accept, range]

theorem accept_invalidRoot {c : Command} {s : State} (range : inRange c.vpn = true)
    (root : ¬ rootAccepts s.plat.rootCheck c.root = true) : accept c s = raiseError .invalidRoot (latch c s) := by
  simp [accept, range, root]

/-- A rejected command has its error response up when it is accepted (R122, R196). -/
theorem run_rejected {i : Instr} {rest : List Bundle} {n : Nat} {s : State} {e : Status} (presents : Presents i rest s)
    (rejects : accept i.command { s with cmdPort := rest } = raiseError e (latch i.command { s with cmdPort := rest })) :
    ∃ t, runToResponse (n + 1) s = .next t ∧ t.rspStatus = e ∧ t.rspHit = false ∧ t.rspPpn = 0 := by
  have codes : codeFault s = none := codeFault_none (by simp [presents.idle]) presents.level
  rw [run_accept codes presents.released presents.idle presents.port, rejects]
  exact ⟨_, run_resp n rfl, rfl, rfl, rfl⟩

theorem walking_walkStart {i : Instr} {rest : List Bundle} {s : State} (presents : Presents i rest s) :
    Walking (walkStart i.command rest s) :=
  ⟨live_walkStart presents, by simp [walkStart], by simp [walkStart], rfl, rfl⟩

/-- An accepted command has its response within 14 steps (R233), over the command registers it was latched in. -/
theorem run_accepted {i : Instr} {rest : List Bundle} {s : State} (presents : Presents i rest s)
    (accepted : Accepted i.command.root i.command.vpn s) :
    ∃ t, runToResponse 14 s = .next t ∧ Responds t ∧ t.opReg = i.command.op ∧ t.mapReg = i.command.ppnPresent := by
  have steps : stepsToLeaf (walkStart i.command rest s) < 13 := by
    show levelSteps _ * 4 < 13
    unfold levelSteps
    split_ifs <;> omega
  obtain ⟨t, run, keeps, responds⟩ := (walking_walkStart presents).run_responds steps
  have starts := run_step (n := 13) (by simp [presents.idle]) (step_accepted presents accepted)
  exact ⟨t, starts.trans run, responds, keeps.op, keeps.map⟩

theorem query_of_op {i : Instr} (op : i.command.op = false) : ∃ p r v q, i = .query p r v q := by
  cases i with
  | query p r v q => exact ⟨p, r, v, q, rfl⟩
  | unmap | map => cases op

theorem map_of_ctl {i : Instr} (op : i.command.op = true) (present : i.command.ppnPresent = true) :
    ∃ r v q, i = .map r v q := by
  cases i with
  | query => cases op
  | unmap => cases present
  | map r v q => exact ⟨r, v, q, rfl⟩

/-- Settles O51: the two accept errors come before the walk and are told by the checks alone; after them the response is
one of the walk's. -/
theorem commandsGiveOnlyTheirResponses : Obligations.CommandsGiveOnlyTheirResponses := by
  intro i rest s t presents run
  have same {t'} (run' : runToResponse 14 s = .next t') : t' = t := Host.Outcome.next.inj (run'.symm.trans run)
  by_cases range : inRange i.command.vpn = true
  · have below := (inRange_iff _).mp range
    by_cases root : rootAccepts s.plat.rootCheck i.command.root = true
    · obtain ⟨t', run', ⟨up, response, status⟩, op, map⟩ := run_accepted presents ⟨range, root⟩
      obtain rfl := same run'
      obtain ⟨okOfHit, zeroOfMiss, own⟩ := responseFits_iff.mp response
      obtain ⟨queryOfHit, mapOfExhausted⟩ := own up
      have noError : t'.rspStatus ≠ .outOfRangeAddress ∧ t'.rspStatus ≠ .invalidRoot := by
        rcases status with ok | exhausted <;> simp [*]
      refine ⟨iff_of_false noError.1 below.not_ge, iff_of_false noError.2 (by simp [root]), fun exhausted => ?_,
        fun hit => ⟨okOfHit hit, query_of_op (op ▸ queryOfHit hit)⟩, zeroOfMiss⟩
      obtain ⟨update, present⟩ := mapOfExhausted exhausted
      exact map_of_ctl (op ▸ update) (map ▸ present)
    · obtain ⟨t', run', status, hit, ppn⟩ := run_rejected presents (accept_invalidRoot range root)
      obtain rfl := same run'
      exact ⟨iff_of_false (by simp [status]) below.not_ge, iff_of_true status ⟨below, by simpa using root⟩,
        by simp [status], by simp [hit], fun _ => ppn⟩
  · have above := not_lt.mp (mt (inRange_iff _).mpr range)
    obtain ⟨t', run', status, hit, ppn⟩ := run_rejected presents (accept_outOfRange range)
    obtain rfl := same run'
    exact ⟨iff_of_true status above, iff_of_false (by simp [status]) fun h => above.not_gt h.1,
      by simp [status], by simp [hit], fun _ => ppn⟩

end Sys2Proof.Machine
end

section
/-! Proofs about the combinational sub-blocks: the level indices (R110), the operands as unsigned numbers (R9, R52, R91,
R111, R113, R114), the codec of an entry (R113 to R115) and the walker step (R117). -/
namespace Sys2Proof.Machine

/-! The level indices -/

theorem idx_eq_shift_mask (v : Vpn) (i : Level) :
    idx v i = ((v >>> (36 - 9 * i.toNat)) &&& 0x1FF).setWidth 9 := by
  have mask : (0x1FF : Vpn).setWidth 9 = BitVec.allOnes 9 := by decide
  rw [BitVec.setWidth_and, mask, BitVec.and_allOnes, BitVec.setWidth_ushiftRight_eq_extractLsb, idx]

theorem idx_xor (v d : Vpn) (i : Level) : idx (v ^^^ d) i = idx v i ^^^ idx d i :=
  BitVec.extractLsb'_xor

theorem idx_zero (i : Level) : idx 0 i = 0 :=
  BitVec.extractLsb'_zero

theorem idx_allOnes {i : Level} (level : i.toNat ≤ 4) : idx (BitVec.allOnes 45) i = 511 := by
  revert i
  decide

/-- Bit `j` of a VPN lies in index `4 - j / 9`, at place `j % 9`, and in no other index. -/
theorem idx_bit_eq_zero_iff {j : Nat} {i : Level} (bit : j < 45) (level : i.toNat ≤ 4) :
    idx (1#45 <<< j) i = 0 ↔ i.toNat ≠ 4 - j / 9 := by
  have place (b : Nat) : (idx (1#45 <<< j) i).getLsbD b = decide (b < 9 ∧ j = 36 - 9 * i.toNat + b) := by
    simp [idx, ← BitVec.twoPow_eq, BitVec.getLsbD_twoPow, bit]
  rw [BitVec.ofNat_eq_ofNat]
  constructor
  · rintro zero own
    have outside := place (j % 9)
    rw [zero, BitVec.getLsbD_zero, eq_comm, decide_eq_false_iff_not] at outside
    omega
  · intro other
    refine BitVec.eq_of_getLsbD_eq fun b hb => ?_
    rw [place, BitVec.getLsbD_zero, decide_eq_false_iff_not]
    omega

theorem idx_flip_eq_iff {v : Vpn} {j : Nat} {i : Level} (bit : j < 45) (level : i.toNat ≤ 4) :
    idx (v ^^^ 1#45 <<< j) i = idx v i ↔ i.toNat ≠ 4 - j / 9 :=
  calc idx (v ^^^ 1#45 <<< j) i = idx v i
      ↔ idx v i ^^^ idx (1#45 <<< j) i = idx v i ^^^ 0#9 := by rw [BitVec.xor_zero, ← idx_xor]
    _ ↔ idx (1#45 <<< j) i = 0 := BitVec.xor_right_inj _
    _ ↔ i.toNat ≠ 4 - j / 9 := idx_bit_eq_zero_iff bit level

/-- Settles O5: the index as a bit field, and bit `j` of the VPN, which lies in index `4 - j / 9` alone. -/
theorem levelIndexFormula : Obligations.LevelIndexFormula := by
  refine ⟨fun v i _ => ⟨idx_eq_shift_mask v i, rfl⟩, fun i level => ⟨idx_zero i, idx_allOnes level⟩, by decide,
    fun v j bit => ?_⟩
  have own : (BitVec.ofNat 3 (4 - j / 9)).toNat = 4 - j / 9 := Nat.mod_eq_of_lt (by omega)
  refine ⟨BitVec.ofNat 3 (4 - j / 9), by omega, fun same => ?_, fun k level other => ?_⟩
  · exact (idx_flip_eq_iff bit (by omega)).mp same own
  · exact (idx_flip_eq_iff bit level).mpr fun same => other (BitVec.eq_of_toNat_eq (same.trans own.symm))

/-! The operands as numbers -/

theorem vpnOf_toNat (vpn : Word) : (vpnOf vpn).toNat = vpn.toNat % 2 ^ 45 := by
  rw [vpnOf, BitVec.extractLsb'_toNat, Nat.shiftRight_zero]

theorem idx_toNat (v : Vpn) (i : Level) : (idx v i).toNat = v.toNat / 2 ^ (36 - 9 * i.toNat) % 512 := by
  rw [idx, BitVec.extractLsb'_toNat, Nat.shiftRight_eq_div_pow]

theorem pteDec_frame_toNat (w : Word) : (pteDec w).2.toNat = w.toNat / 4096 := by
  have := w.isLt
  rw [pteDec, BitVec.extractLsb'_toNat, Nat.shiftRight_eq_div_pow]
  omega

theorem pteEnc_toNat (valid : Bool) (frame : Frame) :
    (pteEnc valid frame).toNat = frame.toNat * 4096 + valid.toNat := by
  have bit : valid.toNat < 2 ^ 12 := by cases valid <;> decide
  rw [pteEnc, BitVec.toNat_append, BitVec.toNat_append, BitVec.toNat_ofBool, BitVec.toNat_ofNat, Nat.zero_mod,
    Nat.or_zero, ← Nat.shiftLeft_add, ← Nat.shiftLeft_add_eq_or_of_lt bit, Nat.shiftLeft_eq]

/-- Settles O6: each operand is the number of its bits. -/
theorem rangeCheckIsBelowTwoPow45 : Obligations.RangeCheckIsBelowTwoPow45 :=
  ⟨inRange_iff, vpnOf_toNat, fun v i _ => idx_toNat v i, pteDec_frame_toNat, pteEnc_toNat, slotPA_toNat⟩

/-! Entries -/

/-- The frame, the reserved bits and the valid bit lie side by side and cover the word (R113). -/
theorem entry_fields (w : Word) :
    w.extractLsb' 12 52 ++ w.extractLsb' 1 11 ++ BitVec.ofBool (w.getLsbD 0) = w := by
  have bit : BitVec.ofBool (w.getLsbD 0) = w.extractLsb' 0 1 := by
    rw [← BitVec.setWidth_one, BitVec.setWidth_eq_extractLsb' (by decide)]
  calc w.extractLsb' 12 52 ++ w.extractLsb' 1 11 ++ BitVec.ofBool (w.getLsbD 0)
      = w.extractLsb' 0 64 := by
        rw [bit, BitVec.extractLsb'_append_extractLsb'_eq_extractLsb' (show 12 = 1 + 11 from rfl),
          BitVec.extractLsb'_append_extractLsb'_eq_extractLsb' (show 1 = 0 + 1 from rfl)]
    _ = w := BitVec.extractLsb'_eq_self

/-- Encoding puts 0 in the reserved bits and every other field back in its place. -/
theorem pteEnc_pteDec_iff (w : Word) : pteEnc (pteDec w).1 (pteDec w).2 = w ↔ w.extractLsb' 1 11 = 0 :=
  calc pteEnc (pteDec w).1 (pteDec w).2 = w
      ↔ w.extractLsb' 12 52 ++ 0#11 ++ BitVec.ofBool (w.getLsbD 0) =
          w.extractLsb' 12 52 ++ w.extractLsb' 1 11 ++ BitVec.ofBool (w.getLsbD 0) := by
        rw [entry_fields]; rfl
    _ ↔ 0#11 = w.extractLsb' 1 11 := by rw [BitVec.append_left_inj, BitVec.append_right_inj]
    _ ↔ w.extractLsb' 1 11 = 0 := eq_comm

/-- Settles O7: decoding undoes encoding, and encoding undoes decoding up to the reserved bits. -/
theorem pteCodecLaws : Obligations.PteCodecLaws :=
  ⟨pteDec_pteEnc, pteEnc_pteDec_iff⟩

/-- Settles O9: by the valid bit, and by the level of a valid entry. -/
theorem walkerStepClassifiesEntries : Obligations.WalkerStepClassifiesEntries := by
  refine ⟨fun w leaf => ?_, by decide, by decide⟩
  cases valid : w.getLsbD 0 with
  | false => simp only [walkStep, pteDec, valid, if_true]
  | true => cases leaf <;> simp only [walkStep, pteDec, valid] <;> rfl

end Sys2Proof.Machine
end

section
/-! Proofs about which command a step runs (R122 to R124, R206, R225, R231): the command in flight, accept, the response
step, and that no step is refused. -/
namespace Sys2Proof.Machine

/-! The command in flight -/

/-- The control state has a rule for the command: accept or the response, or an FSM state in which the command registers
choose it (R122 to R124). -/
def hasRule : Instr → State → Bool
  | .query _ _ _ _, s =>
    match s.st with
    | .idle | .leafRd | .resp => true
    | .walkRd => !s.opReg
    | .walkAlloc | .walkLink | .leafWr | .code7 => false
  | .map _ _ _, s =>
    match s.st with
    | .idle | .walkAlloc | .walkLink | .resp => true
    | .walkRd => s.opReg && s.mapReg
    | .leafWr => s.mapReg
    | .leafRd | .code7 => false
  | .unmap _ _ _, s =>
    match s.st with
    | .idle | .resp => true
    | .walkRd => s.opReg && !s.mapReg
    | .leafWr => !s.mapReg
    | .walkAlloc | .walkLink | .leafRd | .code7 => false

theorem guarded_eq_refused {s : State} {next : Result} {r : Refusal} :
    guarded s next = .refused r ↔ codeFault s = none ∧ levelFits s = true ∧ next = .refused r := by
  unfold guarded
  cases codes : codeFault s with
  | some f => simp
  | none => by_cases fits : levelFits s = true <;> simp [fits]

/-- An FSM step goes on or is stuck (R207). -/
theorem fsm_ne_refused (s : State) (r : Refusal) :
    queryWalkRd s ≠ .refused r ∧ queryLeafRd s ≠ .refused r ∧ mapWalkRd s ≠ .refused r ∧ mapWalkLink s ≠ .refused r ∧
    mapLeafWr s ≠ .refused r ∧ unmapWalkRd s ≠ .refused r ∧ unmapLeafWr s ≠ .refused r := by
  cases answers : s.memAnswers with
  | false => simp [fsm_memory_stuck answers]
  | true =>
    simp [queryWalkRd_eq answers, queryLeafRd_eq answers, mapWalkRd_eq answers, mapWalkLink_eq answers,
      mapLeafWr_eq answers, unmapWalkRd_eq answers, unmapLeafWr_eq answers]

theorem mapWalkAlloc_ne_refused (s : State) (r : Refusal) : mapWalkAlloc s ≠ .refused r := by
  cases answers : s.allocAnswers with
  | false => simp [mapWalkAlloc_stuck answers]
  | true => simp [mapWalkAlloc_eq answers]

/-- A command is refused exactly where the codes and the level allow a step and no rule is the command's. -/
theorem exec_eq_refused {i : Instr} {s : State} {r : Refusal} :
    exec i s = .refused r ↔
      codeFault s = none ∧ levelFits s = true ∧ r = .notInFlight ∧ hasRule i s = false := by
  obtain ⟨queryWalk, queryLeaf, mapWalk, mapLink, mapLeaf, unmapWalk, unmapLeaf⟩ := fsm_ne_refused s r
  have mapAlloc := mapWalkAlloc_ne_refused s r
  have refuses : (.refused .notInFlight : Result) = .refused r ↔ r = .notInFlight := by simp [eq_comm]
  cases i with
  | query =>
    rw [exec, execQuery, guarded_eq_refused, hasRule]
    cases st : s.st with
    | walkRd => cases op : s.opReg <;> simp [refuses, queryWalk]
    | leafRd => simp [queryLeaf]
    | _ => simp [refuses]
  | map =>
    rw [exec, execMap, guarded_eq_refused, hasRule]
    cases st : s.st with
    | walkRd => cases own : s.opReg && s.mapReg <;> simp [refuses, mapWalk]
    | leafWr => cases map : s.mapReg <;> simp [refuses, mapLeaf]
    | _ => simp [refuses, mapAlloc, mapLink]
  | unmap =>
    rw [exec, execUnmap, guarded_eq_refused, hasRule]
    cases st : s.st with
    | walkRd => cases own : s.opReg && !s.mapReg <;> simp [refuses, unmapWalk]
    | leafWr => cases map : s.mapReg <;> simp [refuses, unmapLeaf]
    | _ => simp [refuses]

theorem exec_of_no_rule {i : Instr} {s : State} (codes : codeFault s = none) (fits : levelFits s = true)
    (other : hasRule i s = false) : exec i s = .refused .notInFlight :=
  exec_eq_refused.mpr ⟨codes, fits, rfl, other⟩

theorem hasRule_inFlight {s : State} (codes : codeFault s = none) : hasRule (inFlight s) s = true := by
  cases st : s.st with
  | code7 => exact absurd st (codeFault_eq_none.mp codes).1
  | idle | walkRd | leafWr | resp =>
    cases op : s.opReg <;> cases map : s.mapReg <;> simp [inFlight, hasRule, st, op, map]
  | _ => simp [inFlight, hasRule, st]

/-- Settles O24: in each control state, the commands that have no rule there. -/
theorem commandNotInFlightIsRefused : Obligations.CommandNotInFlightIsRefused := by
  intro s p r v q codes fits
  have refused {i : Instr} (other : hasRule i s = false) := exec_of_no_rule codes fits other
  refine ⟨fun st => ⟨fun op => ?_, fun reg => ?_, fun reg => ?_⟩, fun st => ?_, fun st => ?_, fun st => ?_⟩
  · exact refused (by simp [hasRule, st, op])
  · exact refused (by simpa [hasRule, st] using reg)
  · exact refused (by simpa [hasRule, st] using reg)
  · rcases st with st | st <;> exact ⟨refused (by simp [hasRule, st]), refused (by simp [hasRule, st])⟩
  · exact ⟨refused (by simp [hasRule, st]), refused (by simp [hasRule, st])⟩
  · exact ⟨refused (by simp [hasRule, st]), fun map => refused (by simp [hasRule, st, map]),
      fun map => refused (by simp [hasRule, st, map])⟩

/-- Settles O26: the branches of `inFlight`. -/
theorem commandRegistersChooseTheFsm : Obligations.CommandRegistersChooseTheFsm := by
  intro s _
  refine ⟨fun st op => ?_, fun st op map => ?_, fun st op map => ?_, fun st => ?_, fun st => ?_, fun st map => ?_,
    fun st map => ?_⟩
  · exact inFlight_query op (.inl st)
  · simp [inFlight, st, op, map]
  · exact inFlight_unmap op map (.inl st)
  · simp [inFlight, st]
  · rcases st with st | st <;> simp [inFlight, st]
  · simp [inFlight, st, map]
  · simp [inFlight, st, map]

/-! The step -/

/-- With no command presented the idle block waits (R206). -/
theorem step_waiting {s : State} (codes : codeFault s = none) (released : s.rst = false) (idle : s.st = .idle)
    (port : s.cmdPort = []) : step s = .next s := by
  rw [step, codes, fetch_idle_nil idle port]
  simp [released]

/-- Settles O21: the idle block accepts or waits, and outside `IDLE` the command in flight has a rule. -/
theorem stepIsNeverRefused : Obligations.StepIsNeverRefused := by
  intro s r refused
  cases codes : codeFault s with
  | some f => simp [step, codes] at refused
  | none =>
    obtain reset | released := Bool.eq_false_or_eq_true s.rst
    · simp [step_reset codes reset] at refused
    by_cases idle : s.st = .idle
    · cases port : s.cmdPort with
      | nil => simp [step_waiting codes released idle port] at refused
      | cons b rest =>
        have accepts := exec_idle (i := decode b) (s := { s with cmdPort := rest }) idle (codeFault_eq_none.mp codes).2
        simp [step_presented codes released idle port, accepts] at refused
    · rw [step_inFlight codes released idle] at refused
      obtain ⟨-, -, -, noRule⟩ := exec_eq_refused.mp refused
      simp [hasRule_inFlight codes] at noRule

theorem codeFault_withFetchWord (s : State) (nbits w : Nat) : codeFault (s.withFetchWord nbits w) = none := by
  refine codeFault_none (by simp [State.withFetchWord]) ?_
  show (if s.lvl.toNat ≤ 4 then s.lvl else 0).toNat ≤ 4
  split_ifs with level
  · exact level
  · exact Nat.zero_le 4

/-- Settles O25: the three branches of the fetch, and the first of them for a word placed at the head of the port. -/
theorem stepRunsTheDecodedCommand : Obligations.StepRunsTheDecodedCommand :=
  ⟨fun _ codes released => ⟨fun _ _ => step_presented codes released, step_inFlight codes released,
    step_waiting codes released⟩,
    fun s nbits w => step_presented (codeFault_withFetchWord s nbits w) rfl rfl rfl⟩

/-! Accept -/

/-- R122 and R195: the range check comes before the root check. -/
theorem accept_eq (c : Command) (s : State) :
    accept c s =
      if c.vpn.extractLsb' 45 19 ≠ 0 then raiseError .outOfRangeAddress (latch c s)
      else if rootAccepts s.plat.rootCheck c.root = false then raiseError .invalidRoot (latch c s)
      else { latch c s with st := .walkRd } := by
  simp [accept, inRange]

theorem accept_cmdPort (c : Command) (s : State) (port : List Bundle) :
    accept c { s with cmdPort := port } = { accept c s with cmdPort := port } := by
  unfold accept
  split_ifs <;> rfl

/-- Settles O32: `exec` accepts, and the step accepts the command presented, whose bundle leaves the port. -/
theorem acceptLatchesAndChecks : Obligations.AcceptLatchesAndChecks := by
  intro i s idle level
  have accepts : exec i s = .next (accept i.command s) := exec_idle idle level
  refine ⟨accepts.trans (congrArg _ (accept_eq i.command s)), fun released rest port => ?_⟩
  rw [step_presented (codeFault_none (by simp [idle]) level) released idle port, decode_encode,
    exec_idle (s := { s with cmdPort := rest }) idle level, accept_cmdPort, accept_eq]
  rfl

/-! The response -/

/-- Settles O34: the response step with `rsp_ready` at 1. -/
theorem responseStepDeliversAndReturnsToIdle : Obligations.ResponseStepDeliversAndReturnsToIdle := by
  intro i s resp level ready
  rw [exec_resp resp level, deliver, if_pos ready]
  rfl

/-- Settles O27: no move of the command in flight writes the port, and the one move from `RESP` is the response step. -/
theorem oneCommandAtATime : Obligations.OneCommandAtATime := by
  intro s
  refine ⟨by simp [cmdReady], fun t released busy h => ?_, fun t released resp h => ?_⟩
  · exact ((step_busy_move released busy h).2.keeps busy).port
  · have busy : s.st ≠ .idle := by simp [resp]
    have codes := (step_next h).1
    rw [step_inFlight codes released busy, exec_resp resp (codeFault_eq_none.mp codes).2] at h
    cases h
    cases ready : s.rspReady <;> simp [deliver, ready]

end Sys2Proof.Machine
end

section
/-! Proofs about the requests at the ports: a step issues at most one, every memory request is at the slot address
(R120), and of an absent entry a step uses the valid bit alone (R114, R116). -/
namespace Sys2Proof.Machine

/-! One request at the slot address -/

/-- At most one event is added to the observation; if it is a memory request, it is at the slot address. -/
def IssuesAtSlot (s t : State) : Prop :=
  t.trace = s.trace ∨
    ∃ e : PortEvent, t.trace = e :: s.trace ∧ ∀ a d, e.memRequest? = some (a, d) → a = slotAddr s

theorem IssuesAtSlot.of_read {s t : State} {data : Option Word}
    (added : t.trace = .memRead (slotAddr s) data :: s.trace) : IssuesAtSlot s t :=
  .inr ⟨_, added, by simp [PortEvent.memRequest?, eq_comm]⟩

theorem IssuesAtSlot.of_write {s t : State} {d : Word} {acked : Bool}
    (added : t.trace = .memWrite (slotAddr s) d acked :: s.trace) : IssuesAtSlot s t :=
  .inr ⟨_, added, by simp +contextual [PortEvent.memRequest?, eq_comm]⟩

theorem IssuesAtSlot.of_alloc {s t : State} {answer : Option AllocAnswer}
    (added : t.trace = .alloc answer :: s.trace) : IssuesAtSlot s t :=
  .inr ⟨_, added, by simp [PortEvent.memRequest?]⟩

theorem accept_trace (c : Command) (s : State) : (accept c s).trace = s.trace := by
  unfold accept
  split_ifs <;> rfl

theorem issuesAtSlot_deliver (s : State) : IssuesAtSlot s (deliver s) := by
  unfold deliver
  split_ifs
  · exact .inr ⟨_, rfl, by simp [PortEvent.memRequest?]⟩
  · exact .inl rfl

theorem Move.issuesAtSlot {i : Instr} {s t : State} (move : Move i s t) : IssuesAtSlot s t := by
  have answered := (answerTaken_frame s).2.2.2.2
  cases move with
  | accept => exact .inl (accept_trace ..)
  | deliver => exact issuesAtSlot_deliver s
  | queryMiss | queryChild | queryUnmapped | queryMapped | mapAbsent | mapChild | unmapMiss | unmapChild =>
    exact .of_read rfl
  | mapGranted | mapExhausted => exact .of_alloc answered
  | mapLink | mapLeaf | unmapLeaf => exact .of_write rfl

theorem portRequest_read {s : State} {a : Word} (request : portRequest s = some (.read a)) : a = slotAddr s := by
  unfold portRequest at request
  split_ifs at request
  cases st : s.st <;> simp_all

/-- The event of an abandoned request: no answer (R222). -/
def abandonedEvent : PortRequest → PortEvent
  | .read a => .memRead a none
  | .write a d => .memWrite a d false
  | .alloc => .alloc none

/-- A request that a reset abandons is an event unless it was not issued (R222). -/
theorem abandon_trace (r : PortRequest) (fate : RequestFate) (s : State) :
    (abandon r fate s).trace = s.trace ∨
      (abandon r fate s).trace = abandonedEvent r :: s.trace := by
  cases fate with
  | notIssued => exact .inl rfl
  | unperformed => cases r <;> exact .inr rfl
  | performed =>
    cases r with
    | alloc => exact .inr (congrArg _ (nextAnswer_trace s))
    | _ => exact .inr rfl

theorem issuesAtSlot_resetStep (s : State) : IssuesAtSlot s (resetStep s) := by
  cases request : portRequest s with
  | none =>
    rw [resetStep_noRequest request, takeCommand_state]
    exact .inl rfl
  | some r =>
    rw [resetStep_request request, nextFate_state]
    obtain same | added := abandon_trace r (nextFate s).1 { s with
      resetFates := (nextFate s).2.resetFates, draws := (nextFate s).2.draws }
    · exact .inl same
    · cases r with
      | read =>
        obtain rfl := portRequest_read request
        exact .of_read added
      | write =>
        obtain ⟨rfl, -⟩ := portRequest_write request
        exact .of_write added
      | alloc => exact .of_alloc added

theorem step_issuesAtSlot {s t : State} (h : step s = .next t) : IssuesAtSlot s t := by
  obtain ⟨-, ⟨-, rfl⟩ | ⟨-, -, -, rfl⟩ | ⟨_, _, -, -, -, move⟩ | ⟨-, -, -, move⟩⟩ := step_next h
  · exact issuesAtSlot_resetStep s
  · exact .inl rfl
  · exact move.issuesAtSlot
  · exact move.issuesAtSlot

/-- Settles O30: the slot address is aligned, and every event of a step that is a memory request is at it. -/
theorem everyMemoryRequestIsAtTheSlotAddress : Obligations.EveryMemoryRequestIsAtTheSlotAddress := by
  intro s t h
  refine (step_issuesAtSlot h).imp_right fun ⟨e, added, atSlot⟩ => ⟨e, added, fun a d request => ?_⟩
  obtain rfl := atSlot a d request
  exact ⟨rfl, slotPA_aligned ..⟩

/-! An absent entry -/

/-- The state of a step that read an absent entry, over another memory in which that entry is absent too. -/
def overMemory (m : Memory) (s t : State) : State :=
  { t with
    mem := m
    trace := .memRead (slotAddr s) (some (slotEntry { s with mem := m })) :: s.trace }

theorem Move.absent_overMemory {i : Instr} {s t : State} {m : Memory} (move : Move i s t)
    (reads : s.st = .walkRd ∨ s.st = .leafRd) (absent : slotFrame s = none)
    (absent' : slotFrame { s with mem := m } = none) :
    Move i { s with mem := m } (overMemory m s t) := by
  cases move with
  | queryMiss st op mem => exact .queryMiss st op mem absent'
  | queryUnmapped st mem => exact .queryUnmapped st mem absent'
  | mapAbsent st op map mem => exact .mapAbsent st op map mem absent'
  | unmapMiss st op map mem => exact .unmapMiss st op map mem absent'
  | queryChild _ _ _ entry | queryMapped _ _ entry | mapChild _ _ _ _ entry | unmapChild _ _ _ _ entry =>
    simp [absent] at entry
  | accept st | deliver st | mapGranted st | mapExhausted st | mapLink st | mapLeaf st | unmapLeaf st =>
    simp [st] at reads

/-- Settles O46: the moves that read an absent entry have the same next state, but for memory and the word read, over
every memory in which it is absent. -/
theorem absentEntryFrameIsNeverUsed : Obligations.AbsentEntryFrameIsNeverUsed := by
  intro i s t m reads absent absent' h
  obtain ⟨codes, fits, move⟩ := exec_next h
  exact (move.absent_overMemory reads (slotFrame_eq_none.mpr absent) (slotFrame_eq_none.mpr absent')).exec_eq codes fits

end Sys2Proof.Machine
end

section
/-! Proofs about the steps of `QUERY` (R140 to R143): its two reading steps as equations, and what a step of it leaves
alone. -/
namespace Sys2Proof.Machine

/-! The reading steps -/

/-- The descent after a read in `WALK_RD` (R141): from level 3 into the leaf state, above it the control state stays. -/
theorem descend_readLogged {s : State} (st : s.st = .walkRd) (f : Frame) (leaf : FsmState) :
    descend (.child f) leaf (readLogged s) =
      if s.lvl = 3 then { readLogged s with curFrame := f, lvl := 4, st := leaf }
      else { readLogged s with curFrame := f, lvl := s.lvl + 1 } := by
  split_ifs with last
  · exact descend_leaf (s := readLogged s) last
  · have inner := descend_inner (s := readLogged s) (sel := .child f) (leaf := leaf) last
    rw [← st] at inner
    exact inner

/-- Settles O35: an absent entry is the move `queryMiss`, a valid one the move `queryChild`. -/
theorem queryReadsAnIntermediateEntry : Obligations.QueryReadsAnIntermediateEntry := by
  intro p r v q s st op level answers w t
  have codes : codeFault s = none := codeFault_none (by simp [st]) (by omega)
  have fits : levelFits s = true := levelFits_iff.mpr (by simp [st, level])
  by_cases absent : w.getLsbD 0 = false
  · rw [if_pos absent]
    exact (Move.queryMiss st op answers (slotFrame_eq_none.mpr absent)).exec_eq codes fits
  · have child : slotFrame s = some (w.extractLsb' 12 52) :=
      slotFrame_eq_some.mpr ⟨eq_true_of_ne_false absent, rfl⟩
    rw [if_neg absent, (Move.queryChild st op answers child).exec_eq codes fits, descend_readLogged st]
    rfl

/-- Settles O36: an absent entry is the move `queryUnmapped`, a valid one the move `queryMapped`. -/
theorem queryReadsTheLeafAndResponds : Obligations.QueryReadsTheLeafAndResponds := by
  intro p r v q s st level answers
  rw [← level]
  intro w t
  have codes : codeFault s = none := codeFault_none (by simp [st]) (by simp [level])
  have fits : levelFits s = true := levelFits_iff.mpr (by simp [st, level])
  by_cases absent : w.getLsbD 0 = false
  · rw [if_pos absent]
    exact (Move.queryUnmapped st answers (slotFrame_eq_none.mpr absent)).exec_eq codes fits
  · have mapped : slotFrame s = some (w.extractLsb' 12 52) :=
      slotFrame_eq_some.mpr ⟨eq_true_of_ne_false absent, rfl⟩
    rw [if_neg absent]
    exact (Move.queryMapped st answers mapped).exec_eq codes fits

/-! What a step leaves alone -/

/-- Memory, the allocator's data, `new_frame`, the port and the fates are the same in both states, and at most one event
is added, neither a write nor an allocator request. -/
structure OnlyReads (s t : State) : Prop where
  mem : t.mem = s.mem
  supply : t.allocSupply = s.allocSupply
  draws : t.draws = s.draws
  newFrame : t.newFrame = s.newFrame
  port : t.cmdPort = s.cmdPort
  fates : t.resetFates = s.resetFates
  event : t.trace = s.trace ∨ ∃ e : PortEvent, t.trace = e :: s.trace ∧ e.isWrite = false ∧ e.isAlloc = false

/-- The response registers are written only on entering `RESP` (R27). -/
def KeepsResponse (s t : State) : Prop :=
  t.st ≠ .resp ∨ s.st = .resp → t.rspStatus = s.rspStatus ∧ t.rspHit = s.rspHit ∧ t.rspPpn = s.rspPpn

theorem onlyReads_accept (c : Command) (s : State) : OnlyReads s (accept c s) := by
  unfold accept
  split_ifs <;> exact ⟨rfl, rfl, rfl, rfl, rfl, rfl, .inl rfl⟩

theorem onlyReads_deliver (s : State) : OnlyReads s (deliver s) := by
  unfold deliver
  split_ifs
  · exact ⟨rfl, rfl, rfl, rfl, rfl, rfl, .inr ⟨_, rfl, rfl, rfl⟩⟩
  · exact ⟨rfl, rfl, rfl, rfl, rfl, rfl, .inl rfl⟩

theorem keepsResponse_respond {s : State} (e : Status) (h : Bool) (p : Frame) (waits : s.st ≠ .resp) :
    KeepsResponse s (respond e h p (readLogged s)) :=
  fun entered => absurd waits (by simpa using entered)

theorem keepsResponse_accept {s : State} (c : Command) (waits : s.st ≠ .resp) : KeepsResponse s (accept c s) := by
  unfold accept
  split_ifs
  · exact fun entered => absurd waits (by simpa [raiseError] using entered)
  · exact fun entered => absurd waits (by simpa [raiseError] using entered)
  · exact fun _ => ⟨rfl, rfl, rfl⟩

theorem deliver_registers (s : State) :
    (deliver s).curFrame = s.curFrame ∧ (deliver s).lvl = s.lvl ∧ (deliver s).rspStatus = s.rspStatus ∧
      (deliver s).rspHit = s.rspHit ∧ (deliver s).rspPpn = s.rspPpn := by
  unfold deliver
  split_ifs <;> exact ⟨rfl, rfl, rfl, rfl, rfl⟩

section
variable {p : Bool} {r q : Frame} {v : Word} {s t : State}

/-- Every FSM step of `QUERY` adds the read of its slot and nothing else (R143). -/
theorem Move.query_onlyReads (move : Move (.query p r v q) s t) : OnlyReads s t := by
  cases move with
  | accept => exact onlyReads_accept ..
  | deliver => exact onlyReads_deliver s
  | queryMiss | queryChild | queryUnmapped | queryMapped =>
    exact ⟨rfl, rfl, rfl, rfl, rfl, rfl, .inr ⟨_, rfl, rfl, rfl⟩⟩

/-- The walk moves on only at accept and in `WALK_RD` (R122, R141). -/
theorem Move.query_keepsPlace (move : Move (.query p r v q) s t) (busy : s.st ≠ .idle) (reading : s.st ≠ .walkRd) :
    t.curFrame = s.curFrame ∧ t.lvl = s.lvl := by
  cases move with
  | accept idle => exact absurd idle busy
  | deliver =>
    obtain ⟨cur, lvl, -⟩ := deliver_registers s
    exact ⟨cur, lvl⟩
  | queryMiss st | queryChild st => exact absurd st reading
  | queryUnmapped | queryMapped => exact ⟨rfl, rfl⟩

theorem Move.query_keepsResponse (move : Move (.query p r v q) s t) : KeepsResponse s t := by
  cases move with
  | accept idle => exact keepsResponse_accept _ (by simp [idle])
  | deliver => exact fun _ => (deliver_registers s).2.2
  | queryChild => exact fun _ => ⟨rfl, rfl, rfl⟩
  | queryMiss st | queryUnmapped st | queryMapped st => exact keepsResponse_respond _ _ _ (by simp [st])

end

/-- Settles O37: the moves of `QUERY` only read, and keep the inputs and, after accept, the command registers. -/
theorem queryOnlyReads : Obligations.QueryOnlyReads := by
  intro p r v q s t h
  have move := (exec_next h).2.2
  obtain ⟨mem, supply, draws, newFrame, port, fates, event⟩ := move.query_onlyReads
  obtain ⟨plat, released, ready, memory, allocator⟩ := move.keepsInputs
  refine ⟨fun a => by rw [mem], mem, supply, draws, newFrame, event, plat, port, ready, released, memory, allocator,
    fates, fun busy => ?_, move.query_keepsPlace, move.query_keepsResponse⟩
  have keeps := move.keeps busy
  exact ⟨keeps.op, keeps.map, keeps.vpn, keeps.ppn⟩

end Sys2Proof.Machine
end

section
/-! Proofs about a whole `QUERY` (R144, R145): the last entry it reads is the translation, and the reads it takes. -/
namespace Sys2Proof.Machine

/-! The first entry on the path that is not valid -/

section
variable {o : ByteOrder} {m : Memory} {v : Vpn}

/-- A walk goes through all its levels exactly if every entry is valid. -/
theorem walkFrom_eq_none_iff (levels : List Level) (c : Frame) :
    walkFrom o m v levels c = none ↔ leadingValid o m v levels c < levels.length := by
  induction levels generalizing c with
  | nil => simp [walkFrom, leadingValid]
  | cons i is ih =>
    rw [walkFrom, leadingValid]
    cases entryFrame o m c (idx v i) with
    | none => simp
    | some f =>
      simp only [ih, List.length_cons]
      omega

/-- The entry after the leading valid ones is absent. -/
theorem entryFrame_after_leadingValid {levels : List Level} {c d : Frame} {i : Level}
    (walk : walkFrom o m v (levels.take (leadingValid o m v levels c)) c = some d)
    (next : levels[leadingValid o m v levels c]? = some i) : entryFrame o m d (idx v i) = none := by
  induction levels generalizing c with
  | nil => simp at next
  | cons j js ih =>
    rw [leadingValid] at walk next
    cases entry : entryFrame o m c (idx v j) with
    | none =>
      simp only [entry, List.take_zero, walkFrom, Option.some.injEq, List.getElem?_cons_zero] at walk next
      rw [← walk, ← next, entry]
    | some f =>
      simp only [entry, Nat.add_comm 1, List.take_succ_cons, walkFrom, List.getElem?_cons_succ] at walk next
      exact ih walk next

/-- With an absent intermediate entry there is no mapping (R70). -/
theorem translate_eq_none {root : Frame} (inner : leadingValid o m v intermediate root < 4) :
    translate o m root v = none := by
  rw [translate, (walkFrom_eq_none_iff intermediate root).mpr inner]

/-- The entry after the leading valid intermediate ones is what the translation is: absent above the leaf, or the leaf
entry (R70). -/
theorem translate_eq_entryFrame {root d : Frame} {k : Nat} (depth : leadingValid o m v intermediate root = k)
    (node : nodeOn o m root v k = some d) :
    translate o m root v = entryFrame o m d (idx v (BitVec.ofNat 3 k)) := by
  have four : k ≤ 4 := depth ▸ leadingValid_le o m v intermediate root
  obtain inner | rfl := four.lt_or_eq
  · have next : intermediate[k]? = some (BitVec.ofNat 3 k) := by
      interval_cases k <;> rfl
    subst depth
    rw [translate_eq_none inner, entryFrame_after_leadingValid node next]
  · rw [translate, show walkFrom o m v intermediate root = some d from node]
    rfl

end

/-! The run -/

/-- The response of a `QUERY` whose last entry read gives `frame?` (R141, R142). -/
def queryAnswer (frame? : Option Frame) (s : State) : State := respond .ok frame?.isSome (frame?.getD 0) s

/-- The last read of a `QUERY`: an absent entry on the way, or the leaf entry. -/
theorem step_queryAnswer {s : State} (live : Live s)
    (last : (s.st = .walkRd ∧ s.lvl.toNat ≤ 3 ∧ s.opReg = false ∧ slotFrame s = none) ∨
      (s.st = .leafRd ∧ s.lvl = 4)) :
    step s = .next (queryAnswer (slotFrame s) (readLogged s)) := by
  rcases last with ⟨st, walk, op, absent⟩ | ⟨st, leaf⟩
  · rw [step_walkRd st walk live]
    simp [absent, op, queryAnswer]
  · rw [step_leafRd st leaf live]
    cases slotFrame s <;> rfl

section
variable {p : Bool} {r q : Frame} {v : Word} {rest : List Bundle} {s : State}

/-- After accept and one read for each leading valid entry, the next step answers with the translation at accept. -/
theorem query_reaches_answer (presents : Presents (.query p r v q) rest s) (accepted : Accepted r v s) :
    ∃ u, (∀ n, runToResponse (n + pathDepth s r (vpnOf v) + 1) s = runToResponse n u) ∧ u.st ≠ .resp ∧
      step u = .next (queryAnswer (translateIn s r (vpnOf v)) (readLogged u)) ∧ u.mem = s.mem ∧
      readCount u = readCount s + pathDepth s r (vpnOf v) ∧ writeCount u = writeCount s ∧
      allocCount u = allocCount s := by
  obtain ⟨k, depth⟩ : ∃ k, pathDepth s r (vpnOf v) = k := ⟨_, rfl⟩
  have four : k ≤ 4 := depth ▸ leadingValid_le _ _ _ intermediate r
  have live := live_walkStart presents
  obtain ⟨u, run, keeps, lvl, mem, node, st, reads, writes, allocs, -⟩ :=
    walk_loop k 4 (walkStart (Instr.query p r v q).command rest s) live rfl
      (by rw [lastLevels_four]; exact depth.ge) fun _ => rfl
  have lvl : u.lvl.toNat = k := lvl.trans (Nat.zero_add k)
  have st : u.st = if k = 4 then .leafRd else .walkRd := by
    rw [st, show (walkStart (Instr.query p r v q).command rest s).lvl.toNat + k = k from Nat.zero_add k]
    by_cases start : k = 0
    · simp [start, walkStart]
    · rw [if_neg start]
      rfl
  have node : nodeOn s.plat.byteOrder s.mem r (vpnOf v) k = some u.curFrame := by
    rw [nodeOn, ← lastLevels_four]
    exact node
  have entry : slotFrame u = translateIn s r (vpnOf v) := by
    have level : u.lvl = BitVec.ofNat 3 k := BitVec.eq_of_toNat_eq (by simp [lvl]; omega)
    rw [translateIn, translate_eq_entryFrame depth node, slotFrame, keeps.plat, mem, keeps.vpn, level]
    rfl
  rw [depth]
  refine ⟨u, fun n => ?_, ?_, ?_, mem, reads, writes, allocs⟩
  · exact (run_step (by simp [presents.idle]) (step_accepted presents accepted)).trans (run n)
  · rw [st]
    split_ifs <;> simp
  · rw [← entry]
    refine step_queryAnswer (keeps.live live) ?_
    obtain inner | rfl := four.lt_or_eq
    · have absent : slotFrame u = none := entry.trans (translate_eq_none (depth.trans_lt inner))
      exact .inl ⟨st.trans (if_neg inner.ne), by omega, keeps.op, absent⟩
    · exact .inr ⟨st, level_four lvl⟩

/-- A `QUERY` accepted without error: its response is the translation at accept, after one read more than there are
leading valid entries (R144, R145). -/
theorem run_query (presents : Presents (.query p r v q) rest s) (accepted : Accepted r v s) :
    ∃ u, runToResponse 6 s = .next (queryAnswer (translateIn s r (vpnOf v)) u) ∧ u.mem = s.mem ∧
      readCount u = readCount s + pathDepth s r (vpnOf v) + 1 ∧ writeCount u = writeCount s ∧
      allocCount u = allocCount s := by
  obtain ⟨u, run, waits, answers, mem, reads, writes, allocs⟩ := query_reaches_answer presents accepted
  obtain ⟨read, write, alloc⟩ := counts_readLogged u
  have depth : pathDepth s r (vpnOf v) ≤ 4 := leadingValid_le _ _ _ intermediate r
  refine ⟨readLogged u, run_mono rfl ?_ (show 1 + pathDepth s r (vpnOf v) + 1 ≤ 6 by omega), mem, by omega,
    write.trans writes, alloc.trans allocs⟩
  rw [run, run_step waits answers]
  exact run_resp 0 rfl

theorem accept_st_of_rejected {c : Command} (rejected : ¬ Accepted c.root c.vpn s) : (accept c s).st = .resp := by
  by_cases range : inRange c.vpn = true
  · rw [accept_invalidRoot range fun root => rejected ⟨range, root⟩]
    rfl
  · rw [accept_outOfRange range]
    rfl

/-- A rejected command issues nothing (R122). -/
theorem run_rejected_trace {i : Instr} {n : Nat} {t : State} (presents : Presents i rest s)
    (rejected : ¬ Accepted i.command.root i.command.vpn s) (run : runToResponse (n + 1) s = .next t) :
    t.trace = s.trace := by
  have codes : codeFault s = none := codeFault_none (by simp [presents.idle]) presents.level
  have up : (accept i.command { s with cmdPort := rest }).st = .resp :=
    accept_st_of_rejected fun ⟨range, root⟩ => rejected ⟨range, root⟩
  rw [run_accept codes presents.released presents.idle presents.port, run_resp n up] at run
  cases run
  exact accept_trace ..

end

/-- Settles O52: `run_query`, with the hit and the frame as the two parts of the translation. -/
theorem queryAnswersTheTranslation : Obligations.QueryAnswersTheTranslation := by
  intro p r v q rest s presents accepted
  obtain ⟨u, run, mem, -⟩ := run_query presents accepted
  refine ⟨_, run, rfl, rfl, mem, fun f => ?_, ?_⟩
  · cases translateIn s r (vpnOf v) <;> simp [queryAnswer]
  · cases translateIn s r (vpnOf v) <;> simp [queryAnswer]

/-- Settles O53: the counts of `run_query`, and no event at all where the command is rejected. -/
theorem queryReadCounts : Obligations.QueryReadCounts := by
  intro p r v q rest s t presents run
  by_cases accepted : Accepted r v s
  · obtain ⟨u, run', -, reads, writes, allocs⟩ := run_query presents accepted
    obtain rfl : queryAnswer (translateIn s r (vpnOf v)) u = t := Host.Outcome.next.inj (run'.symm.trans run)
    refine ⟨fun _ => ⟨leadingValid_le _ _ _ intermediate r, reads, fun inner => ?_⟩, absurd accepted, writes, allocs⟩
    rw [translateIn, translate_eq_none inner]
    rfl
  · have silent : t.trace = s.trace := run_rejected_trace presents accepted run
    exact ⟨fun h => absurd h accepted, fun _ => congrArg (List.countP _) silent,
      congrArg (List.countP _) silent, congrArg (List.countP _) silent⟩

end Sys2Proof.Machine
end

section
/-! Proofs about the steps of `MAP` and `UNMAP` (R160 to R170): each FSM step as an equation, and what a step of them leaves
alone. -/
namespace Sys2Proof.Machine

/-! The FSM steps -/

theorem fits_of_walk {s : State} (walking : s.st = .walkRd ∨ s.st = .walkAlloc ∨ s.st = .walkLink)
    (level : s.lvl.toNat ≤ 3) : codeFault s = none ∧ levelFits s = true := by
  refine ⟨codeFault_none ?_ (by omega), levelFits_iff.mpr ⟨?_, fun _ => level, ?_⟩⟩ <;>
    rcases walking with st | st | st <;> simp [st]

theorem fits_of_leafWr {s : State} (st : s.st = .leafWr) (level : s.lvl = 4) :
    codeFault s = none ∧ levelFits s = true :=
  ⟨codeFault_none (by simp [st]) (by simp [level]), levelFits_iff.mpr (by simp [st, level])⟩

theorem slotFrame_of_valid {s : State} (valid : ¬ (slotEntry s).getLsbD 0 = false) :
    slotFrame s = some ((slotEntry s).extractLsb' 12 52) :=
  slotFrame_eq_some.mpr ⟨eq_true_of_ne_false valid, rfl⟩

/-- Settles O38: an absent entry is the move `mapAbsent`, a valid one the move `mapChild`. -/
theorem mapReadsAnIntermediateEntry : Obligations.MapReadsAnIntermediateEntry := by
  intro r v q s st op map level answers w t
  obtain ⟨codes, fits⟩ := fits_of_walk (.inl st) level
  by_cases absent : w.getLsbD 0 = false
  · rw [if_pos absent]
    exact (Move.mapAbsent st op map answers (slotFrame_eq_none.mpr absent)).exec_eq codes fits
  · rw [if_neg absent, (Move.mapChild st op map answers (slotFrame_of_valid absent)).exec_eq codes fits,
      descend_readLogged st]
    rfl

/-- Settles O43: an absent entry is the move `unmapMiss`, a valid one the move `unmapChild`. -/
theorem unmapReadsAnIntermediateEntry : Obligations.UnmapReadsAnIntermediateEntry := by
  intro r v q s st op map level answers w t
  obtain ⟨codes, fits⟩ := fits_of_walk (.inl st) level
  by_cases absent : w.getLsbD 0 = false
  · rw [if_pos absent]
    exact (Move.unmapMiss st op map answers (slotFrame_eq_none.mpr absent)).exec_eq codes fits
  · rw [if_neg absent, (Move.unmapChild st op map answers (slotFrame_of_valid absent)).exec_eq codes fits,
      descend_readLogged st]
    rfl

/-- Taking an answer changes only the allocator's data and adds the request (R60). -/
theorem answerTaken_state (s : State) :
    answerTaken s = { s with
      allocSupply := (answerTaken s).allocSupply
      draws := (answerTaken s).draws
      trace := .alloc (some (answerAt s 0)) :: s.trace } := by
  rw [← nextAnswer_eq_answerAt]
  unfold answerTaken
  rw [nextAnswer_state]
  rfl

/-- Settles O39: the two answers are the moves `mapGranted` and `mapExhausted`. -/
theorem mapAsksTheAllocator : Obligations.MapAsksTheAllocator := by
  intro r v q s st level answers
  obtain ⟨codes, fits⟩ := fits_of_walk (.inr (.inl st)) level
  refine ⟨(answerTaken s).allocSupply, (answerTaken s).draws, ?_⟩
  rw [← answerTaken_state]
  refine ⟨?_, answerAt_answerTaken s⟩
  have next := nextAnswer_eq_answerAt s
  cases answer : answerAt s 0 with
  | ok f => exact (Move.mapGranted st answers (next.trans answer)).exec_eq codes fits
  | exhausted => exact (Move.mapExhausted st answers (next.trans answer)).exec_eq codes fits

theorem writeData_walkLink {s : State} (st : s.st = .walkLink) : writeData s = pteEnc true s.newFrame := by
  simp only [writeData, st]

/-- The write data of `LEAF_WR` (R121). -/
theorem writeData_leafWr {s : State} (st : s.st = .leafWr) :
    writeData s = if s.mapReg then pteEnc true s.ppnReg else 0 := by
  simp only [writeData, st]
  rfl

theorem slotAddr_leaf {s : State} (leaf : s.lvl = 4) : slotAddr s = slotPA s.curFrame (idx s.vpnReg 4) := by
  rw [slotAddr, leaf]

/-- Settles O40: the move `mapLink`, which descends into the frame linked. -/
theorem mapLinksTheNewFrame : Obligations.MapLinksTheNewFrame := by
  intro r v q s st level answers
  obtain ⟨codes, fits⟩ := fits_of_walk (.inr (.inr st)) level
  rw [(Move.mapLink st answers).exec_eq codes fits, slotWritten, writeData_walkLink st]
  split_ifs with last
  · exact congrArg _ (descend_leaf last)
  · exact congrArg _ (descend_inner last)

/-- Settles O41: the move `mapLeaf`. -/
theorem mapWritesTheLeafAndResponds : Obligations.MapWritesTheLeafAndResponds := by
  intro r v q s st map level answers
  obtain ⟨codes, fits⟩ := fits_of_leafWr st level
  rw [(Move.mapLeaf st map answers).exec_eq codes fits, slotWritten, writeData_leafWr st, map, slotAddr_leaf level]
  rfl

/-- Settles O44: the move `unmapLeaf`. -/
theorem unmapClearsTheLeafAndResponds : Obligations.UnmapClearsTheLeafAndResponds := by
  intro r v q s st map level answers
  obtain ⟨codes, fits⟩ := fits_of_leafWr st level
  rw [(Move.unmapLeaf st map answers).exec_eq codes fits, slotWritten, writeData_leafWr st, map, slotAddr_leaf level]
  rfl

/-! What a move leaves alone, for every command -/

theorem accept_mem (c : Command) (s : State) : (accept c s).mem = s.mem := (onlyReads_accept c s).mem

theorem deliver_mem (s : State) : (deliver s).mem = s.mem := (onlyReads_deliver s).mem

section
variable {i : Instr} {s t : State}

theorem Move.mem_of_not_writing (move : Move i s t) (link : s.st ≠ .walkLink) (leaf : s.st ≠ .leafWr) :
    t.mem = s.mem := by
  cases move with
  | accept => exact accept_mem ..
  | deliver => exact deliver_mem s
  | mapLink st => exact absurd st link
  | mapLeaf st | unmapLeaf st => exact absurd st leaf
  | mapGranted | mapExhausted => exact (answerTaken_frame s).2.2.1
  | _ => rfl

theorem Move.mem_of_writing (move : Move i s t) (writing : s.st = .walkLink ∨ s.st = .leafWr) :
    t.mem = (slotWritten s).mem := by
  cases move with
  | mapLink | mapLeaf | unmapLeaf => rfl
  | _ => simp [*] at writing

/-- Outside the slot written, in the two states that write, every byte is as before (R55, R163, R164, R169). -/
theorem Move.read_outside (move : Move i s t) {a : Nat}
    (outside : s.st = .walkLink ∨ s.st = .leafWr → a < (slotAddr s).toNat ∨ (slotAddr s).toNat + 8 ≤ a) :
    t.mem.read a = s.mem.read a := by
  by_cases writing : s.st = .walkLink ∨ s.st = .leafWr
  · rw [move.mem_of_writing writing]
    exact read_writeWord_outside (outside writing)
  · rw [not_or] at writing
    rw [move.mem_of_not_writing writing.1 writing.2]

/-- Only `WALK_ALLOC` changes `new_frame` and the allocator's data (R162). -/
theorem Move.keepsAllocator (move : Move i s t) (asks : s.st ≠ .walkAlloc) :
    t.newFrame = s.newFrame ∧ t.allocSupply = s.allocSupply ∧ t.draws = s.draws := by
  cases move with
  | accept =>
    obtain ⟨-, supply, draws, newFrame, -⟩ := onlyReads_accept i.command s
    exact ⟨newFrame, supply, draws⟩
  | deliver =>
    obtain ⟨-, supply, draws, newFrame, -⟩ := onlyReads_deliver s
    exact ⟨newFrame, supply, draws⟩
  | mapGranted st | mapExhausted st => exact absurd st asks
  | _ => exact ⟨rfl, rfl, rfl⟩

theorem Move.keepsPort (move : Move i s t) : t.cmdPort = s.cmdPort ∧ t.resetFates = s.resetFates := by
  cases move with
  | accept =>
    obtain ⟨-, -, -, -, port, fates, -⟩ := onlyReads_accept i.command s
    exact ⟨port, fates⟩
  | deliver =>
    obtain ⟨-, -, -, -, port, fates, -⟩ := onlyReads_deliver s
    exact ⟨port, fates⟩
  | mapGranted | mapExhausted =>
    rw [answerTaken_state]
    exact ⟨rfl, rfl⟩
  | _ => exact ⟨rfl, rfl⟩

/-- The walk moves on only at accept and at a descent (R122, R141, R161, R163, R168). -/
theorem Move.keepsPlace (move : Move i s t) (busy : s.st ≠ .idle) (reading : s.st ≠ .walkRd)
    (linking : s.st ≠ .walkLink) : t.curFrame = s.curFrame ∧ t.lvl = s.lvl := by
  cases move with
  | accept idle => exact absurd idle busy
  | deliver =>
    obtain ⟨cur, lvl, -⟩ := deliver_registers s
    exact ⟨cur, lvl⟩
  | mapLink st => exact absurd st linking
  | mapGranted | mapExhausted =>
    rw [answerTaken_state]
    exact ⟨rfl, rfl⟩
  | queryUnmapped | queryMapped | mapLeaf | unmapLeaf => exact ⟨rfl, rfl⟩
  | queryMiss st | queryChild st | mapAbsent st | mapChild st | unmapMiss st | unmapChild st =>
    exact absurd st reading

theorem keepsResponse_of_enters (waits : s.st ≠ .resp) (enters : t.st = .resp) : KeepsResponse s t :=
  fun entered => absurd enters (entered.resolve_right waits)

theorem Move.keepsResponse (move : Move i s t) : KeepsResponse s t := by
  cases move with
  | accept idle => exact keepsResponse_accept _ (by simp [idle])
  | deliver => exact fun _ => (deliver_registers s).2.2
  | queryMiss st | queryUnmapped st | queryMapped st | mapExhausted st | mapLeaf st | unmapMiss st | unmapLeaf st =>
    exact keepsResponse_of_enters (by simp [st]) rfl
  | mapGranted =>
    rw [answerTaken_state]
    exact fun _ => ⟨rfl, rfl, rfl⟩
  | queryChild | mapAbsent | mapChild | mapLink | unmapChild => exact fun _ => ⟨rfl, rfl, rfl⟩

end

/-- Settles O42: what every move keeps, and that a move writes only the slot's bytes. -/
theorem mapFrame : Obligations.MapFrame := by
  intro r v q s t h
  have move := (exec_next h).2.2
  obtain ⟨plat, released, ready, memory, allocator⟩ := move.keepsInputs
  obtain ⟨port, fates⟩ := move.keepsPort
  refine ⟨fun _ => move.read_outside, move.keepsAllocator, plat, port, ready, released, memory, allocator, fates,
    fun busy => ?_, move.keepsPlace, move.keepsResponse⟩
  have keeps := move.keeps busy
  exact ⟨keeps.op, keeps.map, keeps.vpn, keeps.ppn⟩

section
variable {r q : Frame} {v : Word} {s t : State}

/-- The control states `UNMAP` steps in (R122, R123, R168, R169). -/
theorem Move.unmap_states (move : Move (.unmap r v q) s t) :
    s.st = .idle ∨ s.st = .walkRd ∨ s.st = .leafWr ∨ s.st = .resp := by
  cases move <;> simp [*]

/-- `UNMAP` adds at most one event, and that is no allocator request (R170). -/
theorem Move.unmap_event (move : Move (.unmap r v q) s t) :
    t.trace = s.trace ∨ ∃ e : PortEvent, t.trace = e :: s.trace ∧ e.isAlloc = false := by
  cases move with
  | accept => exact .inl (accept_trace ..)
  | deliver => exact (onlyReads_deliver s).event.imp_right fun ⟨e, added, _, other⟩ => ⟨e, added, other⟩
  | unmapMiss | unmapChild | unmapLeaf => exact .inr ⟨_, rfl, rfl⟩

theorem accept_not_exhausted {c : Command} {s : State} (rejected : (accept c s).st = .resp) :
    (accept c s).rspStatus ≠ .allocatorExhausted := by
  unfold accept at *
  split_ifs at * <;> simp_all [raiseError]

/-- No response of `UNMAP` is `ALLOCATOR_EXHAUSTED` (R89, R170). -/
theorem Move.unmap_not_exhausted (move : Move (.unmap r v q) s t) (enters : t.st = .resp) (waits : s.st ≠ .resp) :
    t.rspStatus ≠ .allocatorExhausted := by
  cases move with
  | accept => exact accept_not_exhausted enters
  | deliver resp => exact absurd resp waits
  | unmapMiss | unmapLeaf => simp
  | unmapChild =>
    rw [descend_st] at enters
    split_ifs at enters

end

/-- Settles O45: `UNMAP` has no step in `WALK_ALLOC` and `WALK_LINK`, and what every move keeps. -/
theorem unmapNeverAllocatesAndWritesOnlyTheLeaf : Obligations.UnmapNeverAllocatesAndWritesOnlyTheLeaf := by
  intro r v q s t h
  obtain ⟨-, fits, move⟩ := exec_next h
  have states := move.unmap_states
  have linking : s.st ≠ .walkLink := fun st => by simp [st] at states
  have asks : s.st ≠ .walkAlloc := fun st => by simp [st] at states
  have leaf (st : s.st = .leafWr) : s.lvl = 4 := (levelFits_iff.mp fits).2.2 (.inr st)
  obtain ⟨plat, released, ready, memory, allocator⟩ := move.keepsInputs
  obtain ⟨port, fates⟩ := move.keepsPort
  obtain ⟨newFrame, supply, draws⟩ := move.keepsAllocator asks
  refine ⟨move.mem_of_not_writing linking, leaf, fun a outside => move.read_outside fun writing => ?_, supply, draws,
    newFrame, move.unmap_event, plat, port, ready, released, memory, allocator, fates, fun busy => ?_,
    fun busy reading => move.keepsPlace busy reading linking, move.keepsResponse, move.unmap_not_exhausted⟩
  · have st := writing.resolve_left linking
    rw [slotAddr_leaf (leaf st)]
    exact outside st
  · have keeps := move.keeps busy
    exact ⟨keeps.op, keeps.map, keeps.vpn, keeps.ppn⟩

end Sys2Proof.Machine
end

section
/-! Proofs about the entries that a step changes (R172): the entry to be linked is absent, and only the slot's entry is
written. -/
namespace Sys2Proof.Machine

theorem Move.keeps_absent {i : Instr} {s t : State} (move : Move i s t)
    (unlinked : s.st = .walkAlloc ∨ s.st = .walkLink → slotFrame s = none)
    (linking : t.st = .walkAlloc ∨ t.st = .walkLink) : slotFrame t = none := by
  cases move with
  | mapAbsent _ _ _ _ absent => exact absent
  | mapGranted st =>
    rw [answerTaken_state]
    exact unlinked (.inl st)
  | accept => rcases accept_st i.command s with st | st <;> simp [st] at linking
  | deliver resp =>
    unfold Machine.deliver at linking
    split_ifs at linking <;> simp_all
  | queryChild | mapChild | unmapChild | mapLink =>
    rw [descend_st] at linking
    split_ifs at linking <;> simp at linking
  | queryMiss | queryUnmapped | queryMapped | mapExhausted | mapLeaf | unmapMiss | unmapLeaf =>
    simp [raiseError] at linking

/-- Settles O18: only a read of an absent entry enters `WALK_ALLOC`, and the request leaves the entry as it is. -/
theorem stepKeepsTheLinkedEntryAbsent : Obligations.StepKeepsTheLinkedEntryAbsent := by
  intro s t unlinked h
  simp only [← slotFrame_eq_none] at unlinked ⊢
  obtain ⟨-, ⟨-, rfl⟩ | ⟨-, -, -, rfl⟩ | ⟨_, _, -, idle, -, move⟩ | ⟨-, -, -, move⟩⟩ := step_next h
  · rw [resetStep_state]
    simp
  · exact unlinked
  · exact move.keeps_absent (by simp [idle])
  · exact move.keeps_absent unlinked

/-- A write changes no entry but the slot's, and that to the write data (R55, R120). -/
theorem entryAt_slotWritten {s t : State} {f : Frame} {i : Idx} (memory : s.mem.wf = true)
    (written : t.mem = (slotWritten s).mem) (plat : t.plat = s.plat) (changed : entryAt t f i ≠ entryAt s f i) :
    (f, i) = (s.curFrame, idx s.vpnReg s.lvl) ∧ entryAt t f i = writeData s := by
  have entry : entryAt t f i = entryOf s.plat.byteOrder (slotWritten s).mem f i := by rw [entryAt, plat, written]
  have slot : (f, i) = (s.curFrame, idx s.vpnReg s.lvl) := by
    by_contra other
    exact changed (entry.trans (entryOf_writeWord_other (Ne.symm other)))
  obtain ⟨rfl, rfl⟩ := Prod.mk.inj slot
  exact ⟨rfl, entry.trans (entryOf_writeWord_same memory)⟩

/-- Settles O31: of the moves of a command in flight three write, each the slot's entry; waiting and accept write nothing. -/
theorem entriesChangeOnlyByTheirCommands : Obligations.EntriesChangeOnlyByTheirCommands := by
  intro s t f i inv unlinked released h changed
  have plat := (step_keepsInputs h).plat
  have kept (mem : t.mem = s.mem) : False := changed (by rw [entryAt, mem, plat]; rfl)
  obtain ⟨-, ⟨reset, -⟩ | ⟨-, -, -, rfl⟩ | ⟨_, _, -, idle, -, move⟩ | ⟨-, -, -, move⟩⟩ := step_next h
  · simp [released] at reset
  · exact absurd rfl changed
  · exact (kept (move.mem_of_not_writing (by simp [idle]) (by simp [idle]))).elim
  by_cases writing : s.st = .walkLink ∨ s.st = .leafWr
  · obtain ⟨slot, entry⟩ := entryAt_slotWritten inv.memory (move.mem_of_writing writing) plat changed
    obtain ⟨-, mapOfWalk, -, updateOfLeafWr⟩ := registersFit_iff.mp inv.registers
    obtain ⟨-, walk, leaf⟩ := levelFits_iff.mp inv.level
    refine ⟨slot, ?_⟩
    rcases writing with st | st
    · obtain ⟨op, map⟩ := mapOfWalk (.inr st)
      obtain ⟨rfl, rfl⟩ := Prod.mk.inj slot
      exact .inl ⟨st, op, map, walk (.inr (.inr st)), unlinked (.inr st), entry.trans (writeData_walkLink st)⟩
    · have data := entry.trans (writeData_leafWr st)
      cases map : s.mapReg with
      | true => exact .inr (.inl ⟨st, updateOfLeafWr st, rfl, leaf (.inr st), by simpa [map] using data⟩)
      | false => exact .inr (.inr ⟨st, updateOfLeafWr st, rfl, leaf (.inr st), by simpa [map] using data⟩)
  · rw [not_or] at writing
    exact (kept (move.mem_of_not_writing writing.1 writing.2)).elim

end Sys2Proof.Machine
end

section
/-! Proofs about the table as a tree of nodes (R12, R61, R174): what writing one entry of a node changes of the paths, and
that linking a fresh frame and writing a leaf keep the tree. -/
namespace Sys2Proof.Machine

/-! The premises over a memory -/

/-- The tree premise (R174) of the table in a memory. -/
def IsTree (o : ByteOrder) (m : Memory) (r : Frame) : Prop :=
  ∀ (p q : List Idx) (f : Frame), p.length ≤ 4 → q.length ≤ 4 →
    followPath o m p r = some f → followPath o m q r = some f → p = q

/-- A frame that a path of the table in a memory reaches (R12). -/
def Reaches (o : ByteOrder) (m : Memory) (r f : Frame) : Prop :=
  ∃ path : List Idx, path.length ≤ 4 ∧ followPath o m path r = some f

/-- A frame whose entries in a memory are all 0 (R61). -/
def ZeroIn (o : ByteOrder) (m : Memory) (f : Frame) : Prop := ∀ i : Idx, entryOf o m f i = 0

theorem treePremise_iff {s : State} {r : Frame} : TreePremise s r ↔ IsTree s.plat.byteOrder s.mem r := Iff.rfl

theorem ZeroIn.entryFrame {o : ByteOrder} {m : Memory} {f : Frame} (zero : ZeroIn o m f) (i : Idx) :
    Machine.entryFrame o m f i = none := by
  rw [Machine.entryFrame, zero i]
  rfl

theorem ZeroIn.write {o : ByteOrder} {m : Memory} {c f : Frame} {x : Idx} {w : Word} (zero : ZeroIn o m f)
    (other : f ≠ c) : ZeroIn o (writeWord o m (slotPA c x).toNat w) f := fun i => by
  rw [entryOf_writeWord_other (mt (congrArg Prod.fst) other.symm), zero i]

/-! One entry written -/

section
variable {o : ByteOrder} {m : Memory} {r c f : Frame} {a : List Idx} {x : Idx} {w : Word}

/-- In a tree only the paths through an entry depend on it. -/
theorem followPath_write_of_tree (tree : IsTree o m r) (len : a.length ≤ 4) (node : followPath o m a r = some c)
    {p : List Idx} (short : p.length ≤ 5) (avoids : ¬ a ++ [x] <+: p) :
    followPath o (writeWord o m (slotPA c x).toNat w) p r = followPath o m p r := by
  refine followPath_write_other p r ?_
  rintro b y e rfl toEntry rfl
  rw [List.length_append, List.length_cons] at short
  obtain rfl : b = a := tree _ _ _ (by omega) len toEntry node
  exact avoids ⟨e, by simp⟩

/-- In a tree a path through the entry written goes on where the word leads. -/
theorem followPath_through_write (memory : m.wf = true) (tree : IsTree o m r) (len : a.length ≤ 4)
    (node : followPath o m a r = some c) (b : List Idx) :
    followPath o (writeWord o m (slotPA c x).toNat w) (a ++ [x] ++ b) r =
      (wordFrame w).bind (followPath o (writeWord o m (slotPA c x).toNat w) b) := by
  have before := followPath_write_of_tree (x := x) (w := w) tree len node (p := a) (by omega)
    fun within => by simpa using within.length_le
  rw [List.append_assoc, followPath_append, before, node]
  simp only [Option.bind_some, List.singleton_append, followPath, entryFrame_write_same memory]
  cases wordFrame w <;> rfl

/-- A leaf entry lies on no path to a node: writing it keeps the tree and every other leaf entry's path. -/
theorem write_leaf (tree : IsTree o m r) (len : a.length = 4) (node : followPath o m a r = some c) :
    IsTree o (writeWord o m (slotPA c x).toNat w) r ∧
      ∀ p : List Idx, p.length = 5 → p ≠ a ++ [x] →
        followPath o (writeWord o m (slotPA c x).toNat w) p r = followPath o m p r := by
  have full : (a ++ [x]).length = 5 := by simp [len]
  have inner (p : List Idx) (hp : p.length ≤ 4) :=
    followPath_write_of_tree (x := x) (w := w) tree len.le node (p := p) (by omega) fun within => by
      have := within.length_le
      omega
  refine ⟨fun p q f hp hq toP toQ => ?_, fun p hp other => ?_⟩
  · rw [inner p hp] at toP
    rw [inner q hq] at toQ
    exact tree p q f hp hq toP toQ
  · exact followPath_write_of_tree tree len.le node hp.le fun within =>
      other (within.eq_of_length (full.trans hp.symm)).symm

/-! A fresh frame linked -/

/-- In a tree over canonical memory a path leads to the node `c`, and `f` is zero-filled and no node (R61): `f` can be linked
at an entry of `c`. -/
structure Linkable (o : ByteOrder) (m : Memory) (r : Frame) (a : List Idx) (c f : Frame) : Prop where
  memory : m.wf = true
  tree : IsTree o m r
  len : a.length ≤ 3
  node : followPath o m a r = some c
  zero : ZeroIn o m f
  fresh : ¬ Reaches o m r f

theorem Linkable.reaches (link : Linkable o m r a c f) : Reaches o m r c :=
  ⟨a, link.len.trans (by decide), link.node⟩

theorem Linkable.zero_write (link : Linkable o m r a c f) : ZeroIn o (writeWord o m (slotPA c x).toNat w) f :=
  link.zero.write fun same => link.fresh (same ▸ link.reaches)

/-- After the link the one new path to a node is that to the frame linked, as all its entries are absent. -/
theorem Linkable.followPath_write (link : Linkable o m r a c f) {p : List Idx} (short : p.length ≤ 5) :
    followPath o (writeWord o m (slotPA c x).toNat (pteEnc true f)) p r =
      if p = a ++ [x] then some f else if a ++ [x] <+: p then none else followPath o m p r := by
  have len : a.length ≤ 4 := link.len.trans (by decide)
  split_ifs with own within
  · rw [own, ← List.append_nil (a ++ [x]), followPath_through_write link.memory link.tree len link.node,
      wordFrame_pteEnc]
    rfl
  · obtain ⟨b, rfl⟩ := within
    rw [followPath_through_write link.memory link.tree len link.node, wordFrame_pteEnc]
    exact followPath_zero link.zero_write (by rintro rfl; simp at own)
  · exact followPath_write_of_tree link.tree len link.node short within

theorem Linkable.reaches_write {g : Frame} (link : Linkable o m r a c f)
    (reaches : Reaches o (writeWord o m (slotPA c x).toNat (pteEnc true f)) r g) : g = f ∨ Reaches o m r g := by
  obtain ⟨p, short, path⟩ := reaches
  rw [link.followPath_write (by omega)] at path
  split_ifs at path
  · exact .inl (Option.some.inj path).symm
  · exact .inr ⟨p, short, path⟩

theorem Linkable.isTree_write (link : Linkable o m r a c f) :
    IsTree o (writeWord o m (slotPA c x).toNat (pteEnc true f)) r := by
  intro p q g hp hq toP toQ
  rw [link.followPath_write (by omega)] at toP toQ
  split_ifs at toP toQ with ownP ownQ _ _ ownQ
  · rw [ownP, ownQ]
  · cases toP
    exact absurd ⟨q, hq, toQ⟩ link.fresh
  · cases toQ
    exact absurd ⟨p, hp, toP⟩ link.fresh
  · exact link.tree p q g hp hq toP toQ

/-- No path to a leaf entry led through an absent entry, and none leads through the frame linked there. -/
theorem Linkable.followPath_write_leaf (link : Linkable o m r a c f) (absent : entryFrame o m c x = none)
    {p : List Idx} (leaf : p.length = 5) :
    followPath o (writeWord o m (slotPA c x).toNat (pteEnc true f)) p r = followPath o m p r := by
  have len := link.len
  rw [link.followPath_write leaf.le, if_neg (by rintro rfl; simp at leaf; omega)]
  split_ifs with within
  · obtain ⟨b, rfl⟩ := within
    simp [followPath_append, link.node, followPath, absent]
  · rfl

end

/-! The table after an update -/

/-- Memory keeps its canonical form, the table is a tree, and every leaf entry's path gives what it gave before. -/
structure KeepsTable (o : ByteOrder) (r : Frame) (m m' : Memory) : Prop where
  memory : m'.wf = true
  tree : IsTree o m' r
  leaves : ∀ p : List Idx, p.length = 5 → followPath o m' p r = followPath o m p r

theorem KeepsTable.trans {o : ByteOrder} {r : Frame} {m m' m'' : Memory} (h : KeepsTable o r m m')
    (k : KeepsTable o r m' m'') : KeepsTable o r m m'' :=
  ⟨k.memory, k.tree, fun p leaf => (k.leaves p leaf).trans (h.leaves p leaf)⟩

/-- The answers `j` to `N - 1` are zero-filled frames, none of those avoided and no two the same (R61). -/
def FreshAnswers (o : ByteOrder) (m : Memory) (ans : Nat → AllocAnswer) (avoid : Frame → Prop) (j N : Nat) : Prop :=
  ∀ k, j ≤ k → k < N → ∀ f, ans k = .ok f → ZeroIn o m f ∧ ¬ avoid f ∧ ∀ i, j ≤ i → i < k → ans i ≠ .ok f

theorem AllocPremise.fresh {s : State} {r : Frame} {n : Nat} (premise : AllocPremise s r n) :
    FreshAnswers s.plat.byteOrder s.mem (answerAt s) (Reaches s.plat.byteOrder s.mem r) 0 n :=
  fun k _ below f answer =>
    have ⟨zero, outside, distinct⟩ := premise k below f answer
    ⟨zero, outside, fun i _ => distinct i⟩

/-- Linking the frame of the first answer leaves the later ones fresh. -/
theorem FreshAnswers.link {o : ByteOrder} {m : Memory} {ans : Nat → AllocAnswer} {avoid avoid' : Frame → Prop}
    {j N : Nat} {c f : Frame} {x : Idx} {w : Word} (fresh : FreshAnswers o m ans avoid j N) (answer : ans j = .ok f)
    (avoided : avoid c) (adds : ∀ g, avoid' g → g = f ∨ avoid g) :
    FreshAnswers o (writeWord o m (slotPA c x).toNat w) ans avoid' (j + 1) N := by
  intro k above below g answer'
  obtain ⟨zero, outside, distinct⟩ := fresh k (by omega) below g answer'
  refine ⟨zero.write fun same => outside (same ▸ avoided), fun avoids => ?_, fun i hi => distinct i (by omega)⟩
  obtain rfl | avoids := adds g avoids
  · exact distinct j le_rfl (by omega) answer
  · exact outside avoids

/-- The link of a fresh frame at an absent entry keeps the table. -/
theorem Linkable.keepsTable {o : ByteOrder} {m : Memory} {r c f : Frame} {a : List Idx} {x : Idx}
    (link : Linkable o m r a c f) (absent : entryFrame o m c x = none) :
    KeepsTable o r m (writeWord o m (slotPA c x).toNat (pteEnc true f)) :=
  ⟨writeWord_wf (slotPA_bound ..) link.memory, link.isTree_write, fun _ => link.followPath_write_leaf absent⟩

/-- The walk of a `MAP` over the levels from `k` on, from a node whose entry at level `k` is absent, keeps the table, and
ends at the VPN's leaf node (R61, R163): each frame linked is fresh, so its entries are absent too. -/
theorem mapWalk_keepsTable {o : ByteOrder} {r : Frame} {v : Vpn} {ans : Nat → AllocAnswer} (n : Nat) :
    ∀ {k j : Nat} {m : Memory} {c : Frame}, k + n = 4 → m.wf = true → IsTree o m r →
      followPath o m (vpnPath v k) r = some c →
      (k ≠ 4 → entryFrame o m c (idx v (BitVec.ofNat 3 k)) = none) →
      FreshAnswers o m ans (Reaches o m r) j (j + n) →
      KeepsTable o r m (mapWalk o v ans n j m c).2.1 ∧
        ∀ d, (mapWalk o v ans n j m c).1 = some d →
          followPath o (mapWalk o v ans n j m c).2.1 (vpnPath v 4) r = some d := by
  induction n with
  | zero =>
    intro k j m c level memory tree node _ _
    obtain rfl : k = 4 := level
    refine ⟨⟨memory, tree, fun _ _ => rfl⟩, fun d leaf => ?_⟩
    rw [← leaf]
    exact node
  | succ n ih =>
    intro k j m c level memory tree node absent fresh
    have absent := absent (by omega)
    rw [mapWalk, show 3 - n = k by omega, absent]
    cases answer : ans j with
    | exhausted => exact ⟨⟨memory, tree, fun _ _ => rfl⟩, by simp⟩
    | ok f =>
      obtain ⟨zero, outside, -⟩ := fresh j le_rfl (by omega) f answer
      have link : Linkable o m r (vpnPath v k) c f := ⟨memory, tree, by simp; omega, node, zero, outside⟩
      have keeps := link.keepsTable absent
      have child := link.followPath_write (x := idx v (BitVec.ofNat 3 k)) (p := vpnPath v (k + 1)) (by simp; omega)
      rw [if_pos (vpnPath_succ v k)] at child
      obtain ⟨keeps', leaf⟩ := ih (k := k + 1) (by omega) keeps.memory keeps.tree child
        (fun _ => link.zero_write.entryFrame _)
        (Nat.add_right_comm j 1 n ▸ fresh.link answer link.reaches fun _ => link.reaches_write)
      exact ⟨keeps.trans keeps', leaf⟩

/-- The walk of a `MAP` over the levels from `k` on, from a node whose entry at level `k` is absent, over fresh frames, takes
an answer at each level if it ends at a leaf node (R171). -/
theorem mapWalk_taken {o : ByteOrder} {v : Vpn} {ans : Nat → AllocAnswer} (n : Nat) :
    ∀ {k j : Nat} {m : Memory} {c d : Frame} {avoid : Frame → Prop}, k + n = 4 → avoid c →
      (k ≠ 4 → entryFrame o m c (idx v (BitVec.ofNat 3 k)) = none) →
      FreshAnswers o m ans avoid j (j + n) →
      (mapWalk o v ans n j m c).1 = some d → (mapWalk o v ans n j m c).2.2 = j + n := by
  induction n with
  | zero => intros; rfl
  | succ n ih =>
    intro k j m c d avoid level avoided absent fresh
    rw [mapWalk, show 3 - n = k by omega, absent (by omega)]
    cases answer : ans j with
    | exhausted => simp
    | ok f =>
      intro leaf
      obtain ⟨zero, outside, -⟩ := fresh j le_rfl (by omega) f answer
      have other : f ≠ c := fun same => outside (same ▸ avoided)
      have taken := ih (k := k + 1) (avoid := fun g => g = f ∨ avoid g) (by omega) (.inl rfl)
        (fun _ => (zero.write other).entryFrame _) (Nat.add_right_comm j 1 n ▸ fresh.link answer avoided fun _ => id) leaf
      exact taken.trans (by omega)

theorem le_mapWalk_taken {o : ByteOrder} {v : Vpn} {ans : Nat → AllocAnswer} (n : Nat) :
    ∀ {j : Nat} {m : Memory} {c : Frame}, j ≤ (mapWalk o v ans n j m c).2.2 := by
  induction n with
  | zero => intros; exact le_rfl
  | succ n ih =>
    intro j m c
    rw [mapWalk]
    split
    · exact ih
    · split
      · exact (Nat.le_succ j).trans ih
      · exact Nat.le_succ j

/-- Where the next entry is absent, a `MAP` asks the allocator (R161, R162). -/
theorem lt_mapWalk_taken {o : ByteOrder} {v : Vpn} {ans : Nat → AllocAnswer} {n j : Nat} {m : Memory} {c : Frame}
    (absent : entryFrame o m c (idx v (BitVec.ofNat 3 (3 - n))) = none) :
    j < (mapWalk o v ans (n + 1) j m c).2.2 := by
  simp only [mapWalk, absent]
  cases ans j with
  | ok => exact le_mapWalk_taken n
  | exhausted => exact Nat.lt_succ_self j

/-! VPNs as paths -/

theorem getLsbD_eq_idx (v : Vpn) {j : Nat} (bit : j < 45) :
    v.getLsbD j = (idx v (BitVec.ofNat 3 (4 - j / 9))).getLsbD (j % 9) := by
  have level : (BitVec.ofNat 3 (4 - j / 9)).toNat = 4 - j / 9 := Nat.mod_eq_of_lt (by omega)
  have place : 36 - 9 * (4 - j / 9) + j % 9 = j := by omega
  simp [idx, level, place, Nat.mod_lt]

/-- The five indices of a VPN cover it (R110). -/
theorem vpnPath_inj {v v2 : Vpn} (same : vpnPath v 5 = vpnPath v2 5) : v = v2 := by
  refine BitVec.eq_of_getLsbD_eq fun j bit => ?_
  have index : idx v (BitVec.ofNat 3 (4 - j / 9)) = idx v2 (BitVec.ofNat 3 (4 - j / 9)) :=
    List.map_inj_left.mp same _ (List.mem_range.mpr (by omega))
  rw [getLsbD_eq_idx v bit, getLsbD_eq_idx v2 bit, index]

end Sys2Proof.Machine
end

section
/-! Proofs about the runs of `MAP` and `UNMAP` (R160, R167, R171): through the leading valid entries to the first absent
entry or the leaf node, and from there to the response. -/
namespace Sys2Proof.Machine

/-! The first absent entry, or the leaf -/

/-- A `MAP` or `UNMAP` has gone from accept through the `k` leading valid entries of its path: it is at the node of level
`k`, and the transactions so far are `k` reads. -/
structure AtGap (c : Command) (rest : List Bundle) (k : Nat) (s u : State) : Prop where
  few : k ≤ 4
  run : ∀ n, runToResponse (n + k + 1) s = runToResponse n u
  keeps : Keeps (walkStart c rest s) u
  level : u.lvl.toNat = k
  mem : u.mem = s.mem
  node : nodeOn s.plat.byteOrder s.mem c.root (vpnOf c.vpn) k = some u.curFrame
  st : u.st = if k = 4 then .leafWr else .walkRd
  absent : k ≠ 4 → entryFrame s.plat.byteOrder s.mem u.curFrame (idx (vpnOf c.vpn) (BitVec.ofNat 3 k)) = none
  reads : readCount u = readCount s + k
  writes : writeCount u = writeCount s
  allocs : allocCount u = allocCount s
  answers : ∀ j, answerAt u j = answerAt s j

section
variable {i : Instr} {rest : List Bundle} {s u : State} {k : Nat} {c : Command}

theorem exists_atGap (presents : Presents i rest s) (accepted : Accepted i.command.root i.command.vpn s)
    (op : i.command.op = true) :
    ∃ u, AtGap i.command rest (pathDepth s i.command.root (vpnOf i.command.vpn)) s u := by
  obtain ⟨k, depth⟩ : ∃ k, pathDepth s i.command.root (vpnOf i.command.vpn) = k := ⟨_, rfl⟩
  have few : k ≤ 4 := depth ▸ leadingValid_le _ _ _ intermediate i.command.root
  obtain ⟨u, run, keeps, lvl, mem, node, st, reads, writes, allocs, answers, -⟩ :=
    walk_loop k 4 (walkStart i.command rest s) (live_walkStart presents) rfl
      (by rw [lastLevels_four]; exact depth.ge) fun _ => rfl
  have starts : (walkStart i.command rest s).lvl.toNat + k = k := Nat.zero_add k
  rw [lastLevels_four] at node
  rw [depth]
  refine ⟨u, few, fun n => ?_, keeps, lvl.trans starts, mem, node, ?_, fun inner => ?_, reads, writes, allocs, answers⟩
  · exact (run_step (by simp [presents.idle]) (step_accepted presents accepted)).trans (run n)
  · rw [st, starts]
    by_cases start : k = 0
    · simp [start, walkStart]
    · simp [start, walkStart, op]
  · have gap := translate_eq_entryFrame depth node
    rwa [translate_eq_none (by rw [pathDepth] at depth; omega), eq_comm] at gap

theorem AtGap.live (gap : AtGap c rest k s u) (live : Live (walkStart c rest s)) : Live u := gap.keeps.live live

theorem AtGap.slotFrame (gap : AtGap c rest k s u) :
    slotFrame u = entryFrame s.plat.byteOrder s.mem u.curFrame (idx (vpnOf c.vpn) (BitVec.ofNat 3 k)) := by
  have few := gap.few
  have level : u.lvl = BitVec.ofNat 3 k := BitVec.eq_of_toNat_eq (by simp [gap.level]; omega)
  rw [Machine.slotFrame, gap.keeps.plat, gap.mem, gap.keeps.vpn, level]
  rfl

end

/-! The leaf write -/

theorem slotWritten_leaf_mem {s : State} (st : s.st = .leafWr) (leaf : s.lvl = 4) :
    (slotWritten s).mem = writeWord s.plat.byteOrder s.mem (slotPA s.curFrame (idx s.vpnReg 4)).toNat
      (if s.mapReg then pteEnc true s.ppnReg else 0) := by
  rw [← slotAddr_leaf leaf, ← writeData_leafWr st]
  rfl

/-! `UNMAP` -/

/-- How an `UNMAP` ends (R168 to R171): with an absent entry on the path nothing is written; else the leaf is cleared. -/
inductive UnmapEnds (r : Frame) (v : Vpn) (k : Nat) (s t : State) : Prop
  | miss : k < 4 → t.mem = s.mem → readCount t = readCount s + k + 1 → writeCount t = writeCount s →
      UnmapEnds r v k s t
  | cleared {d : Frame} : k = 4 → nodeOn s.plat.byteOrder s.mem r v 4 = some d →
      t.mem = writeWord s.plat.byteOrder s.mem (slotPA d (idx v 4)).toNat 0 →
      readCount t = readCount s + 4 → writeCount t = writeCount s + 1 → UnmapEnds r v k s t

section
variable {r q : Frame} {v : Word} {rest : List Bundle} {s : State}

theorem run_unmap (presents : Presents (.unmap r v q) rest s) (accepted : Accepted r v s) :
    ∃ t, runToResponse 6 s = .next t ∧ t.st = .resp ∧ t.rspStatus = .ok ∧ t.plat = s.plat ∧
      allocCount t = allocCount s ∧ UnmapEnds r (vpnOf v) (pathDepth s r (vpnOf v)) s t := by
  obtain ⟨u, gap⟩ : ∃ u, AtGap (Instr.unmap r v q).command rest (pathDepth s r (vpnOf v)) s u :=
    exists_atGap presents accepted rfl
  generalize pathDepth s r (vpnOf v) = k at gap ⊢
  have live := gap.live (live_walkStart presents)
  have few := gap.few
  have map : u.mapReg = false := gap.keeps.map
  have ends {t} (waits : u.st ≠ .resp) (next : step u = .next t) (up : t.st = .resp) :
      runToResponse 6 s = .next t := by
    refine run_mono up ?_ (show 1 + k + 1 ≤ 6 by omega)
    rw [gap.run, run_step waits next]
    exact run_resp 0 up
  by_cases leaf : k = 4
  · subst leaf
    have st : u.st = .leafWr := gap.st
    have lvl := level_four gap.level
    obtain ⟨read, write, alloc⟩ := counts_slotWritten u
    refine ⟨_, ends (by simp [st]) (step_leafWr st lvl live) rfl, rfl, rfl, gap.keeps.plat, alloc.trans gap.allocs,
      .cleared rfl gap.node ?_ (read.trans gap.reads) (write.trans (congrArg (· + 1) gap.writes))⟩
    rw [respond_mem, slotWritten_leaf_mem st lvl, gap.keeps.plat, gap.mem, gap.keeps.vpn, map]
    rfl
  · have st : u.st = .walkRd := gap.st.trans (if_neg leaf)
    obtain ⟨read, write, alloc⟩ := counts_readLogged u
    have next := step_walkRd st (by rw [gap.level]; omega) live
    have absent : slotFrame u = none := gap.slotFrame.trans (gap.absent leaf)
    simp only [absent, map, Bool.and_false, Bool.false_eq_true, if_false] at next
    exact ⟨_, ends (by simp [st]) next rfl, rfl, rfl, gap.keeps.plat, alloc.trans gap.allocs,
      .miss (by omega) gap.mem (read.trans (congrArg (· + 1) gap.reads)) (write.trans gap.writes)⟩

/-! `MAP` -/

/-- The walk of a `MAP` below the `k` leading valid entries, from the node `c` (R161 to R163). -/
def mapBelow (s : State) (v : Vpn) (k : Nat) (c : Frame) : Option Frame × Memory × Nat :=
  mapWalk s.plat.byteOrder v (answerAt s) (4 - k) 0 s.mem c

/-- How a `MAP` ends whose walk below the `k` leading valid entries gives `w` (R161 to R164): the leaf is written, or the
allocator was exhausted. -/
inductive MapEnds (v : Vpn) (q : Frame) (k : Nat) (w : Option Frame × Memory × Nat) (s t : State) : Prop
  | mapped {d : Frame} : w.1 = some d → t.rspStatus = .ok →
      t.mem = writeWord s.plat.byteOrder w.2.1 (slotPA d (idx v 4)).toNat (pteEnc true q) →
      readCount t = readCount s + 4 → writeCount t = writeCount s + w.2.2 + 1 → MapEnds v q k w s t
  | exhausted : w.1 = none → t.rspStatus = .allocatorExhausted → t.mem = w.2.1 → 1 ≤ w.2.2 →
      readCount s + k + w.2.2 ≤ readCount t → readCount t ≤ readCount s + 4 →
      writeCount t + 1 = writeCount s + w.2.2 → MapEnds v q k w s t

theorem exists_atGap_map (presents : Presents (.map r v q) rest s) (accepted : Accepted r v s) :
    ∃ u, AtGap (Instr.map r v q).command rest (pathDepth s r (vpnOf v)) s u :=
  exists_atGap presents accepted rfl

/-- The run of a `MAP` from its first absent entry or leaf node `u` to its response: `map_loop`, and after it the leaf
write where a leaf node was reached. -/
theorem AtGap.run_map {k : Nat} {u : State} (gap : AtGap (Instr.map r v q).command rest k s u)
    (presents : Presents (.map r v q) rest s) :
    ∃ t, runToResponse 14 s = .next t ∧ t.plat = s.plat ∧
      (mapBelow s (vpnOf v) k u.curFrame).2.2 ≤ 4 - k ∧
      allocCount t = allocCount s + (mapBelow s (vpnOf v) k u.curFrame).2.2 ∧
      MapEnds (vpnOf v) q k (mapBelow s (vpnOf v) k u.curFrame) s t := by
  have live := gap.live (live_walkStart presents)
  obtain ⟨few, runGap, keeps, level, mem, -, st, -, reads, writes, allocs, answers⟩ := gap
  obtain ⟨y, K, steps, run, keeps', mem', a, taken, most, allocs', leaf, exhausted⟩ :=
    map_loop (answerAt s) (4 - k) u 0 live (by omega) keeps.op keeps.map
      (by rw [st]; simp only [show 4 - k = 0 ↔ k = 4 by omega]) (fun j => by rw [answers, Nat.zero_add])
  have walk : mapWalk u.plat.byteOrder u.vpnReg (answerAt s) (4 - k) 0 u.mem u.curFrame =
      mapBelow s (vpnOf v) k u.curFrame := by
    rw [keeps.plat, keeps.vpn, mem]
    rfl
  rw [walk] at mem' taken leaf exhausted
  have runs (N) : runToResponse (N + K + k + 1) s = runToResponse N y := (runGap _).trans (run N)
  have kept := keeps.trans keeps'
  cases walked : (mapBelow s (vpnOf v) k u.curFrame).1 with
  | none =>
    obtain ⟨up, status, -, -, one, low, high, written⟩ := exhausted walked
    have ends := run_mono up ((runs 0).trans (run_resp 0 up)) (show 0 + K + k + 1 ≤ 14 by omega)
    exact ⟨y, ends, kept.plat, by omega, by omega,
      .exhausted walked status mem' (by omega) (by omega) (by omega) (by omega)⟩
  | some d =>
    obtain ⟨st, level, cur, read, written⟩ := leaf d walked
    have level := level_four level
    have next := run_step (n := 0) (by simp [st]) (step_leafWr st level (keeps'.live live))
    have ends := run_mono rfl ((runs 1).trans next) (show 1 + K + k + 1 ≤ 14 by omega)
    have written' : (slotWritten y).mem = writeWord s.plat.byteOrder (mapBelow s (vpnOf v) k u.curFrame).2.1
        (slotPA d (idx (vpnOf v) 4)).toNat (pteEnc true q) := by
      rw [slotWritten_leaf_mem st level, kept.plat, mem', cur, kept.vpn, kept.map, kept.ppn]
      rfl
    obtain ⟨leafReads, leafWrites, leafAllocs⟩ := counts_slotWritten y
    exact ⟨_, ends, kept.plat, by omega, leafAllocs.trans (by omega),
      .mapped walked rfl written' (leafReads.trans (by omega)) (leafWrites.trans (by omega))⟩

end

end Sys2Proof.Machine
end

section
/-! Proofs about whole updates (R171 to R176): what a `MAP` and an `UNMAP` do to the translations and to the tree, and
the transactions they take. -/
namespace Sys2Proof.Machine

/-! The base of the tree premise -/

theorem ZeroIn.followPath {o : ByteOrder} {m : Memory} {f g : Frame} {p : List Idx} (zero : ZeroIn o m f)
    (path : followPath o m p f = some g) : p = [] := by
  by_contra long
  simp [followPath_zero zero long] at path

/-- Settles O56: from a zero-filled root the one path is the empty one. -/
theorem zeroFilledRootMeetsTheTreePremise : Obligations.ZeroFilledRootMeetsTheTreePremise := by
  intro s r zero
  refine ⟨fun p q f _ _ toP toQ => ?_, fun v => ?_⟩
  · rw [ZeroIn.followPath zero toP, ZeroIn.followPath zero toQ]
  · rw [translateIn, translate_eq_followPath]
    exact followPath_zero zero (by simp [vpnPath])

/-! The leaf entry as the last step of a path -/

/-- The paths of two VPNs are the same only if the VPNs are. -/
theorem vpnPath_ne {v v2 : Vpn} (other : v2 ≠ v) : vpnPath v2 5 ≠ vpnPath v 4 ++ [idx v 4] := fun same =>
  other (vpnPath_inj (same.trans (vpnPath_succ v 4).symm))

section
variable {o : ByteOrder} {m : Memory} {r d : Frame} {v : Vpn} {w : Word}

/-- Writing the leaf entry of a VPN in a tree: the VPN translates to what the word says, every other VPN as before, and the
table stays a tree (R174, R175). -/
theorem translate_write_leaf (memory : m.wf = true) (tree : IsTree o m r)
    (node : followPath o m (vpnPath v 4) r = some d) :
    translate o (writeWord o m (slotPA d (idx v 4)).toNat w) r v = wordFrame w ∧
      (∀ v2, v2 ≠ v → translate o (writeWord o m (slotPA d (idx v 4)).toNat w) r v2 = translate o m r v2) ∧
      IsTree o (writeWord o m (slotPA d (idx v 4)).toNat w) r := by
  obtain ⟨tree', leaves⟩ := write_leaf (x := idx v 4) (w := w) tree (vpnPath_length v 4) node
  refine ⟨?_, fun v2 other => ?_, tree'⟩
  · have own := followPath_through_write (x := idx v 4) (w := w) memory tree (vpnPath_length v 4).le node []
    rw [translate_eq_followPath, vpnPath_succ]
    rw [List.append_nil] at own
    rw [show (BitVec.ofNat 3 4 : Level) = 4 from rfl, own]
    cases wordFrame w <;> rfl
  · simp only [translate_eq_followPath]
    exact leaves _ (vpnPath_length v2 5) (vpnPath_ne other)

end

theorem KeepsTable.translate {o : ByteOrder} {r : Frame} {m m' : Memory} (keeps : KeepsTable o r m m') (v : Vpn) :
    Machine.translate o m' r v = Machine.translate o m r v := by
  simp only [translate_eq_followPath]
  exact keeps.leaves _ (vpnPath_length v 5)

/-! `MAP` -/

section
variable {r q : Frame} {v : Word} {rest : List Bundle} {s u : State} {k : Nat} {c : Command}

theorem AtGap.path (gap : AtGap c rest k s u) :
    followPath s.plat.byteOrder s.mem (vpnPath (vpnOf c.vpn) k) c.root = some u.curFrame := by
  rw [← nodeOn_eq_followPath gap.few]
  exact gap.node

/-- Under the premises of R174 the walk of a `MAP` keeps the table and ends at its leaf node. -/
theorem AtGap.mapBelow_keepsTable (gap : AtGap c rest k s u) (memory : s.mem.wf = true) (tree : TreePremise s c.root)
    (premise : AllocPremise s c.root (4 - k)) :
    KeepsTable s.plat.byteOrder c.root s.mem (mapBelow s (vpnOf c.vpn) k u.curFrame).2.1 ∧
      ∀ d, (mapBelow s (vpnOf c.vpn) k u.curFrame).1 = some d →
        followPath s.plat.byteOrder (mapBelow s (vpnOf c.vpn) k u.curFrame).2.1 (vpnPath (vpnOf c.vpn) 4) c.root =
          some d := by
  refine mapWalk_keepsTable (4 - k) (Nat.add_sub_cancel' gap.few) memory (treePremise_iff.mp tree) gap.path
    gap.absent ?_
  rw [Nat.zero_add]
  exact premise.fresh

/-- Settles O57: the walk keeps the table, and the leaf written is that of the VPN alone. -/
theorem mapInstallsItsMappingAndNoOther : Obligations.MapInstallsItsMappingAndNoOther := by
  intro r v q rest s t presents accepted memory tree premise run status
  obtain ⟨u, gap⟩ := exists_atGap_map presents accepted
  obtain ⟨t', run', plat, -, -, ends⟩ := gap.run_map presents
  obtain rfl : t' = t := Host.Outcome.next.inj (run'.symm.trans run)
  obtain ⟨keeps, leaf⟩ := gap.mapBelow_keepsTable memory tree premise
  cases ends with
  | exhausted _ exhausted => simp [status] at exhausted
  | @mapped d walked _ mem =>
    obtain ⟨own, others, tree'⟩ := translate_write_leaf (w := pteEnc true q) keeps.memory keeps.tree (leaf d walked)
    simp only [treePremise_iff, translateIn, plat, mem]
    exact ⟨own.trans (wordFrame_pteEnc q), fun v2 other => (others v2 other).trans (keeps.translate v2), tree'⟩

/-- Settles O59: the walk keeps the table, and it is exhausted only below an absent entry on the path of the VPN. -/
theorem exhaustedMapChangesNoMapping : Obligations.ExhaustedMapChangesNoMapping := by
  intro r v q rest s t presents accepted memory tree premise run status
  obtain ⟨u, gap⟩ := exists_atGap_map presents accepted
  obtain ⟨t', run', plat, few, -, ends⟩ := gap.run_map presents
  obtain rfl : t' = t := Host.Outcome.next.inj (run'.symm.trans run)
  obtain ⟨keeps, -⟩ := gap.mapBelow_keepsTable memory tree premise
  cases ends with
  | mapped _ ok => simp [status] at ok
  | exhausted _ _ mem taken =>
    simp only [treePremise_iff, translateIn, plat, mem]
    exact ⟨translate_eq_none (show pathDepth s r (vpnOf v) < 4 by omega), keeps.translate, keeps.tree⟩

end

/-! `UNMAP` -/

/-- Settles O58: with an absent entry on the path nothing is written; else the leaf cleared is that of the VPN alone. -/
theorem unmapRemovesItsMappingAndNoOther : Obligations.UnmapRemovesItsMappingAndNoOther := by
  intro r v q rest s presents accepted memory tree
  obtain ⟨t, run, up, status, plat, -, ends⟩ := run_unmap presents accepted
  refine ⟨t, run, up, status, ?_⟩
  cases ends with
  | miss inner mem =>
    simp only [treePremise_iff, translateIn, plat, mem, implies_true, true_and]
    exact ⟨translate_eq_none inner, tree⟩
  | cleared _ node mem =>
    rw [nodeOn_eq_followPath le_rfl] at node
    simp only [treePremise_iff, translateIn, plat, mem]
    exact translate_write_leaf memory (treePremise_iff.mp tree) node

/-! A second `UNMAP` -/

section
variable {o : ByteOrder} {m : Memory} {f : Frame} {x : Idx} {v : Vpn} {w : Word}

/-- A cleared entry is absent. -/
theorem entryFrame_cleared (memory : m.wf = true) :
    entryFrame o (writeWord o m (slotPA f x).toNat 0) f x = none :=
  entryFrame_write_same memory

/-- A path that is there after an entry is cleared was there before: it goes through valid entries only. -/
theorem followPath_of_cleared {g : Frame} (memory : m.wf = true) (p : List Idx) :
    ∀ {r : Frame}, followPath o (writeWord o m (slotPA f x).toNat 0) p r = some g → followPath o m p r = some g := by
  induction p with
  | nil => exact id
  | cons i p ih =>
    intro r path
    rw [followPath] at path ⊢
    by_cases own : (f, x) = (r, i)
    · obtain ⟨rfl, rfl⟩ := Prod.mk.inj own
      simp only [entryFrame_cleared memory, reduceCtorEq] at path
    · rw [entryFrame_write_other own] at path
      cases entry : entryFrame o m r i with
      | none => simp [entry] at path
      | some h =>
        rw [entry] at path
        exact ih path

theorem nodeOn_of_cleared {r d : Frame} (memory : m.wf = true)
    (node : nodeOn o (writeWord o m (slotPA f x).toNat 0) r v 4 = some d) : nodeOn o m r v 4 = some d := by
  rw [nodeOn_eq_followPath le_rfl] at node ⊢
  exact followPath_of_cleared memory _ node

/-- After its leaf entry is cleared a VPN has no mapping: its path ends there, or, where it goes through that entry above
the leaf, earlier. -/
theorem translate_cleared {r d : Frame} (memory : m.wf = true) (node : nodeOn o m r v 4 = some d) :
    translate o (writeWord o m (slotPA d (idx v 4)).toNat 0) r v = none := by
  rw [translate]
  cases walk : walkFrom o (writeWord o m (slotPA d (idx v 4)).toNat 0) v intermediate r with
  | none => rfl
  | some d' =>
    obtain rfl : d = d' := Option.some.inj (node.symm.trans (nodeOn_of_cleared memory walk))
    exact entryFrame_cleared memory

/-! A word written twice -/

theorem writeLanes_self {pa : Nat} (memory : m.wf = true) (ks : List Nat)
    (lanes : ∀ k ∈ ks, m.read (laneAddr o pa k) = wordByte w k) : writeLanes o pa w ks m = m := by
  induction ks with
  | nil => rfl
  | cons k ks ih =>
    rw [writeLanes, ← lanes k List.mem_cons_self, Memory.write_read_self memory]
    exact ih fun j hj => lanes j (List.mem_cons_of_mem k hj)

theorem writeWord_idem {pa : Nat} (bound : pa + 8 ≤ 2 ^ 64) (memory : m.wf = true) :
    writeWord o (writeWord o m pa w) pa w = writeWord o m pa w :=
  writeLanes_self (writeWord_wf bound memory) _ fun _ lane =>
    read_writeLanes_lane bound (by decide) (by decide) lane memory

end

/-- Settles O60: where the first `UNMAP` wrote nothing the second finds the same absent entry; where it cleared the leaf
entry, the second finds an absent entry, or the same leaf entry and clears it again. -/
theorem unmapIsIdempotent : Obligations.UnmapIsIdempotent := by
  intro r v q q' rest rest' s t s' presents accepted memory run presents' sameMem samePlat
  have accepted' : Accepted r v s' := ⟨accepted.range, samePlat ▸ accepted.root⟩
  obtain ⟨u, first, -, -, plat, -, ends⟩ := run_unmap presents accepted
  obtain rfl : u = t := Host.Outcome.next.inj (first.symm.trans run)
  obtain ⟨t', run', up', status', -, -, ends'⟩ := run_unmap presents' accepted'
  rw [translateIn, plat]
  cases ends with
  | miss inner mem =>
    rw [mem]
    refine ⟨translate_eq_none inner, t', run', up', status', ?_⟩
    cases ends' with
    | miss _ mem' => rw [mem', sameMem, mem]
    | cleared full =>
      rw [pathDepth, sameMem, samePlat, mem] at full
      exact absurd full inner.ne
  | @cleared d _ node mem =>
    rw [mem]
    refine ⟨translate_cleared memory node, t', run', up', status', ?_⟩
    cases ends' with
    | miss _ mem' => rw [mem', sameMem, mem]
    | @cleared d' _ node' mem' =>
      rw [sameMem, samePlat, mem] at node' mem'
      obtain rfl : d = d' := Option.some.inj (node.symm.trans (nodeOn_of_cleared memory node'))
      rw [mem', writeWord_idem (slotPA_bound ..) memory]

/-! The transactions -/

theorem AtGap.mapBelow_taken {c : Command} {rest : List Bundle} {k : Nat} {s u : State} (gap : AtGap c rest k s u)
    (most : (mapBelow s (vpnOf c.vpn) k u.curFrame).2.2 ≤ 4 - k) :
    ((mapBelow s (vpnOf c.vpn) k u.curFrame).2.2 = 0 ↔ k = 4) ∧
      ∀ d, (mapBelow s (vpnOf c.vpn) k u.curFrame).1 = some d → AllocPremise s c.root (4 - k) →
        (mapBelow s (vpnOf c.vpn) k u.curFrame).2.2 = 4 - k := by
  have few := gap.few
  refine ⟨⟨fun noneTaken => ?_, fun full => by omega⟩, fun d leaf premise => ?_⟩
  · by_contra inner
    obtain ⟨n, remaining⟩ : ∃ n, 4 - k = n + 1 := ⟨3 - k, by omega⟩
    have asks : 0 < (mapBelow s (vpnOf c.vpn) k u.curFrame).2.2 := by
      rw [mapBelow, remaining]
      refine lt_mapWalk_taken ?_
      rw [show 3 - n = k by omega]
      exact gap.absent inner
    omega
  · refine (mapWalk_taken (avoid := Reaches s.plat.byteOrder s.mem c.root) (4 - k) (Nat.add_sub_cancel' few)
      ⟨_, by simp [few], gap.path⟩ gap.absent ?_ leaf).trans (Nat.zero_add _)
    rw [Nat.zero_add]
    exact premise.fresh

/-- Settles O54: the ends of the two runs, and the answers that a walk over absent entries takes. -/
theorem updateTransactionCounts : Obligations.UpdateTransactionCounts := by
  refine ⟨fun r v q rest s t presents accepted run => ?_, fun r v q rest s t presents accepted run => ?_⟩
  · obtain ⟨u, gap⟩ := exists_atGap_map presents accepted
    obtain ⟨t', run', -, most, allocs, ends⟩ := gap.run_map presents
    obtain rfl : t' = t := Host.Outcome.next.inj (run'.symm.trans run)
    obtain ⟨noneTaken, allTaken⟩ := gap.mapBelow_taken most
    refine ⟨gap.few, ?_⟩
    cases ends with
    | mapped leaf status _ reads writes =>
      exact .inl ⟨status, _, most, noneTaken, allTaken _ leaf, reads, allocs, writes⟩
    | exhausted _ status _ one low high writes =>
      exact .inr ⟨status, _, one, most, low, high, allocs, writes⟩
  · obtain ⟨t', run', -, -, -, allocs, ends⟩ := run_unmap presents accepted
    obtain rfl : t' = t := Host.Outcome.next.inj (run'.symm.trans run)
    refine ⟨allocs, ?_⟩
    cases ends with
    | miss inner _ reads writes => exact ⟨fun full => absurd full inner.ne, fun _ => ⟨reads, writes⟩⟩
    | cleared full _ _ reads writes => exact ⟨fun _ => ⟨reads, writes⟩, fun inner => absurd full inner.ne⟩

end Sys2Proof.Machine
end

section
/-! Proofs about the stops of the block and its three errors (R190 to R196, R207): the requests that leave it stuck, the
commands rejected at accept, and the answer that ends a `MAP`. -/
namespace Sys2Proof.Machine

/-! The requests presented (R21, R51, R60) -/

theorem memReqValid_iff {s : State} :
    memReqValid s = true ↔
      levelFits s = true ∧ (s.st = .walkRd ∨ s.st = .walkLink ∨ s.st = .leafRd ∨ s.st = .leafWr) := by
  by_cases fits : levelFits s = true
  · cases st : s.st <;> simp [memReqValid, portRequest, fits, st]
  · simp [memReqValid, portRequest, fits]

theorem allocReqValid_iff {s : State} : allocReqValid s = true ↔ levelFits s = true ∧ s.st = .walkAlloc := by
  by_cases fits : levelFits s = true
  · cases st : s.st <;> simp [allocReqValid, portRequest, fits, st]
  · simp [allocReqValid, portRequest, fits]

/-- Only `IDLE` and `RESP` present no request. -/
theorem presents_request_or_rests {s : State} (fits : levelFits s = true) :
    memReqValid s = true ∨ allocReqValid s = true ∨ s.st = .idle ∨ s.st = .resp := by
  have code := (levelFits_iff.mp fits).1
  simp only [memReqValid_iff, allocReqValid_iff, fits, true_and]
  cases st : s.st with
  | code7 => exact absurd st code
  | _ => simp

/-! The step that makes the request -/

section
variable {s : State}

/-- Where a memory request is presented, the step is one of the seven FSM steps with a memory transaction. -/
theorem step_of_memory_request (codes : codeFault s = none) (released : s.rst = false)
    (request : memReqValid s = true) :
    step s ∈ [queryWalkRd s, queryLeafRd s, mapWalkRd s, mapWalkLink s, mapLeafWr s, unmapWalkRd s, unmapLeafWr s] := by
  obtain ⟨fits, st⟩ := memReqValid_iff.mp request
  have allowed (next : Result) : guarded s next = next := guarded_of_fits codes fits
  rw [step_inFlight codes released (by rcases st with st | st | st | st <;> simp [st])]
  rcases st with st | st | st | st
  · cases op : s.opReg with
    | false => simp [inFlight, st, op, exec, execQuery, allowed]
    | true => cases map : s.mapReg <;> simp [inFlight, st, op, map, exec, execMap, execUnmap, allowed]
  · simp [inFlight, st, exec, execMap, allowed]
  · simp [inFlight, st, exec, execQuery, allowed]
  · cases map : s.mapReg <;> simp [inFlight, st, map, exec, execMap, execUnmap, allowed]

theorem step_of_allocator_request (codes : codeFault s = none) (released : s.rst = false)
    (request : allocReqValid s = true) : step s = mapWalkAlloc s := by
  obtain ⟨fits, st⟩ := allocReqValid_iff.mp request
  rw [step_inFlight codes released (by simp [st])]
  simp [inFlight, st, exec, execMap, guarded_of_fits codes fits]

theorem step_memory_stuck (codes : codeFault s = none) (released : s.rst = false) (request : memReqValid s = true)
    (unanswered : s.memAnswers = false) : step s = .fault .memoryNeverAnswers := by
  simpa [fsm_memory_stuck unanswered] using step_of_memory_request codes released request

theorem exists_step_of_memory_answer (codes : codeFault s = none) (released : s.rst = false)
    (request : memReqValid s = true) (answers : s.memAnswers = true) : ∃ t, step s = .next t := by
  have nexts := step_of_memory_request codes released request
  simp only [queryWalkRd_eq answers, queryLeafRd_eq answers, mapWalkRd_eq answers, mapWalkLink_eq answers,
    mapLeafWr_eq answers, unmapWalkRd_eq answers, unmapLeafWr_eq answers, List.mem_cons, List.not_mem_nil,
    or_false] at nexts
  rcases nexts with next | next | next | next | next | next | next <;> exact ⟨_, next⟩

/-- `IDLE` and `RESP` present no request, so nothing keeps them from a step: they wait, accept or deliver. -/
theorem exists_step_of_rests (codes : codeFault s = none) (released : s.rst = false)
    (rests : s.st = .idle ∨ s.st = .resp) : ∃ t, step s = .next t := by
  have level := (codeFault_eq_none.mp codes).2
  rcases rests with idle | resp
  · cases port : s.cmdPort with
    | nil => exact ⟨s, step_waiting codes released idle port⟩
    | cons b rest => exact ⟨_, (step_presented codes released idle port).trans (exec_idle idle level)⟩
  · exact ⟨_, (step_inFlight codes released (by simp [resp])).trans (exec_resp resp level)⟩

end

/-- Settles O20: the step is the FSM step that makes the request. -/
theorem unansweredRequestLeavesTheBlockStuck : Obligations.UnansweredRequestLeavesTheBlockStuck :=
  fun _ codes released =>
    ⟨step_memory_stuck codes released, fun request unanswered =>
      (step_of_allocator_request codes released request).trans (mapWalkAlloc_stuck unanswered)⟩

/-- Settles O19: a reset step and a state without a request have a next state; a request has one where it is answered. -/
theorem onlyAnUnansweredRequestStopsTheBlock : Obligations.OnlyAnUnansweredRequestStopsTheBlock := by
  intro s inv
  have codes := inv.codes
  obtain reset | released := Bool.eq_false_or_eq_true s.rst
  · exact .inl ⟨_, step_reset codes reset⟩
  obtain memory | allocator | rests := presents_request_or_rests inv.level
  · obtain answers | unanswered := Bool.eq_false_or_eq_true s.memAnswers
    · exact .inl (exists_step_of_memory_answer codes released memory answers)
    · exact .inr (.inl ⟨step_memory_stuck codes released memory unanswered, released, unanswered, memory⟩)
  · have next := step_of_allocator_request codes released allocator
    obtain answers | unanswered := Bool.eq_false_or_eq_true s.allocAnswers
    · exact .inl ⟨_, next.trans (mapWalkAlloc_eq answers)⟩
    · exact .inr (.inr ⟨next.trans (mapWalkAlloc_stuck unanswered), released, unanswered, allocator⟩)
  · exact .inl (exists_step_of_rests codes released rests)

/-! The errors at accept (R191, R192, R195) -/

/-- Settles O33: the range check comes first, and an error writes the response registers alone. -/
theorem rejectedCommandsHaveNoEffect : Obligations.RejectedCommandsHaveNoEffect := by
  intro i s idle level
  have accepts : exec i s = .next (accept i.command s) := exec_idle idle level
  refine ⟨fun rejected => ⟨_, accepts, ?_⟩, fun every below => ⟨_, accepts, ?_⟩⟩
  · by_cases range : inRange i.command.vpn = true
    · have inside := ((inRange_iff _).mp range).not_ge
      have root := rejected.resolve_left inside
      rw [accept_invalidRoot range (by simp [root]), if_neg inside]
      exact ⟨rfl, rfl, rfl, rfl, rfl, rfl, rfl, rfl⟩
    · have outside := not_lt.mp (mt (inRange_iff _).mpr range)
      rw [accept_outOfRange range, if_pos outside]
      exact ⟨rfl, rfl, rfl, rfl, rfl, rfl, rfl, rfl⟩
  · simp [accept, (inRange_iff _).mpr below, every, rootAccepts]

/-! The exhausted allocator (R193) -/

section
variable {o : ByteOrder} {v : Vpn} {ans : Nat → AllocAnswer} {n j : Nat} {m : Memory} {c : Frame}

/-- `Exhausted` is the last answer that the walk of a `MAP` takes (R162). -/
theorem mapWalk_of_exhausted {k : Nat} (after : j ≤ k) (taken : k < (mapWalk o v ans n j m c).2.2)
    (answer : ans k = .exhausted) :
    (mapWalk o v ans n j m c).1 = none ∧ (mapWalk o v ans n j m c).2.2 = k + 1 := by
  fun_induction mapWalk o v ans n j m c with
  | case1 => exact absurd taken after.not_gt
  | case2 _ _ _ _ _ _ ih => exact ih after taken
  | case3 _ j _ _ _ _ granted ih =>
    have other : k ≠ j := by
      rintro rfl
      simp [granted] at answer
    exact ih (by omega) taken
  | case4 => exact ⟨rfl, congrArg (· + 1) (after.antisymm (Nat.le_of_lt_succ taken))⟩

/-- The walk of a `MAP` stops short of its leaf node only at `Exhausted` (R162). -/
theorem exhausted_of_mapWalk (short : (mapWalk o v ans n j m c).1 = none) :
    ∃ k, (mapWalk o v ans n j m c).2.2 = k + 1 ∧ ans k = .exhausted := by
  fun_induction mapWalk o v ans n j m c with
  | case1 => simp at short
  | case2 _ _ _ _ _ _ ih => exact ih short
  | case3 _ _ _ _ _ _ _ ih => exact ih short
  | case4 _ j _ _ _ answer => exact ⟨j, rfl, answer⟩

theorem mapWalk_eq_none_iff :
    (mapWalk o v ans n 0 m c).1 = none ↔
      0 < (mapWalk o v ans n 0 m c).2.2 ∧ ans ((mapWalk o v ans n 0 m c).2.2 - 1) = .exhausted := by
  refine ⟨fun short => ?_, fun ⟨asked, answer⟩ => ?_⟩
  · obtain ⟨k, taken, answer⟩ := exhausted_of_mapWalk short
    rw [taken]
    exact ⟨k.succ_pos, answer⟩
  · exact (mapWalk_of_exhausted (Nat.zero_le _) (Nat.sub_one_lt_of_lt asked) answer).1

end

/-- A `MAP` reports the exhausted allocator exactly where its walk stops short (R162, R193). -/
theorem MapEnds.status {v : Vpn} {q : Frame} {k : Nat} {w : Option Frame × Memory × Nat} {s t : State}
    (ends : MapEnds v q k w s t) :
    (t.rspStatus = .allocatorExhausted ↔ w.1 = none) ∧ (t.rspStatus ≠ .allocatorExhausted → t.rspStatus = .ok) := by
  cases ends with
  | mapped leaf ok => simp [leaf, ok]
  | exhausted short exhausted => simp [short, exhausted]

/-- Settles O55: the walk takes answers up to the first `Exhausted`, where it stops short, and the status says so. -/
theorem mapFailsOnlyWhenTheAllocatorIsExhausted : Obligations.MapFailsOnlyWhenTheAllocatorIsExhausted := by
  intro r v q rest s presents accepted
  obtain ⟨u, gap⟩ := exists_atGap_map presents accepted
  obtain ⟨t, run, -, -, allocs, ends⟩ := gap.run_map presents
  obtain ⟨t', run', responds, -⟩ := run_accepted presents accepted
  obtain rfl : t' = t := Host.Outcome.next.inj (run'.symm.trans run)
  obtain ⟨exhausted, ok⟩ := ends.status
  refine ⟨t', _, run, responds.up, allocs, fun k more answer => ?_, exhausted.trans mapWalk_eq_none_iff, ok⟩
  have last := (mapWalk_of_exhausted (Nat.zero_le k) (Nat.lt_of_succ_lt more) answer).2
  exact more.ne last.symm

end Sys2Proof.Machine
end

section
/-! Proofs about reset and the unused codes (R220 to R222, R230): the states without a step, the values a reset step
gives the registers, and what it leaves of memory, the ports and the allocator. -/
namespace Sys2Proof.Machine

/-! The unused codes -/

theorem level_unused_iff {l : Level} : l = 5 ∨ l = 6 ∨ l = 7 ↔ 4 < l.toNat := by
  revert l
  decide

theorem codeFault_of_unused {s : State} (unused : s.st = .code7 ∨ s.lvl = 5 ∨ s.lvl = 6 ∨ s.lvl = 7) :
    codeFault s = some .unreachableCode :=
  if_pos (unused.imp_right level_unused_iff.mp)

theorem exec_of_codeFault {i : Instr} {s : State} {f : Fault} (codes : codeFault s = some f) : exec i s = .fault f := by
  have stops (next : Result) : guarded s next = .fault f := by simp [guarded, codes]
  cases i with
  | query => exact stops _
  | unmap => exact stops _
  | map => exact stops _

/-- Settles O22: both `step` and the guard of `exec` begin with the check of the codes, which `Inv` passes. -/
theorem unusedCodesHaveNoStep : Obligations.UnusedCodesHaveNoStep := by
  refine ⟨fun s unused => ?_, fun s inv unused => ?_⟩
  · have codes := codeFault_of_unused unused
    exact ⟨by simp [step, codes], fun i => exec_of_codeFault codes⟩
  · exact absurd inv.codes (by simp [codeFault_of_unused unused])

/-! The registers at reset -/

theorem resetRegs_reset : resetRegs State.reset = State.reset := rfl

/-- Settles O16: the reset state has reset registers over an empty memory. -/
theorem invariantHoldsAtReset : Obligations.InvariantHoldsAtReset := by
  unfold Obligations.InvariantHoldsAtReset
  rw [← resetRegs_reset]
  exact inv_resetRegs rfl

/-- Settles O14: the reset state has reset registers, and the reset step leaves such. -/
theorem resetLeavesTheRegistersOfTheSpec : Obligations.ResetLeavesTheRegistersOfTheSpec := by
  unfold Obligations.ResetLeavesTheRegistersOfTheSpec
  intro atReset
  have registers (s : State) : atReset (resetRegs s) :=
    ⟨rfl, rfl, rfl, rfl, rfl, rfl, rfl, rfl, rfl, rfl, rfl, rfl, rfl, rfl, rfl⟩
  refine ⟨resetRegs_reset ▸ registers State.reset, fun s codes reset => ⟨_, step_reset codes reset, ?_⟩⟩
  rw [resetStep_state]
  exact registers _

/-! The request in flight -/

theorem portRequest_of_writing {s : State} (fits : levelFits s = true) (writing : s.st = .walkLink ∨ s.st = .leafWr) :
    portRequest s = some (.write (slotAddr s) (writeData s)) := by
  rcases writing with st | st <;> simp [portRequest, fits, st]

theorem writing_of_portRequest {s : State} {a d : Word} (request : portRequest s = some (.write a d)) :
    levelFits s = true ∧ (s.st = .walkLink ∨ s.st = .leafWr) := by
  unfold portRequest at request
  split_ifs at request with fits
  refine ⟨fits, ?_⟩
  cases st : s.st <;> simp_all

theorem walkAlloc_of_portRequest {s : State} (request : portRequest s = some .alloc) : s.st = .walkAlloc :=
  (allocReqValid_iff.mp (by simp [allocReqValid, request])).2

theorem busy_of_portRequest {s : State} {r : PortRequest} (request : portRequest s = some r) : s.st ≠ .idle := by
  intro idle
  simp [portRequest, idle] at request

/-! The reset step -/

/-- Memory after a reset step (R221, R222): the write in flight is performed where that is its fate. -/
theorem resetStep_mem_eq (s : State) :
    (resetStep s).mem =
      if levelFits s = true ∧ (s.st = .walkLink ∨ s.st = .leafWr) ∧ (nextFate s).1 = .performed then
        writeWord s.plat.byteOrder s.mem (slotAddr s).toNat (writeData s)
      else s.mem := by
  by_cases writes : levelFits s = true ∧ (s.st = .walkLink ∨ s.st = .leafWr)
  · obtain ⟨fits, writing⟩ := writes
    rw [resetStep_request (portRequest_of_writing fits writing), resetRegs_mem, nextFate_state]
    cases fate : (nextFate s).1 <;> simp [abandon, fits, writing]
  · rw [if_neg fun h => writes ⟨h.1, h.2.1⟩]
    cases request : portRequest s with
    | none =>
      rw [resetStep_noRequest request, takeCommand_state]
      rfl
    | some r =>
      rw [resetStep_request request, resetRegs_mem, nextFate_state]
      obtain kept | ⟨a, d, rfl, -⟩ := abandon_mem r (nextFate s).1 { s with
        resetFates := (nextFate s).2.resetFates, draws := (nextFate s).2.draws }
      · exact kept
      · exact absurd (writing_of_portRequest request) writes

/-- The command presented is transferred only where `cmd_ready` is 1 (R84). -/
theorem resetStep_cmdPort (s : State) :
    (resetStep s).cmdPort = if s.st = .idle then s.cmdPort.tail else s.cmdPort := by
  cases request : portRequest s with
  | none => rw [resetStep_noRequest request, takeCommand_state, resetRegs_cmdPort]
  | some r =>
    rw [resetStep_request request, abandon_state, nextFate_state, if_neg (busy_of_portRequest request)]
    rfl

/-- Only an abandoned allocator request takes an answer (R222). -/
theorem resetStep_allocSupply {s : State} (asks : s.st ≠ .walkAlloc) : (resetStep s).allocSupply = s.allocSupply := by
  cases request : portRequest s with
  | none =>
    rw [resetStep_noRequest request, takeCommand_state]
    rfl
  | some r =>
    rw [resetStep_request request, nextFate_state]
    cases r with
    | alloc => exact absurd (walkAlloc_of_portRequest request) asks
    | read | write => cases (nextFate s).1 <;> rfl

/-- The one event a reset step can add is that of the request it abandons (R222). -/
theorem resetStep_trace (s : State) :
    (resetStep s).trace = s.trace ∨ ∃ r, (resetStep s).trace = abandonedEvent r :: s.trace := by
  cases request : portRequest s with
  | none =>
    rw [resetStep_noRequest request, takeCommand_state]
    exact .inl rfl
  | some r =>
    rw [resetStep_request request, nextFate_state]
    exact (abandon_trace r ..).imp_right fun added => ⟨r, added⟩

theorem abandonedEvent_response? (r : PortRequest) : (abandonedEvent r).response? = none := by
  cases r <;> rfl

theorem responses_resetStep (s : State) : responses (resetStep s) = responses s := by
  obtain same | ⟨r, added⟩ := resetStep_trace s
  · rw [responses, same, responses]
  · rw [responses, added, responses]
    simp [abandonedEvent_response?]

/-- Settles O15: the reset step field by field; a scripted fate is the one drawn. -/
theorem resetTouchesMemoryOnlyByTheWriteInFlight : Obligations.ResetTouchesMemoryOnlyByTheWriteInFlight := by
  intro s codes reset
  have mem := resetStep_mem_eq s
  refine ⟨_, step_reset codes reset, (keepsInputs_resetStep s).plat, resetStep_cmdPort s, responses_resetStep s, ?_,
    fun fates script => ?_, fun fates script fits writing => ?_, resetStep_allocSupply⟩
  · split_ifs at mem with performed
    · exact .inr ⟨performed.2.1, mem⟩
    · exact .inl mem
  · have fate : (nextFate s).1 = .unperformed := by simp [nextFate, script]
    simpa [fate] using mem
  · have fate : (nextFate s).1 = .performed := by simp [nextFate, script]
    rwa [if_pos ⟨fits, writing, fate⟩] at mem

end Sys2Proof.Machine
end

section
/-! Proofs about the level and the length of a command (R22, R232, R233): the level rises at each descent and is else
kept, and the response is up within its bound of steps. -/
namespace Sys2Proof.Machine

/-! The level -/

/-- `WALK_LINK` descends, and `WALK_RD` where the entry it reads is valid (R141, R161, R163, R168). -/
def Descends (s : State) : Prop := s.st = .walkLink ∨ (s.st = .walkRd ∧ slotFrame s ≠ none)

section
variable {i : Instr} {s t : State}

theorem descends_iff : Descends s ↔ s.st = .walkLink ∨ (s.st = .walkRd ∧ (slotEntry s).getLsbD 0 = true) := by
  simp [Descends, slotFrame_eq_none]

theorem Descends.level_le (descends : Descends s) (fits : levelFits s = true) : s.lvl.toNat ≤ 3 :=
  levelFits_walk fits (by rcases descends with st | ⟨st, -⟩ <;> simp [st])

theorem Move.lvl_of_descends (move : Move i s t) (fits : levelFits s = true) (descends : Descends s) :
    t.lvl.toNat = s.lvl.toNat + 1 := by
  have walk := descends.level_le fits
  unfold Descends at descends
  cases move with
  | queryChild | mapChild | unmapChild => exact descend_lvl_toNat (s := readLogged s) walk
  | mapLink => exact descend_lvl_toNat (s := slotWritten s) walk
  | _ => simp [*] at descends

theorem Move.lvl_of_not_descends (move : Move i s t) (busy : s.st ≠ .idle)
    (stays : ¬ Descends s) : t.lvl = s.lvl := by
  rw [Descends, not_or] at stays
  by_cases reading : s.st = .walkRd
  · cases move with
    | queryMiss | mapAbsent | unmapMiss => rfl
    | _ => simp [*] at reading stays
  · exact (move.keepsPlace busy reading stays.1).2

end

/-- Settles O50: a step outside `IDLE` is a move, and a valid entry is one with a frame to descend to. -/
theorem levelNeverFallsWithinACommand : Obligations.LevelNeverFallsWithinACommand := by
  intro s t released busy h
  obtain ⟨fits, move⟩ := step_busy_move released busy h
  simp only [← descends_iff]
  exact ⟨move.lvl_of_descends fits, move.lvl_of_not_descends busy⟩

theorem accept_lvl (c : Command) (s : State) : (accept c s).lvl = 0 := by
  unfold accept
  split_ifs <;> rfl

theorem Move.level_le {i : Instr} {s t : State} (move : Move i s t) (level : s.lvl.toNat ≤ 4)
    (fits : levelFits s = true) : t.lvl.toNat ≤ 4 := by
  by_cases idle : s.st = .idle
  · rw [move.eq_accept idle, accept_lvl]
    exact Nat.zero_le 4
  by_cases descends : Descends s
  · have walk := descends.level_le fits
    rw [move.lvl_of_descends fits descends]
    omega
  · rwa [move.lvl_of_not_descends idle descends]

/-- No step enters a level that R230 rules out. -/
theorem step_level_le {s t : State} (h : step s = .next t) : t.lvl.toNat ≤ 4 := by
  obtain ⟨codes, next⟩ := step_next h
  have level := (codeFault_eq_none.mp codes).2
  obtain ⟨-, rfl⟩ | ⟨-, -, -, rfl⟩ | ⟨_, rest, -, idle, -, move⟩ | ⟨-, -, fits, move⟩ := next
  · rw [resetStep_state]
    exact Nat.zero_le 4
  · exact level
  · exact move.level_le level (levelFits_iff.mpr (by simp [idle]))
  · exact move.level_le level fits

/-! The length of a command -/

/-- The most steps of the walk from the root: one a level, and for `MAP` three a level (R233). -/
theorem stepsToLeaf_walkStart (c : Command) (rest : List Bundle) (s : State) :
    stepsToLeaf (walkStart c rest s) = if c.op && c.ppnPresent then 12 else 4 := by
  show (if c.op && c.ppnPresent then 3 else 1) * 4 = _
  split_ifs <;> rfl

section
variable {i : Instr} {rest : List Bundle} {n : Nat} {s t : State}

/-- A rejected command has its response up after accept, an accepted one after its walk and its leaf step. -/
theorem run_ends (presents : Presents i rest s) (enough : stepsToLeaf (walkStart i.command rest s) < n) :
    ∃ t, runToResponse (n + 1) s = .next t ∧ t.st = .resp ∧ t.cmdPort = rest := by
  by_cases accepted : Accepted i.command.root i.command.vpn s
  · obtain ⟨t, run, keeps, responds⟩ := (walking_walkStart presents).run_responds enough
    have starts := run_step (n := n) (by simp [presents.idle]) (step_accepted presents accepted)
    exact ⟨t, starts.trans run, responds.up, keeps.port⟩
  · have up : (accept i.command { s with cmdPort := rest }).st = .resp :=
      accept_st_of_rejected fun ⟨range, root⟩ => accepted ⟨range, root⟩
    have codes : codeFault s = none := codeFault_none (by simp [presents.idle]) presents.level
    rw [run_accept codes presents.released presents.idle presents.port]
    exact ⟨_, run_resp n up, up, (onlyReads_accept ..).port⟩

/-- A caller that is ready takes the response in the next step (R123). -/
theorem step_takes_response (resp : s.st = .resp) (level : s.lvl.toNat ≤ 4) (released : s.rst = false)
    (ready : s.rspReady = true) : ∃ u, step s = .next u ∧ u.st = .idle := by
  rw [step_inFlight (codeFault_none (by simp [resp]) level) released (by simp [resp]), exec_resp resp level]
  exact ⟨_, rfl, by simp [deliver, ready]⟩

/-- The response that a run ends in is taken in the next step: the run keeps `rst` released and the level legal. -/
theorem run_takes_response (presents : Presents i rest s) (run : runToResponse n s = .next t) (resp : t.st = .resp)
    (ready : s.rspReady = true) : ∃ u, step t = .next u ∧ u.st = .idle := by
  obtain ⟨level, released, ready⟩ : t.lvl.toNat ≤ 4 ∧ t.rst = false ∧ t.rspReady = true :=
    run_keeps (P := fun u => u.lvl.toNat ≤ 4 ∧ u.rst = false ∧ u.rspReady = true)
      (fun _ _ ⟨_, released, ready⟩ h => ⟨step_level_le h, (step_keepsInputs h).released.trans released,
        (step_keepsInputs h).ready.trans ready⟩)
      n s t ⟨presents.level, presents.released, ready⟩ run
  exact step_takes_response resp level released ready

end

/-- Settles O49: accept, at most 4 steps of the walk (12 for `MAP`), the leaf step; then the response step. -/
theorem commandsEndWithinTheirStepBounds : Obligations.CommandsEndWithinTheirStepBounds := by
  intro i rest s presents
  have ends {n : Nat} (enough : stepsToLeaf (walkStart i.command rest s) < n) :
      ∃ t, runToResponse (n + 1) s = .next t ∧ t.st = .resp ∧ t.cmdPort = rest ∧
        (s.rspReady = true → ∃ u, step t = .next u ∧ u.st = .idle) := by
    obtain ⟨t, run, resp, port⟩ := run_ends presents enough
    exact ⟨t, run, resp, port, run_takes_response presents run resp⟩
  cases i with
  | query => exact ends (n := 5) (by simp [stepsToLeaf_walkStart, Instr.command])
  | unmap => exact ends (n := 5) (by simp [stepsToLeaf_walkStart, Instr.command])
  | map => exact ends (n := 13) (by simp [stepsToLeaf_walkStart, Instr.command])

end Sys2Proof.Machine
end
